-- ==== Sys2Proof/Word.lean ====
section
/-! DEFINITION. The word types of the core (spec/00_scope.md R8, R9). -/

namespace Sys2Proof

/-- A byte of a buffer, a key, a message or a digest (R8). -/
abbrev Byte := BitVec 8

/-- A host-visible register and a CMD word (R8). -/
abbrev Word := BitVec 32

/-- A time step and a wall-clock sample (R8). -/
abbrev TimeStep := BitVec 64

end Sys2Proof
end

