-- ==== Sys2Proof/Config.lean ====
section
/-! DEFINITION. The constants of spec/00_scope.md R6, the parameters of R7 and the free values of spec/93_implementation_defined.md part 1. -/

namespace Sys2Proof

/-- P_PARTIAL_CHUNK (R7, R82, R90): what DECODE does with a final chunk of fewer than 8 symbols. -/
inductive PartialChunk where
  | zeroFillFive
  | rfc4648Discard
  deriving DecidableEq, Repr

/-- Which function the external HMAC-SHA1 core computes (R7, R114): the reference of R115, or a total function of
which nothing is known. -/
inductive HmacPart where
  | reference
  | external
  deriving DecidableEq, Repr

/-- The parameters of R7, carried as data so that every claim about a state is a claim for every value of them.
P_OUT_CAP and P_KEY_CAP are fixed by P_IN_CAP. -/
structure Params where
  pBase        : Nat
  inCap        : Nat
  partialChunk : PartialChunk
  hmac         : HmacPart
  deriving DecidableEq, Repr

/-- An answer of the RNG to one request (R118). -/
inductive RngAnswer where
  | byte (b : Byte)
  | unavailable
  deriving DecidableEq, Repr, Inhabited

namespace Config

/-- STEP_SECONDS (R6). -/
def stepSeconds : Nat := 30
/-- CODE_DIGITS (R6). -/
def codeDigits : Nat := 6
/-- CODE_MODULUS (R6). -/
def codeModulus : Nat := 1000000
/-- TRUNC_MASK (R6). -/
def truncMask : Nat := 0x7FFFFFFF
/-- GEN_MIN (R6). -/
def genMin : Nat := 16
/-- GEN_MAX (R6). -/
def genMax : Nat := 128
/-- GEN_DEFAULT (R6). -/
def genDefault : Nat := 16
/-- DISCREPANCY_DEFAULT (R6). -/
def discrepancyDefault : Nat := 1
/-- VALID_PAD_COUNTS (R6). -/
def validPadCounts : List Nat := [0, 1, 3, 4, 6]
/-- COUNTER_BYTES (R6). -/
def counterBytes : Nat := 8
/-- DIGEST_BYTES (R6). -/
def digestBytes : Nat := 20
/-- GEN_MASK (R6). -/
def genMask : Byte := 0x1F

/-- The column 'value in this spec' of R7; P_BASE is OPEN there and 0 is a DESIGN CHOICE (log entry 3). -/
def defaultParams : Params :=
  { pBase := 0, inCap := 256, partialChunk := .zeroFillFive, hmac := .reference }

/-- Free value (R114, U15; log entry 4): the digest of an HMAC-SHA1 core of which nothing is known but that it is a
function of key and message. `D[0]` is in bits 159:152 (R111). -/
opaque externalHmac : List Byte → List Byte → BitVec 160

/-- Free value (R45, U2; log entry 8): IN_BUF byte `i` after reset number `epoch`, until the host writes it. -/
opaque inBufDraw (epoch i : Nat) : Byte

/-- Free value (R39, U1; log entry 7): an unspecified OUT_BUF byte, a fresh one for every byte of every read. -/
opaque outBufDraw (n : Nat) : Byte

/-- Free value (R122, U4; log entry 6): the `n`-th wall-clock sample. -/
opaque clockDraw (n : Nat) : TimeStep

/-- Free value (R120, U3; log entry 5): the RNG's `n`-th answer. -/
opaque rngDraw (n : Nat) : RngAnswer

end Config

/-- P_OUT_CAP (R7). -/
def Params.outCap (p : Params) : Nat := max 128 (8 * ((p.inCap + 4) / 5))

/-- P_KEY_CAP (R7). -/
def Params.keyCap (p : Params) : Nat := 5 * ((p.inCap + 7) / 8)

end Sys2Proof
end

