-- ==== Sys2Proof/Syntax.lean ====
section
/-! DEFINITION. The commands of spec/30_encoding.md R68, one constructor per row of spec/opcode_table.json. -/

namespace Sys2Proof

/-- A legal command. `tsel` is bit 8 of its word: for COMPUTE and VERIFY it selects the TSTEP register over the wall
clock, for the others it is ignored but part of the word (R69, R73). -/
inductive Instr where
  /-- DECODE (R85). -/
  | decode (tsel : Bool)
  /-- ENCODE (R87). -/
  | encode (tsel : Bool)
  /-- GENSECRET (R94). -/
  | gensecret (tsel : Bool)
  /-- COMPUTE (R102). -/
  | compute (tsel : Bool)
  /-- VERIFY (R110). -/
  | verify (tsel : Bool)
  deriving DecidableEq, Repr

end Sys2Proof
end

