-- ==== Sys2Proof/WellFormed.lean ====
section
/-! DEFINITION. What is well formed: every command (spec/30_encoding.md R73 gives each of the ten terms its word), and the parameters in the ranges of spec/00_scope.md R7. -/

namespace Sys2Proof

/-- A command carries no operand but its TSEL bit and both values are legal for every opcode (R69, R73), so there is
nothing to refuse. -/
def Instr.wellFormed : Instr → Bool
  | .decode _ => true
  | .encode _ => true
  | .gensecret _ => true
  | .compute _ => true
  | .verify _ => true

/-- P_BASE is aligned to the window's size (R7, R47). -/
def Params.baseAligned (p : Params) : Bool := p.pBase % 0x4000 == 0

/-- P_IN_CAP is in its range (R7). -/
def Params.capInRange (p : Params) : Bool := decide (128 ≤ p.inCap) && decide (p.inCap ≤ 2048)

/-- The parameters of a core that the spec describes (R7). -/
def Params.wellFormed (p : Params) : Bool := p.baseAligned && p.capInRange

end Sys2Proof
end

