-- ==== Sys2Proof/Decode.lean ====
section
/-! DEFINITION. The decoder and encoder of the CMD word (spec/30_encoding.md R67 to R73). -/

namespace Sys2Proof

/-- Why a word is no command (R71), by name. -/
inductive WordReject where
  /-- OPCODE is 0x0 or 0x6 to 0xF. -/
  | illegalOpcode (op : BitVec 4)
  /-- word[7:4] is not 0. -/
  | reservedLow (v : BitVec 4)
  /-- word[31:9] is not 0. -/
  | reservedHigh (v : BitVec 23)
  /-- Not exactly the four bytes of one word (R67: no other length exists). -/
  | badLength (n : Nat)
  deriving DecidableEq, Repr

/-- OPCODE, bits 3:0 (R67). -/
def opcodeField (w : Word) : BitVec 4 := w.extractLsb' 0 4

/-- Bits 7:4, reserved (R67). -/
def reservedLowField (w : Word) : BitVec 4 := w.extractLsb' 4 4

/-- TSEL, bit 8 (R67). -/
def tselField (w : Word) : Bool := w.getLsbD 8

/-- Bits 31:9, reserved (R67). -/
def reservedHighField (w : Word) : BitVec 23 := w.extractLsb' 9 23

/-- The opcode map of R68. -/
def opcodeMap (op : BitVec 4) (tsel : Bool) : Except WordReject Instr :=
  if op = 1 then .ok (.decode tsel)
  else if op = 2 then .ok (.encode tsel)
  else if op = 3 then .ok (.gensecret tsel)
  else if op = 4 then .ok (.compute tsel)
  else if op = 5 then .ok (.verify tsel)
  else .error (.illegalOpcode op)

/-- The decoder, total on every word: R71's three grounds, then R68's map. -/
def decodeWord (w : Word) : Except WordReject Instr :=
  if reservedLowField w ≠ 0 then .error (.reservedLow (reservedLowField w))
  else if reservedHighField w ≠ 0 then .error (.reservedHigh (reservedHighField w))
  else opcodeMap (opcodeField w) (tselField w)

/-- The word whose bytes, lowest address first, are these (the host's lanes are little-endian, R51). -/
def wordOfBytes (b0 b1 b2 b3 : Byte) : Word := b3 ++ b2 ++ b1 ++ b0

/-- The bytes of a word, lowest address first (R51). -/
def bytesOfWord (w : Word) : List Byte :=
  [w.extractLsb' 0 8, w.extractLsb' 8 8, w.extractLsb' 16 8, w.extractLsb' 24 8]

/-- The decoder on any bytes: one word of four bytes, nothing else (R67). -/
def decodeBytes : List Byte → Except WordReject Instr
  | [b0, b1, b2, b3] => decodeWord (wordOfBytes b0 b1 b2 b3)
  | bs => .error (.badLength bs.length)

/-- OPCODE of a command (R68). -/
def opcodeOf : Instr → BitVec 4
  | .decode _ => 1
  | .encode _ => 2
  | .gensecret _ => 3
  | .compute _ => 4
  | .verify _ => 5

/-- TSEL of a command (R69). -/
def tselOf : Instr → Bool
  | .decode t => t
  | .encode t => t
  | .gensecret t => t
  | .compute t => t
  | .verify t => t

/-- The CMD word of a command, laid out as R67 draws it. -/
def encode (i : Instr) : Word := (0 : BitVec 23) ++ BitVec.ofBool (tselOf i) ++ (0 : BitVec 4) ++ opcodeOf i

/-- The bytes of a command's word, lowest address first. -/
def encodeBytes (i : Instr) : List Byte := bytesOfWord (encode i)

/-- The command the decoder reads from an instruction of the opcode table whose `nbits` bits are `w`; the bits above are
0. Longer than one word is no command (R67). -/
def decodeTableWord (nbits w : Nat) : Option Instr :=
  if nbits ≤ 32 then
    match decodeBytes (bytesOfWord (BitVec.ofNat 32 (w % 2 ^ nbits))) with
    | .ok i => some i
    | .error _ => none
  else none

end Sys2Proof
end

