-- ==== Sys2Proof/Machine/State.lean ====
section
/-! DEFINITION. The state of the core as plain data (spec/10_state.md, INVENTORY.md's list), the reasons a step can stop, and the state after reset (R44, R147). -/

namespace Sys2Proof.Machine

/-- PHASE (R22); the host sees it as STATUS.BUSY. -/
inductive Phase where
  | idle
  | busy
  deriving DecidableEq, Repr

/-- STATUS.ERR (R124). Codes 6 to 15 are never produced, so they have no constructor. -/
inductive Err where
  | none
  | invalidLength
  | noSecureRandom
  | decodeError
  | illegalCommand
  | capacity
  deriving DecidableEq, Repr

/-- Bytes by index, strictly rising. An unlisted index holds no byte that was written since the last reset or accept;
what it reads as is a free value (R39, R45). -/
abbrev Memory := List Host.Cell

/-- One request on the HMAC-SHA1 port (R111): the key, and the message as `be_uint` of its 8 bytes. -/
structure HmacRequest where
  key : List Byte
  msg : TimeStep
  deriving DecidableEq, Repr

/-- One bus access of the host (R46, R51): `n` bytes at an absolute address. Unsupported widths above 4 bytes have no
effect (R52), so no more than 32 bits of data are carried (log entry 24). -/
inductive Access where
  | read (addr n : Nat)
  | write (addr n : Nat) (v : Word)
  deriving DecidableEq, Repr

/-- What the core answered to the last access: the data in the low bits, and the error response of R52. -/
structure BusResponse where
  data  : Word
  error : Bool
  deriving DecidableEq, Repr

/-- The external part a response came from (R111, R118). -/
inductive Port where
  | hmac
  | rng
  deriving DecidableEq, Repr

/-- One entry of the input tape: what happens next (log entry 2). -/
inductive Event where
  /-- The host makes a bus access. -/
  | access (a : Access)
  /-- The host polls STATUS until DONE is 1 (R74 `wait`), `polls` times in vain before the core's turn (log entry 20). -/
  | wait (polls : Nat)
  /-- The core sequencer gets its turn. -/
  | coreTurn
  /-- The reset input changes to this level (R147). -/
  | rst (level : Bool)
  /-- The HMAC-SHA1 core will answer this many more requests; `none`: every one (R123, log entry 10). -/
  | hmacAnswers (k : Option Nat)
  /-- The RNG will answer this many more requests; `none`: every one (R123, log entry 10). -/
  | rngAnswers (k : Option Nat)
  /-- A response to a request that a reset dropped arrives late (R148, log entry 11). -/
  | strayResponse (p : Port)
  deriving DecidableEq, Repr

/-- The state. The first group is what the spec gives the machine, the second what the model adds: the pins and ports it
watches, the input tape, and the counters of the free values. -/
structure State where
  /-- PHASE, and STATUS.BUSY (R22, R25). -/
  phase : Phase
  /-- STATUS.DONE (R25). -/
  done : Bool
  /-- STATUS.RESULT (R25). -/
  result : Bool
  /-- STATUS.ERR (R25, R124). -/
  err : Err
  /-- CTRL.IRQ_EN (R27). -/
  irqEn : Bool
  /-- IN_LEN (R28). -/
  inLen : Word
  /-- OUT_LEN (R29). -/
  outLen : Word
  /-- GEN_LEN (R30). -/
  genLen : Word
  /-- DISCREPANCY.D (R31); the register's other bits are reserved and read 0 (R21). -/
  discrepancy : BitVec 8
  /-- CAND_LEN (R32). -/
  candLen : Word
  /-- CAND0 (R33). -/
  cand0 : Word
  /-- CAND1's bits 15:0 (R34); the register's other bits are reserved and read 0 (R21). -/
  cand1 : BitVec 16
  /-- TSTEP_LO (R35). -/
  tstepLo : Word
  /-- TSTEP_HI (R35). -/
  tstepHi : Word
  /-- STEP_USED_LO (R36). -/
  stepUsedLo : Word
  /-- STEP_USED_HI (R36). -/
  stepUsedHi : Word
  /-- IN_BUF: the bytes the host wrote since the last reset (R38, R45). -/
  inBuf : Memory
  /-- OUT_BUF: the bytes the current command wrote (R39). -/
  outBuf : Memory
  /-- LATCHED_CMD (R41); 0 while IDLE (log entry 21). -/
  latchedCmd : Word
  /-- T_BASE (R41, R95); 0 while IDLE (log entry 21). -/
  tBase : TimeStep
  /-- KEY (R41, R97); empty while IDLE (log entry 21). -/
  key : List Byte
  /-- WIN_I (R41): offsets of the window tried so far, 0 for offset -d (R107); 0 while IDLE (log entry 21). -/
  winI : Nat
  /-- The HMAC-SHA1 request in flight (R41, R111). -/
  hmacReq : Option HmacRequest
  /-- Whether an RNG request is in flight (R41, R118). -/
  rngReq : Bool
  /-- The level of the reset input (R147). -/
  rst : Bool
  /-- Whether the host ever made an unsupported access (R52: recorded and never cleared). -/
  unsupported : Bool
  /-- P_BASE, P_IN_CAP, P_PARTIAL_CHUNK and HMAC_SHA1 (R7); CAPS shows the capacities (R37). -/
  params : Params
  /-- The answer to the last bus access (log entry 18). -/
  busRsp : Option BusResponse
  /-- GENSECRET's byte in hand, the request index of R92 (log entry 17); 0 while IDLE (log entry 21). -/
  genI : Nat
  /-- The HMAC-SHA1 requests the current command sent, newest first: the model's record, which no
  meaning reads and the next accept empties (log entry 17). -/
  hmacSent : List HmacRequest
  /-- How many RNG requests the current command sent (log entry 17). -/
  rngSent : Nat
  /-- The input tape, the next event first (log entry 2). -/
  events : List Event
  /-- The next wall-clock samples; past its end a sample is a free value (R122, log entry 6). -/
  clockFeed : List TimeStep
  /-- The RNG's next answers; past its end an answer is a free value (R120, log entry 5). -/
  rngFeed : List RngAnswer
  /-- How many more requests the HMAC-SHA1 core answers; `none`: every one (R123, log entry 10). -/
  hmacLeft : Option Nat
  /-- How many more requests the RNG answers; `none`: every one (R123, log entry 10). -/
  rngLeft : Option Nat
  /-- How many wall-clock samples were taken (log entry 6). -/
  clockDraws : Nat
  /-- How many RNG answers were taken (log entry 5). -/
  rngDraws : Nat
  /-- How many OUT_BUF draws were taken (log entry 7). -/
  outDraws : Nat
  /-- How many resets there were, the epoch of the IN_BUF draws (log entry 8). -/
  resets : Nat
  deriving DecidableEq, Repr

/-- Why a step faults. -/
inductive Fault where
  /-- Raised by `hostAccess`: an address outside the core's window (R46, R47). The bus does not deliver it to the core.
  Safe: the model stops where another agent would answer (log entry 16). -/
  | outsideWindow
  deriving DecidableEq, Repr

/-- Why a step is refused. -/
inductive Refusal where
  /-- Raised by an arm of `exec` whose command has no meaning yet; no arm raises it. Safe: nothing can be proved of a
  refused command. -/
  | notModelled (mnemonic : String)
  deriving DecidableEq, Repr

/-- The state right after reset (R44, R147). The hidden registers and the model's own fields have no value in the spec;
their values here are DESIGN CHOICE (log entries 2, 3, 5 to 10, 12, 17, 18). -/
def State.reset : State where
  phase := .idle
  done := false
  result := false
  err := .none
  irqEn := false
  inLen := 0
  outLen := 0
  genLen := 16
  discrepancy := 1
  candLen := 0
  cand0 := 0
  cand1 := 0
  tstepLo := 0
  tstepHi := 0
  stepUsedLo := 0
  stepUsedHi := 0
  inBuf := []
  outBuf := []
  latchedCmd := 0
  tBase := 0
  key := []
  winI := 0
  hmacReq := none
  rngReq := false
  rst := false
  unsupported := false
  params := Config.defaultParams
  busRsp := none
  genI := 0
  hmacSent := []
  rngSent := 0
  events := []
  clockFeed := []
  rngFeed := []
  hmacLeft := none
  rngLeft := none
  clockDraws := 0
  rngDraws := 0
  outDraws := 0
  resets := 0

end Sys2Proof.Machine
end

