-- ==== Sys2Proof/Machine/Flags.lean ====
section
/-! DEFINITION. STATUS, its codes and the interrupt line (spec/10_state.md R25, R42; spec/60_exceptions.md R124, R136). -/

namespace Sys2Proof.Machine

/-- The code of an error (R124). -/
def errCode : Err → BitVec 4
  | .none => 0
  | .invalidLength => 1
  | .noSecureRandom => 2
  | .decodeError => 3
  | .illegalCommand => 4
  | .capacity => 5

/-- STATUS.BUSY (R25). -/
def State.busy (s : State) : Bool := decide (s.phase = .busy)

/-- The word a read of STATUS returns (R25): ERR in 7:4, bit 3 reserved, RESULT, DONE, BUSY. -/
def State.statusWord (s : State) : Word :=
  (0 : BitVec 24) ++ errCode s.err ++ BitVec.ofBool false ++ BitVec.ofBool s.result ++ BitVec.ofBool s.done
    ++ BitVec.ofBool s.busy

/-- The word a read of CTRL returns (R27). -/
def State.ctrlWord (s : State) : Word := (0 : BitVec 31) ++ BitVec.ofBool s.irqEn

/-- The interrupt output, a level with no latch of its own (R136, R137). -/
def State.irq (s : State) : Bool := s.done && s.irqEn

end Sys2Proof.Machine
end

