-- ==== Sys2Proof/Machine/Bytes.lean ====
section
/-! DEFINITION. The byte-sequence helpers of spec/00_scope.md R9, R10 and R12. -/

namespace Sys2Proof.Machine

/-- `be_bytes_N(v)`: `n` bytes, most significant first (R12). -/
def beBytes (n v : Nat) : List Byte := (List.range n).map fun i => BitVec.ofNat 8 (v >>> (8 * (n - 1 - i)))

/-- `be_uint(s)` (R12). -/
def beUint (s : List Byte) : Nat := s.foldl (fun acc b => acc * 256 + b.toNat) 0

/-- `s[i..j)` (R10). -/
def slice {α : Type} (s : List α) (i j : Nat) : List α := (s.drop i).take (j - i)

/-- `ceil(a / b)` for `b > 0`. -/
def ceilDiv (a b : Nat) : Nat := (a + b - 1) / b

/-- Bytewise XOR of byte sequences of equal length (R115). -/
def xorBytes (a b : List Byte) : List Byte := List.zipWith (· ^^^ ·) a b

/-- Byte `k` of a word, lowest first: the host's lanes are little-endian (R51). -/
def laneByte (v : Word) (k : Nat) : Byte := BitVec.ofNat 8 (v.toNat >>> (8 * k))

/-- The word with these bytes in lanes 0, 1, ..., the lanes above them 0 (R51). -/
def laneWord : List Byte → Word
  | [] => 0
  | b :: r => (laneWord r <<< 8) ||| b.setWidth 32

end Sys2Proof.Machine
end

