-- ==== Sys2Proof/Machine/Memory.lean ====
section
/-! DEFINITION. The byte store behind IN_BUF and OUT_BUF (spec/10_state.md R38, R39, R45). -/

namespace Sys2Proof.Machine

/-- The canonical form: indices strictly rising. An unlisted index reads as "not written", which no entry equals. -/
abbrev Memory.wf (m : Memory) : Prop := m.Pairwise fun a b => a.1 < b.1

/-- The byte written at index `a`, if one was. -/
def memGet : Memory → Nat → Option Byte
  | [], _ => none
  | c :: r, a => if c.1 = a then some c.2 else memGet r a

/-- `m` with byte `b` at index `a`. -/
def memSet : Memory → Nat → Byte → Memory
  | [], a, b => [(a, b)]
  | c :: r, a, b =>
    if a < c.1 then (a, b) :: c :: r
    else if a = c.1 then (a, b) :: r
    else c :: memSet r a b

/-- `m` with these bytes at indices `a`, `a + 1`, .... -/
def memSetFrom (m : Memory) (a : Nat) : List Byte → Memory
  | [] => m
  | b :: r => memSetFrom (memSet m a b) (a + 1) r

end Sys2Proof.Machine
end

