-- ==== Sys2Proof/Machine/Operands.lean ====
section
/-! DEFINITION. The operands of a command, assembled from registers and IN_BUF (spec/30_encoding.md R70). -/

namespace Sys2Proof.Machine

/-- `IN[i]`: the byte the host wrote, else the draw fixed at the last reset (R45). -/
def State.inByte (s : State) (i : Nat) : Byte := (memGet s.inBuf i).getD (Config.inBufDraw s.resets i)

/-- `IN[0 .. n)` for `n = reg[IN_LEN]` (R70). -/
def State.text (s : State) : List Byte := (List.range s.inLen.toNat).map s.inByte

/-- `cand = [C0, C1, C2, C3, C4, C5]` (R33, R34, R70). -/
def State.cand (s : State) : List Byte :=
  [s.cand0.extractLsb' 0 8, s.cand0.extractLsb' 8 8, s.cand0.extractLsb' 16 8, s.cand0.extractLsb' 24 8,
   s.cand1.extractLsb' 0 8, s.cand1.extractLsb' 8 8]

/-- `TSTEP = {reg[TSTEP_HI], reg[TSTEP_LO]}` (R35). -/
def State.tstep (s : State) : TimeStep := s.tstepHi ++ s.tstepLo

/-- `STEP_USED = {reg[STEP_USED_HI], reg[STEP_USED_LO]}` (R36). -/
def State.stepUsed (s : State) : TimeStep := s.stepUsedHi ++ s.stepUsedLo

/-- `d`, zero-extended (R70). -/
def State.disc (s : State) : Nat := s.discrepancy.toNat

/-- Whether `reg[IN_LEN] > P_IN_CAP`, the ground of CAPACITY (R128). -/
def State.overCap (s : State) : Bool := decide (s.params.inCap < s.inLen.toNat)

/-- The wall clock's next sample: the feed's, else a free value (R122). -/
def State.clockNext (s : State) : TimeStep := s.clockFeed.head?.getD (Config.clockDraw s.clockDraws)

/-- The RNG's next answer: the feed's, else a free value (R120). -/
def State.rngNext (s : State) : RngAnswer := s.rngFeed.head?.getD (Config.rngDraw s.rngDraws)

/-- The RNG's answer after `k` more: the feed's, else a free value (R120). -/
def State.rngNth (s : State) (k : Nat) : RngAnswer :=
  s.rngFeed[k]?.getD (Config.rngDraw (s.rngDraws + k))

end Sys2Proof.Machine
end

