-- ==== Sys2Proof/Machine/Sha1.lean ====
section
/-! DEFINITION. The external HMAC-SHA1 core's function: the reference of spec/44_external_cores.md R115 to R117, or an unknown total function (R114). -/

namespace Sys2Proof.Machine

/-- `ROTL_n(x)` (R117). -/
def rotl (n : Nat) (x : Word) : Word := (x <<< n) ||| (x >>> (32 - n))

/-- The padded message (R116): 0x80, zeros up to 56 modulo 64, the bit length in 8 bytes. -/
def sha1Pad (m : List Byte) : List Byte :=
  m ++ [0x80] ++ List.replicate ((119 - m.length % 64) % 64) 0 ++ beBytes 8 (8 * m.length)

/-- `n` more words of the message schedule, newest first: `W[t]` from `W[t-3]`, `W[t-8]`, `W[t-14]`, `W[t-16]` (R117). -/
def sha1Extend : Nat → List Word → List Word
  | 0, ws => ws
  | n + 1, ws =>
    sha1Extend n (rotl 1 (ws.getD 2 0 ^^^ ws.getD 7 0 ^^^ ws.getD 13 0 ^^^ ws.getD 15 0) :: ws)

/-- `W[0] .. W[79]` of one 64-byte block (R117). -/
def sha1Schedule (block : List Byte) : List Word :=
  (sha1Extend 64
    ((List.range 16).map fun t => BitVec.ofNat 32 (beUint (slice block (4 * t) (4 * t + 4)))).reverse).reverse

/-- The five chaining words H0..H4, and the working words a..e (R117). -/
structure Sha1State where
  a : Word
  b : Word
  c : Word
  d : Word
  e : Word
  deriving DecidableEq, Repr

/-- `f` of round `t` (R117). -/
def sha1F (t : Nat) (b c d : Word) : Word :=
  if t < 20 then (b &&& c) ||| (~~~b &&& d)
  else if t < 40 then b ^^^ c ^^^ d
  else if t < 60 then (b &&& c) ||| (b &&& d) ||| (c &&& d)
  else b ^^^ c ^^^ d

/-- `K` of round `t` (R117). -/
def sha1K (t : Nat) : Word :=
  if t < 20 then 0x5A827999
  else if t < 40 then 0x6ED9EBA1
  else if t < 60 then 0x8F1BBCDC
  else 0xCA62C1D6

/-- One round (R117). -/
def sha1Round (t : Nat) (w : Word) (s : Sha1State) : Sha1State :=
  { a := rotl 5 s.a + sha1F t s.b s.c s.d + s.e + sha1K t + w
    b := s.a
    c := rotl 30 s.b
    d := s.c
    e := s.d }

/-- The rounds from round `t` on, one for each remaining word of the schedule. -/
def sha1Rounds (t : Nat) : List Word → Sha1State → Sha1State
  | [], s => s
  | w :: ws, s => sha1Rounds (t + 1) ws (sha1Round t w s)

/-- The compression of one block (R117). -/
def sha1Block (h : Sha1State) (block : List Byte) : Sha1State :=
  let s := sha1Rounds 0 (sha1Schedule block) h
  { a := h.a + s.a, b := h.b + s.b, c := h.c + s.c, d := h.d + s.d, e := h.e + s.e }

/-- H0..H4 at the start (R117). -/
def sha1Init : Sha1State :=
  { a := 0x67452301, b := 0xEFCDAB89, c := 0x98BADCFE, d := 0x10325476, e := 0xC3D2E1F0 }

/-- `SHA1(M)`: 20 bytes (R116, R117). -/
def sha1 (m : List Byte) : List Byte :=
  let p := sha1Pad m
  let h := ((List.range (p.length / 64)).map fun k => slice p (64 * k) (64 * k + 64)).foldl sha1Block sha1Init
  beBytes 4 h.a.toNat ++ beBytes 4 h.b.toNat ++ beBytes 4 h.c.toNat ++ beBytes 4 h.d.toNat ++ beBytes 4 h.e.toNat

/-- `K0`: a key over 64 bytes is hashed first, then zero-padded to 64 (R115). -/
def hmacBlockKey (k : List Byte) : List Byte :=
  let k := if 64 < k.length then sha1 k else k
  k ++ List.replicate (64 - k.length) 0

/-- `HMAC_SHA1(K, m)`, the reference of R115. -/
def hmacReference (k m : List Byte) : List Byte :=
  let k0 := hmacBlockKey k
  sha1 (xorBytes k0 (List.replicate 64 0x5C) ++ sha1 (xorBytes k0 (List.replicate 64 0x36) ++ m))

/-- The function the external core computes, as the parameter says (R7, R114): 20 bytes, `D[0]` first. -/
def hmacSha1 (part : HmacPart) (k m : List Byte) : List Byte :=
  match part with
  | .reference => hmacReference k m
  | .external => beBytes 20 (Config.externalHmac k m).toNat

end Sys2Proof.Machine
end

