-- ==== Sys2Proof/Machine/Ops.lean ====
section
/-! DEFINITION. The shared operations: accept, completion and errors (spec/60_exceptions.md R132 to R135), the time step (spec/42_totp_engine.md R95), and the requests on the HMAC-SHA1 and RNG ports (spec/44_external_cores.md). -/

namespace Sys2Proof.Machine

/-- Nothing of a command is kept: the hidden registers LATCHED_CMD, T_BASE, KEY and WIN_I, and GENSECRET's index, hold no
more than after reset (R18, R41; the values are the model's choice, log entry 21). -/
def State.forget (s : State) : State := { s with latchedCmd := 0, tBase := 0, key := [], winI := 0, genI := 0 }

/-- `finish(err, result, outlen)`, the completion step (R133). Nothing of the command but its results outlives it (R18,
R41). -/
def State.finish (s : State) (e : Err) (r : Bool) (n : Nat) : State :=
  { s.forget with err := e, result := r, outLen := BitVec.ofNat 32 n, phase := .idle, done := true }

/-- `raise E`, a command's failure: `finish(E, 0, 0)` (R133). This is what stands for taking an exception: STATUS.ERR
records the cause, nothing else that the host can see changes (R134), and `irq` follows DONE (R136). -/
def State.raise (s : State) (e : Err) : State := s.finish e false 0

/-- The host's return from a completion: a write of 1 to STATUS bit 1 clears DONE and nothing else (R26, R135). -/
def State.clearDone (s : State) : State := { s with done := false }

/-- `OUT[i] <- r[i]` for every byte of `r`. -/
def State.writeOut (s : State) (r : List Byte) : State := { s with outBuf := memSetFrom s.outBuf 0 r }

/-- A step count from a wall-clock sample: `floor(W / 30)` (R95, R96). -/
def stepOfClock (w : TimeStep) : TimeStep := BitVec.ofNat 64 (w.toNat / Config.stepSeconds)

/-- T_BASE and STEP_USED take this step (R95). -/
def State.setStep (s : State) (t : TimeStep) : State :=
  { s with tBase := t, stepUsedLo := t.extractLsb' 0 32, stepUsedHi := t.extractLsb' 32 32 }

/-- One wall-clock sample is gone (R121). -/
def State.dropSample (s : State) : State :=
  { s with clockFeed := s.clockFeed.tail, clockDraws := s.clockDraws + 1 }

/-- Time-step resolution (R95): TSTEP, or one sample of the wall clock. -/
def State.resolveStep (s : State) (tsel : Bool) : State :=
  if tsel then s.setStep s.tstep
  else (s.dropSample).setStep (stepOfClock s.clockNext)

/-- The first half of accept (R132): the word is latched, the core is BUSY, the last results are gone, OUT_BUF is
unspecified, no request of this command has been sent, and nothing of an earlier command is left (R18). -/
def State.latch (s : State) (w : Word) : State :=
  { s.forget with
    latchedCmd := w, phase := .busy, done := false, result := false, err := .none, outLen := 0, outBuf := []
    hmacReq := none, rngReq := false, hmacSent := [], rngSent := 0 }

/-- The accept step (R132, with the time step of R95 after checks 1 and 2 of R130). -/
def State.accept (s : State) (w : Word) : State :=
  match decodeWord w with
  | .ok (.compute tsel) => if s.overCap then s.latch w else (s.latch w).resolveStep tsel
  | .ok (.verify tsel) => if s.overCap then s.latch w else (s.latch w).resolveStep tsel
  | .ok (.decode _) => s.latch w
  | .ok (.encode _) => s.latch w
  | .ok (.gensecret _) => s.latch w
  | .error _ => s.latch w

/-- The body of an illegal word: it reads no operand and completes with ILLEGAL_COMMAND (R129). -/
def completeIllegal (s : State) : State := s.raise .illegalCommand

/-- The core sends a request on the HMAC-SHA1 port, unless this very request is already in flight (R111). -/
def State.sendHmac (s : State) (t : TimeStep) : State :=
  if s.hmacReq.isSome then s
  else { s with hmacReq := some ⟨s.key, t⟩, hmacSent := ⟨s.key, t⟩ :: s.hmacSent }

/-- The HMAC-SHA1 core answers the request in flight. -/
def State.hmacAnswered (s : State) : State :=
  { s with hmacReq := none, hmacLeft := s.hmacLeft.map (· - 1) }

/-- A digest of KEY and step `t` (R98, R99, R111): none while the external core is silent (R123). -/
def State.askHmac (s : State) (t : TimeStep) : Option (List Byte) × State :=
  if s.hmacLeft = some 0 then (none, s.sendHmac t)
  else (some (hmacSha1 s.params.hmac s.key (beBytes Config.counterBytes t.toNat)), (s.sendHmac t).hmacAnswered)

/-- The core sends a request on the RNG port, unless one is already in flight (R118). -/
def State.sendRng (s : State) : State :=
  if s.rngReq then s else { s with rngReq := true, rngSent := s.rngSent + 1 }

/-- The RNG answers the request in flight. -/
def State.rngAnswered (s : State) : State :=
  { s with rngReq := false, rngFeed := s.rngFeed.tail, rngDraws := s.rngDraws + 1, rngLeft := s.rngLeft.map (· - 1) }

/-- One answer of the RNG (R118 to R120): none while it is silent (R123). -/
def State.askRng (s : State) : Option RngAnswer × State :=
  if s.rngLeft = some 0 then (none, s.sendRng)
  else (some s.rngNext, s.sendRng.rngAnswered)

end Sys2Proof.Machine
end

