-- ==== Sys2Proof/Machine/Bus.lean ====
section
/-! DEFINITION. The host bus: the register map, the window and its accesses (spec/10_state.md R20 to R39, spec/20_memory.md). -/

namespace Sys2Proof.Machine

/-- The registers of the map (R20). -/
inductive Reg where
  | cmd | status | ctrl | inLen | outLen | genLen | discrepancy | candLen | cand0 | cand1
  | tstepLo | tstepHi | stepUsedLo | stepUsedHi | caps
  deriving DecidableEq, Repr

/-- `off(REG)` (R20). -/
def regOffset : Reg → Nat
  | .cmd => 0x000
  | .status => 0x004
  | .ctrl => 0x008
  | .inLen => 0x00C
  | .outLen => 0x010
  | .genLen => 0x014
  | .discrepancy => 0x018
  | .candLen => 0x01C
  | .cand0 => 0x020
  | .cand1 => 0x024
  | .tstepLo => 0x028
  | .tstepHi => 0x02C
  | .stepUsedLo => 0x030
  | .stepUsedHi => 0x034
  | .caps => 0x038

/-- The registers in the order of the map. -/
def allRegs : List Reg :=
  [.cmd, .status, .ctrl, .inLen, .outLen, .genLen, .discrepancy, .candLen, .cand0, .cand1,
   .tstepLo, .tstepHi, .stepUsedLo, .stepUsedHi, .caps]

/-- The register at an offset; none at a reserved one (R20, R47). -/
def regAt (off : Nat) : Option Reg := allRegs.find? fun r => regOffset r == off

/-- CAPS: P_OUT_CAP over P_IN_CAP (R37). -/
def capsWord (p : Params) : Word := BitVec.ofNat 16 p.outCap ++ BitVec.ofNat 16 p.inCap

/-- What a 32-bit read of a register returns (R20 to R37); CMD reads 0. -/
def State.readReg (s : State) : Reg → Word
  | .cmd => 0
  | .status => s.statusWord
  | .ctrl => s.ctrlWord
  | .inLen => s.inLen
  | .outLen => s.outLen
  | .genLen => s.genLen
  | .discrepancy => s.discrepancy.setWidth 32
  | .candLen => s.candLen
  | .cand0 => s.cand0
  | .cand1 => s.cand1.setWidth 32
  | .tstepLo => s.tstepLo
  | .tstepHi => s.tstepHi
  | .stepUsedLo => s.stepUsedLo
  | .stepUsedHi => s.stepUsedHi
  | .caps => capsWord s.params

/-- A write to an operand register (R28, R30 to R35); no other register changes. -/
def State.writeOperand (s : State) (r : Reg) (v : Word) : State :=
  match r with
  | .inLen => { s with inLen := v }
  | .genLen => { s with genLen := v }
  | .discrepancy => { s with discrepancy := v.setWidth 8 }
  | .candLen => { s with candLen := v }
  | .cand0 => { s with cand0 := v }
  | .cand1 => { s with cand1 := v.setWidth 16 }
  | .tstepLo => { s with tstepLo := v }
  | .tstepHi => { s with tstepHi := v }
  | .cmd => s
  | .status => s
  | .ctrl => s
  | .outLen => s
  | .stepUsedLo => s
  | .stepUsedHi => s
  | .caps => s

/-- A 32-bit write to a register: CMD accepts a command while IDLE (R132), STATUS clears DONE (R26), CTRL is written in
either phase (R27), an operand register only while IDLE (R57), a read-only one never (R55). -/
def State.writeReg (s : State) (r : Reg) (v : Word) : State :=
  match r with
  | .cmd => if s.busy then s else s.accept v
  | .status => if v.getLsbD 1 && s.done then s.clearDone else s
  | .ctrl => { s with irqEn := v.getLsbD 0 }
  | .inLen => if s.busy then s else s.writeOperand .inLen v
  | .genLen => if s.busy then s else s.writeOperand .genLen v
  | .discrepancy => if s.busy then s else s.writeOperand .discrepancy v
  | .candLen => if s.busy then s else s.writeOperand .candLen v
  | .cand0 => if s.busy then s else s.writeOperand .cand0 v
  | .cand1 => if s.busy then s else s.writeOperand .cand1 v
  | .tstepLo => if s.busy then s else s.writeOperand .tstepLo v
  | .tstepHi => if s.busy then s else s.writeOperand .tstepHi v
  | .outLen => s
  | .stepUsedLo => s
  | .stepUsedHi => s
  | .caps => s

/-- A region of the window (R47). -/
inductive Region where
  | registers
  | inWindow
  | outWindow
  | reserved
  deriving DecidableEq, Repr

/-- The region of an offset (R47). -/
def regionOf (off : Nat) : Region :=
  if off < 0x1000 then .registers
  else if off < 0x2000 then .inWindow
  else if off < 0x3000 then .outWindow
  else .reserved

/-- 8 bits anywhere, 16 bits at even offsets, 32 bits at multiples of 4 (R49). -/
def naturallyAligned (off n : Nat) : Bool := (n == 1 || n == 2 || n == 4) && off % n == 0

/-- Whether the core accepts a read of `n` bytes at an offset (R48 to R50, R52). -/
def readSupported (off n : Nat) : Bool :=
  match regionOf off with
  | .registers => n == 4 && off % 4 == 0
  | .inWindow => naturallyAligned off n
  | .outWindow => naturallyAligned off n
  | .reserved => naturallyAligned off n

/-- Whether the core accepts a write: a write to the OUT_BUF window is never unsupported (R50), but for one of 64 bits or
wider (R52); log entry 13. -/
def writeSupported (off n : Nat) : Bool :=
  match regionOf off with
  | .registers => n == 4 && off % 4 == 0
  | .inWindow => naturallyAligned off n
  | .outWindow => decide (n < 8)
  | .reserved => naturallyAligned off n

/-- Whether OUT_BUF byte `i` is defined: the core is IDLE, the last command did not fail, and `i` is below OUT_LEN (R39). -/
def State.outDefined (s : State) (i : Nat) : Bool :=
  !s.busy && decide (s.err = .none) && decide (i < s.outLen.toNat)

/-- The byte a read of OUT_BUF byte `i` returns; an unspecified one is draw `n` (R39). -/
def State.outByte (s : State) (i n : Nat) : Byte :=
  if s.outDefined i then (memGet s.outBuf i).getD (Config.outBufDraw n) else Config.outBufDraw n

/-- The byte at window offset `off` as lane `k` of a read sees it: bytes past a buffer read 0 (R53). -/
def State.windowByte (s : State) (off k : Nat) : Byte :=
  match regionOf off with
  | .registers => 0
  | .inWindow => if off - 0x1000 < s.params.inCap then s.inByte (off - 0x1000) else 0
  | .outWindow => if off - 0x2000 < s.params.outCap then s.outByte (off - 0x2000) (s.outDraws + k) else 0
  | .reserved => 0

/-- The data of a supported read (R20, R51, R53). -/
def State.readData (s : State) (off n : Nat) : Word :=
  match regionOf off with
  | .registers => ((regAt off).map s.readReg).getD 0
  | .inWindow => laneWord ((List.range n).map fun k => s.windowByte (off + k) k)
  | .outWindow => laneWord ((List.range n).map fun k => s.windowByte (off + k) k)
  | .reserved => laneWord ((List.range n).map fun k => s.windowByte (off + k) k)

/-- The core's answer to an access stands on the bus. -/
def State.respond (s : State) (data : Word) (error : Bool) : State := { s with busRsp := some ⟨data, error⟩ }

/-- An unsupported access: no effect but the record, read 0, error response (R52). -/
def State.unsupportedAccess (s : State) : State := { s with unsupported := true }.respond 0 true

/-- The draws that lanes 0 to 3 of a read of the OUT_BUF window may take are used up, so that the next read draws afresh
(R39). -/
def State.dropOutDraws (s : State) (off : Nat) : State :=
  if regionOf off = .outWindow then { s with outDraws := s.outDraws + 4 } else s

/-- `MemRead(off, n)` (R47 to R54). -/
def State.busRead (s : State) (off n : Nat) : State :=
  if readSupported off n then (s.dropOutDraws off).respond (s.readData off n) false
  else s.unsupportedAccess

/-- One IN_BUF byte write; past the buffer it is ignored (R49, R53). -/
def State.writeInByte (s : State) (i : Nat) (b : Byte) : State :=
  if i < s.params.inCap then { s with inBuf := memSet s.inBuf i b } else s

/-- The IN_BUF bytes `i .. i+n-1` take the lanes of `v`, lane `k` first (R51). -/
def State.writeInLanes (s : State) (i : Nat) (v : Word) : Nat → State
  | 0 => s
  | n + 1 => (s.writeInLanes i v n).writeInByte (i + n) (laneByte v n)

/-- The effect of a supported write (R47 to R57). -/
def State.writeEffect (s : State) (off n : Nat) (v : Word) : State :=
  match regionOf off with
  | .registers =>
    match regAt off with
    | some r => s.writeReg r v
    | none => s
  | .inWindow => if s.busy then s else s.writeInLanes (off - 0x1000) v n
  | .outWindow => s
  | .reserved => s

/-- `MemWrite(off, n, v)` (R47 to R57). -/
def State.busWrite (s : State) (off n : Nat) (v : Word) : State :=
  if writeSupported off n then (s.writeEffect off n v).respond 0 false
  else s.unsupportedAccess

/-- The offset of an address in the window at P_BASE (R46, R47). -/
def windowOffset (p : Params) (addr : Nat) : Option Nat :=
  if p.pBase ≤ addr ∧ addr < p.pBase + 0x4000 then some (addr - p.pBase) else none

/-- One bus access of the host (R60); outside the window it is not the core's (R46, log entry 16). -/
def hostAccess (a : Access) (s : State) : Host.Outcome State Fault Refusal :=
  match a with
  | .read addr n =>
    match windowOffset s.params addr with
    | some off => .next (s.busRead off n)
    | none => .fault .outsideWindow
  | .write addr n v =>
    match windowOffset s.params addr with
    | some off => .next (s.busWrite off n v)
    | none => .fault .outsideWindow

end Sys2Proof.Machine
end

