-- ==== Sys2Proof/Machine/Base32.lean ====
section
/-! DEFINITION. The Base32 codec and the commands DECODE and ENCODE (spec/40_base32.md). -/

namespace Sys2Proof.Machine

/-- The pad symbol `=` (R40). -/
def padByte : Byte := 0x3D

/-- `ALPHABET[0..31]`, the data symbols A to Z and 2 to 7 in order (R40, R77). -/
def alphabet : List Byte :=
  [0x41, 0x42, 0x43, 0x44, 0x45, 0x46, 0x47, 0x48, 0x49, 0x4A, 0x4B, 0x4C, 0x4D, 0x4E, 0x4F, 0x50,
   0x51, 0x52, 0x53, 0x54, 0x55, 0x56, 0x57, 0x58, 0x59, 0x5A, 0x32, 0x33, 0x34, 0x35, 0x36, 0x37]

/-- `ascii(ALPHABET[v])` for `v < 32`. -/
def symbol (v : Nat) : Byte := alphabet.getD v 0

/-- `sym_value(b)` (R78). -/
def symValue (b : Byte) : Option Nat :=
  if 0x41 ≤ b.toNat ∧ b.toNat ≤ 0x5A then some (b.toNat - 0x41)
  else if 0x32 ≤ b.toNat ∧ b.toNat ≤ 0x37 then some (b.toNat - 0x32 + 26)
  else none

/-- The value of symbol `j` of a chunk, 0 past its end (R82). -/
def chunkSym (chunk : List Byte) (j : Nat) : Nat :=
  match chunk[j]? with
  | some b => (symValue b).getD 0
  | none => 0

/-- The 40-bit `acc` of a chunk: symbol `j` in bits `39-5j : 35-5j` (R82). -/
def chunkAcc (chunk : List Byte) : BitVec 40 :=
  (List.range 8).foldl (fun acc j => (acc <<< 5) ||| BitVec.ofNat 40 (chunkSym chunk j)) 0

/-- `bytes_c` of a chunk (R82), or the whole bytes of its real symbols (R90). -/
def chunkBytes (p : PartialChunk) (chunk : List Byte) : List Byte :=
  match p with
  | .zeroFillFive => beBytes 5 (chunkAcc chunk).toNat
  | .rfc4648Discard => (beBytes 5 (chunkAcc chunk).toNat).take (5 * chunk.length / 8)

/-- `N`, the number of `=` in the whole input (R79). -/
def padCount (s : List Byte) : Nat := s.count padByte

/-- The chunks of the stripped text, decoded and joined; every byte is kept (R82, R83). -/
def decodeChunks (p : PartialChunk) (t : List Byte) : List Byte :=
  (List.range (ceilDiv t.length 8)).flatMap fun c => chunkBytes p (slice t (8 * c) (min (8 * c + 8) t.length))

/-- `base32_decode(s)` (R84); `none` is DecodeError. -/
def base32Decode (p : PartialChunk) (s : List Byte) : Option (List Byte) :=
  let n := s.length
  let pads := padCount s
  if n = 0 then some []
  else if pads ∉ Config.validPadCounts then none
  else if slice s (n - pads) n ≠ List.replicate pads padByte then none
  else
    let t := slice s 0 (n - pads)
    if t.any fun b => (symValue b).isNone then none
    else some (decodeChunks p t)

/-- `q`, the data symbols of a group of `r` bytes (R86). -/
def groupSyms (r : Nat) : Nat := [0, 2, 4, 5, 7, 8].getD r 0

/-- One group of 1 to 5 bytes as 8 characters (R86). -/
def encodeGroup (grp : List Byte) : List Byte :=
  let acc := beUint (grp ++ List.replicate (5 - grp.length) 0)
  let q := groupSyms grp.length
  (List.range q).map (fun j => symbol ((acc >>> (35 - 5 * j)) &&& 0x1F)) ++ List.replicate (8 - q) padByte

/-- `base32_encode(b)` (R86). -/
def base32Encode (b : List Byte) : List Byte :=
  (List.range (ceilDiv b.length 5)).flatMap fun g => encodeGroup (slice b (5 * g) (min (5 * g + 5) b.length))

/-- The secret or text in IN_BUF, decoded (R85, R97); `none` is DecodeError. -/
def State.decodedText (s : State) : Option (List Byte) := base32Decode s.params.partialChunk s.text

/-- DECODE (R85). -/
def execDecode (s : State) : Host.Outcome State Fault Refusal :=
  if s.overCap then .next (s.raise .capacity)
  else
    match s.decodedText with
    | none => .next (s.raise .decodeError)
    | some r => .next ((s.writeOut r).finish .none false r.length)

/-- ENCODE (R87). -/
def execEncode (s : State) : Host.Outcome State Fault Refusal :=
  if s.overCap then .next (s.raise .capacity)
  else
    let e := base32Encode s.text
    .next ((s.writeOut e).finish .none false e.length)

end Sys2Proof.Machine
end

