-- ==== Sys2Proof/Machine/Secret.lean ====
section
/-! DEFINITION. The secret generator and the command GENSECRET (spec/41_secret_generator.md). -/

namespace Sys2Proof.Machine

/-- The symbol of a random byte: its low 5 bits index the alphabet (R93). -/
def maskSymbol (b : Byte) : Byte := symbol (b &&& Config.genMask).toNat

/-- Byte `genI` of the secret is there (R94: `OUT[i] <- ...`, then the next `i`). -/
def State.putSymbol (s : State) (b : Byte) : State :=
  { s with outBuf := memSet s.outBuf s.genI (maskSymbol b), genI := s.genI + 1 }

/-- The loop of R94 over the `n` bytes that are left: it ends at the end, at the first UNAVAILABLE (R92), or, still BUSY,
with a request in flight that the RNG does not answer (R123). -/
def genLoop : Nat → State → State
  | 0, s => s.finish .none false s.genI
  | n + 1, s =>
    match s.askRng with
    | (none, s') => s'
    | (some .unavailable, s') => s'.raise .noSecureRandom
    | (some (.byte b), s') => genLoop n (s'.putSymbol b)

/-- Where the loop stands: at byte 0, or at the byte whose request is still in flight. -/
def State.genStart (s : State) : Nat := if s.rngReq then s.genI else 0

/-- GENSECRET stands at the byte it has to do next (R94). -/
def State.startGen (s : State) : State := { s with genI := s.genStart }

/-- Whether `reg[GEN_LEN]` is in its bounds (R91). -/
def State.genLenOk (s : State) : Bool :=
  decide (Config.genMin ≤ s.genLen.toNat) && decide (s.genLen.toNat ≤ Config.genMax)

/-- GENSECRET (R94). -/
def execGensecret (s : State) : Host.Outcome State Fault Refusal :=
  if s.genLenOk then .next (genLoop (s.genLen.toNat - s.genStart) s.startGen)
  else .next (s.raise .invalidLength)

end Sys2Proof.Machine
end

