-- ==== Sys2Proof/Machine/Totp.lean ====
section
/-! DEFINITION. The TOTP engine and the command COMPUTE (spec/42_totp_engine.md). -/

namespace Sys2Proof.Machine

/-- The 31-bit value of a digest by dynamic truncation (R100). -/
def truncateDigest (d : List Byte) : Nat :=
  let off := ((d.getD 19 0) &&& (0x0F : Byte)).toNat
  beUint (slice d off (off + 4)) &&& Config.truncMask

/-- Six ASCII digits of `c`, zero-padded on the left (R101). -/
def renderCode (c : Nat) : List Byte :=
  (List.range Config.codeDigits).map fun i => BitVec.ofNat 8 (0x30 + c / 10 ^ (5 - i) % 10)

/-- The code of a digest (R100, R101). -/
def codeOfDigest (d : List Byte) : List Byte := renderCode (truncateDigest d % Config.codeModulus)

/-- `totp_code(KEY, T)` (R101). -/
def totpCode (part : HmacPart) (key : List Byte) (t : TimeStep) : List Byte :=
  codeOfDigest (hmacSha1 part key (beBytes Config.counterBytes t.toNat))

/-- The decoded secret becomes KEY (R97). -/
def State.setKey (s : State) (k : List Byte) : State := { s with key := k }

/-- The end of COMPUTE, once the key is there: one HMAC-SHA1 request for T_BASE, then the code (R99 to R102). -/
def computeWithKey (s : State) : State :=
  match s.askHmac s.tBase with
  | (none, s') => s'
  | (some d, s') => (s'.writeOut (codeOfDigest d)).finish .none false Config.codeDigits

/-- COMPUTE (R102), on the step that accept resolved (R95). -/
def execCompute (s : State) : Host.Outcome State Fault Refusal :=
  if s.overCap then .next (s.raise .capacity)
  else
    match s.decodedText with
    | none => .next (s.raise .decodeError)
    | some k => .next (computeWithKey (s.setKey k))

end Sys2Proof.Machine
end

