-- ==== Sys2Proof/Machine/Verify.lean ====
section
/-! DEFINITION. The verifier and the command VERIFY (spec/43_verifier.md). -/

namespace Sys2Proof.Machine

/-- The comparison: the lengths, then the OR of all byte XORs with no early exit (R103). -/
def ctEqual (a b : List Byte) : Bool :=
  if a.length ≠ b.length then false
  else (List.zip a b).foldl (fun acc p => acc ||| (p.1 ^^^ p.2)) (0 : Byte) == 0

/-- `T_o = (T_BASE + o) mod 2^64` for the offset `o = i - d` (R107). -/
def windowStep (tBase : TimeStep) (d i : Nat) : TimeStep := tBase + BitVec.ofInt 64 ((i : Int) - (d : Int))

/-- The window's next offset (R107). -/
def State.nextOffset (s : State) : State := { s with winI := s.winI + 1 }

/-- The loop of R110 over the `n` offsets that are left, from offset WIN_I on: it ends at the first match (R108), at the
end of the window, or, still BUSY, with a request in flight that is not answered (R123). -/
def verifyLoop : Nat → State → State
  | 0, s => s.finish .none false 0
  | n + 1, s =>
    match s.askHmac (windowStep s.tBase s.disc s.winI) with
    | (none, s') => s'
    | (some d, s') =>
      if ctEqual (codeOfDigest d) s'.cand then s'.finish .none true 0
      else verifyLoop n s'.nextOffset

/-- Where the window stands: at offset -d, or at the offset whose request is still in flight. -/
def State.winStart (s : State) : Nat := if s.hmacReq.isSome then s.winI else 0

/-- The number of offsets in the window (R107). -/
def State.windowSize (s : State) : Nat := 2 * s.disc + 1

/-- The decoded secret is KEY and the window stands at its start (R97, R107). -/
def State.startWindow (s : State) (k : List Byte) : State := { s with key := k, winI := s.winStart }

/-- VERIFY (R110), on the step that accept resolved (R95). -/
def execVerify (s : State) : Host.Outcome State Fault Refusal :=
  if s.overCap then .next (s.raise .capacity)
  else if s.candLen ≠ 6 then .next (s.finish .none false 0)
  else
    match s.decodedText with
    | none => .next (s.finish .none false 0)
    | some k => .next (verifyLoop (s.windowSize - s.winStart) (s.startWindow k))

end Sys2Proof.Machine
end

