-- ==== Sys2Proof/Machine/Dispatch.lean ====
section
/-! DEFINITION. One arm per command. TSEL is read at accept (spec/42_totp_engine.md R95), so no body reads it. -/

namespace Sys2Proof.Machine

def exec (i : Instr) (s : State) : Host.Outcome State Fault Refusal :=
  match i with
  | .decode _ => Sys2Proof.Machine.execDecode s
  | .encode _ => Sys2Proof.Machine.execEncode s
  | .gensecret _ => Sys2Proof.Machine.execGensecret s
  | .compute _ => Sys2Proof.Machine.execCompute s
  | .verify _ => Sys2Proof.Machine.execVerify s

end Sys2Proof.Machine
end

