-- ==== Sys2Proof/Machine/Turn.lean ====
section
/-! DEFINITION. What one step does around a command: the core's turn, the host's polling, and reset (spec/70_reset_and_hazards.md). -/

namespace Sys2Proof.Machine

/-- The core's turn: while BUSY the accepted word runs to its completion (R133), an illegal one to ILLEGAL_COMMAND (R129).
IDLE is the rest state (R145), and while `rst` is high nothing runs (R147). -/
def coreTurn (s : State) : Host.Outcome State Fault Refusal :=
  if s.rst then .next s
  else
    match s.phase with
    | .idle => .next s
    | .busy =>
      match decodeWord s.latchedCmd with
      | .ok i => exec i s
      | .error _ => .next (completeIllegal s)

/-- The reset state of this core (R147, R148): every register at its reset value, no request outstanding, IN_BUF drawn anew.
What is not the core's stays: the parameters, the tape, the outside's feeds, the record of unsupported accesses (log
entry 12). -/
def State.resetCore (s : State) : State :=
  { State.reset with
    rst := s.rst
    unsupported := s.unsupported
    params := s.params
    events := s.events
    clockFeed := s.clockFeed
    rngFeed := s.rngFeed
    hmacLeft := s.hmacLeft
    rngLeft := s.rngLeft
    clockDraws := s.clockDraws
    rngDraws := s.rngDraws
    outDraws := s.outDraws
    resets := s.resets + 1 }

/-- The `rst` pin takes a level: the core is in its reset state while it is high and when it falls (R147). -/
def State.setRst (s : State) (level : Bool) : State :=
  if level || s.rst then { s with rst := level }.resetCore else s

/-- The next event of the tape is this one. -/
def State.pushEvent (s : State) (e : Event) : State := { s with events := e :: s.events }

/-- One STATUS read of a polling host (R74 `wait`): it ends when DONE reads 1, else it polls again, after the core's turn once
its polls in vain are used up. -/
def State.poll (s : State) (polls : Nat) : State :=
  let s' := s.busRead (regOffset .status) 4
  if s.rst then s.pushEvent (.wait polls)
  else if s.done then s'
  else
    match polls with
    | 0 => (s'.pushEvent (.wait 0)).pushEvent .coreTurn
    | k + 1 => s'.pushEvent (.wait k)

/-- One event of the tape, already taken off it. While `rst` is high the core answers no access (R147, log entry 15). -/
def takeEvent (e : Event) (s : State) : Host.Outcome State Fault Refusal :=
  match e with
  | .access a => if s.rst then .next { s with busRsp := none } else hostAccess a s
  | .wait polls => .next (s.poll polls)
  | .coreTurn => coreTurn s
  | .rst level => .next (s.setRst level)
  | .hmacAnswers k => .next { s with hmacLeft := k }
  | .rngAnswers k => .next { s with rngLeft := k }
  | .strayResponse _ => .next s

/-- `s` with the next event taken off the tape. -/
def State.dropEvent (s : State) : State := { s with events := s.events.tail }

/-- The core as it stands when a host's CMD write of `w` has been accepted and its body is next to run: `rst` low, IDLE, nothing
on the tape, then the accept step (R132). -/
def State.loadCommand (s : State) (w : Word) : State :=
  { s with rst := false, phase := .idle, events := [] }.accept w

end Sys2Proof.Machine
end

