-- ==== Sys2Proof/Machine/Step.lean ====
section
/-! DEFINITION. One step: the next event of the input tape, or with an empty tape the core's turn (log entry 2). -/

namespace Sys2Proof.Machine

/-- One step (spec/20_memory.md R56, R60: accesses, accepts and completions in one total order). -/
def step (s : State) : Host.Outcome State Fault Refusal :=
  match s.events with
  | [] => coreTurn s
  | e :: _ => takeEvent e s.dropEvent

/-- `s` with the command of `nbits` bits `w` accepted, so that the very next step runs its body (log entry 2). -/
def State.withFetchWord (s : State) (nbits w : Nat) : State :=
  s.loadCommand (BitVec.ofNat 32 (w % 2 ^ nbits))

end Sys2Proof.Machine
end

