-- ==== Sys2Proof/Machine/HostCall.lean ====
section
/-! DEFINITION. The host's lines and pseudo-operations, and the assembler that turns them into bus accesses (spec/30_encoding.md R74 to R76). -/

namespace Sys2Proof.Machine

/-- A line of a host program (R74). -/
inductive HostLine where
  | write (r : Reg) (v : Word)
  | read (r : Reg)
  | writeb (i : Nat) (b : Byte)
  | writew (i : Nat) (v : Word)
  | readb (i : Nat)
  | readw (i : Nat)
  | cmd (i : Instr)
  | wait (polls : Nat)
  deriving DecidableEq, Repr

/-- The bus access of a line, or its polling loop (R74). R74 gives `writew IN+i` for `i` a multiple of 4 and does not say what
an assembler does with another `i`, nor with an `i` outside the buffer: DESIGN CHOICE, log entry 33, that every line is
expanded as it stands, so that a misaligned `writew` is an unsupported access. -/
def HostLine.event (p : Params) : HostLine → Event
  | .write r v => .access (.write (p.pBase + regOffset r) 4 v)
  | .read r => .access (.read (p.pBase + regOffset r) 4)
  | .writeb i b => .access (.write (p.pBase + 0x1000 + i) 1 (b.setWidth 32))
  | .writew i v => .access (.write (p.pBase + 0x1000 + i) 4 v)
  | .readb i => .access (.read (p.pBase + 0x2000 + i) 1)
  | .readw i => .access (.read (p.pBase + 0x2000 + i) 4)
  | .cmd i => .access (.write (p.pBase + regOffset .cmd) 4 (encode i))
  | .wait polls => .wait polls

/-- Word `k` of a string, its lowest index in the lowest lane, zero above the string's end (R75). -/
def wordOfString (s : List Byte) (k : Nat) : Word := laneWord (slice s (4 * k) (4 * k + 4))

/-- `writes IN, "s"` (R75). R76's refusal of a string longer than P_IN_CAP stands with the pseudo-operations, and the spec does
not say whether a bare `writes` of one is refused: DESIGN CHOICE, log entry 34, that it is expanded at any length, its IN_LEN
modulo 2^32. -/
def writesIn (s : List Byte) : List HostLine :=
  ((List.range (ceilDiv s.length 4)).map fun k => HostLine.writew (4 * k) (wordOfString s k))
    ++ [.write .inLen (BitVec.ofNat 32 s.length)]

/-- A pseudo-operation with the arguments of its source call; an absent argument takes the call's default (R76). -/
inductive HostCall where
  | decodeBase32 (text : List Byte)
  | encodeBase32 (bytes : List Byte)
  | generateSecret (byteLength : Option Int)
  | computeCode (secret : List Byte) (timeStep : Option Int)
  | verifyCode (secret code : List Byte) (discrepancy timeStep : Option Int)
  deriving DecidableEq, Repr

/-- Why the assembler refuses a form: the core has no encoding for it (R76, U18). -/
inductive AsmReject where
  /-- A string longer than P_IN_CAP, or a byte list (log entry 30). -/
  | stringTooLong (n : Nat)
  /-- `L` outside 0..2^32-1. -/
  | lengthOutOfRange (l : Int)
  /-- `d` outside 0..255. -/
  | discrepancyOutOfRange (d : Int)
  /-- `t` outside 0..2^64-1. -/
  | stepOutOfRange (t : Int)
  /-- A candidate whose length CAND_LEN cannot hold (log entry 22). -/
  | candidateTooLong (n : Nat)
  deriving DecidableEq, Repr

/-- A string the assembler takes (R76); the bytes of `encodeBase32` are held to the same bound (log entry 30). -/
def checkString (p : Params) (s : List Byte) : Except AsmReject Unit :=
  if s.length ≤ p.inCap then .ok () else .error (.stringTooLong s.length)

/-- A secret length the assembler takes (R76). -/
def checkLength (l : Int) : Except AsmReject Word :=
  if 0 ≤ l ∧ l < 2 ^ 32 then .ok (BitVec.ofInt 32 l) else .error (.lengthOutOfRange l)

/-- A discrepancy the assembler takes (R76). -/
def checkDiscrepancy (d : Int) : Except AsmReject Word :=
  if 0 ≤ d ∧ d ≤ 255 then .ok (BitVec.ofInt 32 d) else .error (.discrepancyOutOfRange d)

/-- A time step the assembler takes (R76). -/
def checkStep (t : Int) : Except AsmReject TimeStep :=
  if 0 ≤ t ∧ t < 2 ^ 64 then .ok (BitVec.ofInt 64 t) else .error (.stepOutOfRange t)

/-- A candidate the assembler takes. R76 refuses a string longer than P_IN_CAP and does not say whether the candidate of
`verifyCode` is one. DESIGN CHOICE, log entry 22: it is not, since it does not go into IN_BUF; a candidate is refused only
when CAND_LEN cannot hold its length. -/
def checkCandidate (c : List Byte) : Except AsmReject Unit :=
  if c.length < 2 ^ 32 then .ok () else .error (.candidateTooLong c.length)

/-- The two TSTEP writes and the TSEL bit of a call with an explicit step; neither without one (R76). -/
def stepLines (t : Option Int) : Except AsmReject (List HostLine × Bool) :=
  match t with
  | none => .ok ([], false)
  | some t => (checkStep t).map fun w =>
      ([.write .tstepLo (w.extractLsb' 0 32), .write .tstepHi (w.extractLsb' 32 32)], true)

/-- The byte writes of `encodeBase32` (R76). -/
def byteLines (b : List Byte) : List HostLine :=
  ((List.range b.length).map fun i => HostLine.writeb i (b.getD i 0)) ++ [.write .inLen (BitVec.ofNat 32 b.length)]

/-- The candidate writes: bytes past the candidate's end are 0x00 (R76). -/
def candidateLines (c : List Byte) : List HostLine :=
  [.write .candLen (BitVec.ofNat 32 c.length), .write .cand0 (laneWord (slice c 0 4)),
   .write .cand1 (laneWord (slice c 4 6))]

/-- The expansion of a pseudo-operation, its polls in vain given (R76). R76 refuses a string longer than P_IN_CAP and does not
say whether the byte list of `encodeBase32` is one: DESIGN CHOICE that it is refused too, log entry 30; nor whether the
candidate of `verifyCode` is one: DESIGN CHOICE that it is not, log entry 22. -/
def assemble (p : Params) (polls : Nat) : HostCall → Except AsmReject (List HostLine)
  | .decodeBase32 t => do
    checkString p t
    return writesIn t ++ [.cmd (.decode false), .wait polls]
  | .encodeBase32 b => do
    checkString p b
    return byteLines b ++ [.cmd (.encode false), .wait polls]
  | .generateSecret l => do
    let w ← checkLength (l.getD Config.genDefault)
    return [.write .genLen w, .cmd (.gensecret false), .wait polls]
  | .computeCode s t => do
    checkString p s
    let (ls, tsel) ← stepLines t
    return writesIn s ++ ls ++ [.cmd (.compute tsel), .wait polls]
  | .verifyCode s c d t => do
    checkString p s
    checkCandidate c
    let w ← checkDiscrepancy (d.getD Config.discrepancyDefault)
    let (ls, tsel) ← stepLines t
    return writesIn s ++ candidateLines c ++ [.write .discrepancy w] ++ ls ++ [.cmd (.verify tsel), .wait polls]

/-- The bus encoding of a host program (R74). -/
def programEvents (p : Params) (ls : List HostLine) : List Event := ls.map (HostLine.event p)

/-- The bytes `OUT[0 .. OUT_LEN)` a host reads after a completion without error (R39, R76). -/
def State.output (s : State) : List Byte := (List.range s.outLen.toNat).map fun i => s.outByte i 0

end Sys2Proof.Machine
end

