-- ==== Sys2Proof/Machine/Ports.lean ====
section
/-! DEFINITION. The signals the core drives on its ports, as views of the state (spec/44_external_cores.md R111, R118; spec/60_exceptions.md R136). -/

namespace Sys2Proof.Machine

/-- `hmac_req_valid`: a request is in flight on the HMAC-SHA1 port (R111). R111 suggests `hmac_req_ready` beside it and gives
no handshake: DESIGN CHOICE that there is no ready input and that this signal and the payload below stay driven from the
sending of the request until its response is taken, log entry 32. -/
def State.hmacReqValid (s : State) : Bool := s.hmacReq.isSome

/-- `hmac_key_len[15:0]` of the request in flight (R111). Without one the spec is silent: DESIGN CHOICE 0, log entry 31. -/
def State.hmacKeyLen (s : State) : BitVec 16 := BitVec.ofNat 16 ((s.hmacReq.map fun r => r.key.length).getD 0)

/-- The key byte stream of the request in flight, in index order (R111). Without one the spec is silent: DESIGN CHOICE the
empty stream, log entry 31. -/
def State.hmacKeyData (s : State) : List Byte := (s.hmacReq.map fun r => r.key).getD []

/-- `hmac_msg[63:0]`, `be_uint` of the 8-byte message in flight (R98, R111). Without one the spec is silent: DESIGN CHOICE 0,
log entry 31. -/
def State.hmacMsg (s : State) : TimeStep := (s.hmacReq.map fun r => r.msg).getD 0

/-- `rng_req`: a request is in flight on the RNG port (R118). R118 suggests `rng_ack` and does not say how long `rng_req` stays:
DESIGN CHOICE that it is driven until the answer is taken, log entry 32. -/
def State.rngReqValid (s : State) : Bool := s.rngReq

end Sys2Proof.Machine
end

