-- ==== Sys2Proof/Safety.lean ====
section
/-! DEFINITION. What claims are stated in: the invariants of the core, what a host can see, and what leaves the operands alone. -/

namespace Sys2Proof

open Machine

/-- The hidden registers of R41 and GENSECRET's index hold nothing of any command (R18). That "nothing" is their values at
reset is the model's choice (log entry 21). -/
structure Forgotten (s : State) : Prop where
  latchedCmd : s.latchedCmd = 0
  tBase : s.tBase = 0
  key : s.key = []
  winI : s.winI = 0
  genI : s.genI = 0

/-- The invariant of the host-visible state and of the hidden registers. -/
structure Inv (s : State) : Prop where
  /-- The parameters are in the ranges of R7. -/
  params : s.params.wellFormed = true
  /-- IN_BUF is canonical and has P_IN_CAP bytes (R38). -/
  inWf : Memory.wf s.inBuf
  inBound : ∀ c ∈ s.inBuf, c.1 < s.params.inCap
  /-- OUT_BUF is canonical and has P_OUT_CAP bytes (R39). -/
  outWf : Memory.wf s.outBuf
  outBound : ∀ c ∈ s.outBuf, c.1 < s.params.outCap
  /-- OUT_LEN is never greater than P_OUT_CAP (R29). -/
  outLenCap : s.outLen.toNat ≤ s.params.outCap
  /-- While BUSY, DONE, RESULT, ERR and OUT_LEN are 0 (R25, R152). -/
  busyFlags : s.phase = .busy → s.done = false ∧ s.result = false ∧ s.err = .none ∧ s.outLen = 0
  /-- An error leaves RESULT and OUT_LEN at 0 (R134). -/
  errClean : s.err ≠ .none → s.result = false ∧ s.outLen = 0
  /-- A true RESULT is VERIFY's, which leaves OUT_LEN at 0 (R25, R110). -/
  resultClean : s.result = true → s.outLen = 0
  /-- KEY fits P_KEY_CAP (R41, R112). -/
  keyCap : s.key.length ≤ s.params.keyCap
  /-- WIN_I is an index of the window, at most its size (R107); GENSECRET's index is at most 128 (R91). -/
  winBound : s.winI ≤ 2 * 255 + 1
  genBound : s.genI ≤ Config.genMax
  /-- While `rst` is high the core is IDLE and DONE is 0 (R147). -/
  rstIdle : s.rst = true → s.phase = .idle ∧ s.done = false
  /-- An IDLE core keeps nothing of a command but what the host can see (R18). -/
  idleForgets : s.phase = .idle → Forgotten s

/-- The two ports: who may have a request in flight, that nothing it was made from has changed since, and how many requests
the running command has sent (R41, R92, R108, R111, R118, R156). -/
structure PortInv (s : State) : Prop where
  /-- A request is in flight only while BUSY, and only one (R41, R111, R118). -/
  idlePorts : s.phase = .idle → s.hmacReq = none ∧ s.rngReq = false
  onePort : s.hmacReq = none ∨ s.rngReq = false
  /-- A request on the HMAC-SHA1 port is COMPUTE's or VERIFY's (R111), for the decoded secret (R97). -/
  hmacUser : s.hmacReq ≠ none →
    (∃ b, decodeWord s.latchedCmd = .ok (.compute b)) ∨ (∃ b, decodeWord s.latchedCmd = .ok (.verify b))
  hmacReady : s.hmacReq ≠ none → s.overCap = false ∧ s.decodedText = some s.key
  /-- COMPUTE in wait has sent its one request, for T_BASE (R99). -/
  computeWaits : s.hmacReq ≠ none → ∀ b, decodeWord s.latchedCmd = .ok (.compute b) →
    s.hmacReq = some ⟨s.key, s.tBase⟩ ∧ s.hmacSent = [⟨s.key, s.tBase⟩]
  /-- VERIFY in wait has sent one request for each offset up to the one in hand (R107, R108). -/
  verifyWaits : s.hmacReq ≠ none → ∀ b, decodeWord s.latchedCmd = .ok (.verify b) →
    s.candLen = 6 ∧ s.hmacReq = some ⟨s.key, windowStep s.tBase s.disc s.winI⟩ ∧
      s.hmacSent.length = s.winI + 1 ∧ s.winI < s.windowSize
  /-- A request on the RNG port is GENSECRET's (R118), which has sent one for each byte up to the one in hand (R92). -/
  rngUser : s.rngReq = true → ∃ b, decodeWord s.latchedCmd = .ok (.gensecret b)
  rngWaits : s.rngReq = true → s.genLenOk = true ∧ s.rngSent = s.genI + 1 ∧ s.genI < s.genLen.toNat
  /-- A running command that waits for nobody has sent nothing: it has not had its turn. -/
  freshHmac : s.phase = .busy → s.hmacReq = none → s.hmacSent = []
  freshRng : s.phase = .busy → s.rngReq = false → s.rngSent = 0
  /-- The bounds of R156. -/
  hmacBound : s.hmacSent.length ≤ 2 * 255 + 1
  rngBound : s.rngSent ≤ 128

/-- Everything a command body leaves as it stood after accept, whatever the command and its outcome (R23, R134, R43): the
operand registers, CTRL, STEP_USED, IN_BUF, the parameters, the pins, the tape and the counters of what no command body
draws. -/
structure SameOperands (s t : State) : Prop where
  irqEn : t.irqEn = s.irqEn
  inLen : t.inLen = s.inLen
  genLen : t.genLen = s.genLen
  discrepancy : t.discrepancy = s.discrepancy
  candLen : t.candLen = s.candLen
  cand0 : t.cand0 = s.cand0
  cand1 : t.cand1 = s.cand1
  tstepLo : t.tstepLo = s.tstepLo
  tstepHi : t.tstepHi = s.tstepHi
  stepUsedLo : t.stepUsedLo = s.stepUsedLo
  stepUsedHi : t.stepUsedHi = s.stepUsedHi
  inBuf : t.inBuf = s.inBuf
  params : t.params = s.params
  rst : t.rst = s.rst
  unsupported : t.unsupported = s.unsupported
  busRsp : t.busRsp = s.busRsp
  events : t.events = s.events
  clockFeed : t.clockFeed = s.clockFeed
  clockDraws : t.clockDraws = s.clockDraws
  outDraws : t.outDraws = s.outDraws
  resets : t.resets = s.resets

/-- The accepted word and step of a command that is still running are as before, and its operands too. -/
structure SameRunning (s t : State) : Prop extends SameOperands s t where
  latchedCmd : t.latchedCmd = s.latchedCmd
  tBase : t.tBase = s.tBase

/-- The HMAC-SHA1 port is as before: no request was sent, none answered. The record of requests and the count of answers are
the model's (log entries 10, 17). -/
structure SameHmac (s t : State) : Prop where
  hmacReq : t.hmacReq = s.hmacReq
  hmacSent : t.hmacSent = s.hmacSent
  hmacLeft : t.hmacLeft = s.hmacLeft

/-- The RNG port is as before: no request was sent, none answered. The count of requests, the feed and the count of answers are
the model's (log entries 5, 10, 17). -/
structure SameRng (s t : State) : Prop where
  rngReq : t.rngReq = s.rngReq
  rngSent : t.rngSent = s.rngSent
  rngFeed : t.rngFeed = s.rngFeed
  rngLeft : t.rngLeft = s.rngLeft
  rngDraws : t.rngDraws = s.rngDraws

/-- The flags and OUT_LEN after a completion (R133). -/
structure Completed (t : State) (e : Err) (r : Bool) (n : Nat) : Prop where
  phase : t.phase = .idle
  done : t.done = true
  err : t.err = e
  result : t.result = r
  outLen : t.outLen.toNat = n

/-- OUT_BUF holds these bytes from index 0 on, and every other index what it held before (R85, R87, R94, R102). -/
def OutWritten (s t : State) (r : List Byte) : Prop :=
  (∀ i (h : i < r.length), memGet t.outBuf i = some r[i]) ∧ ∀ i, r.length ≤ i → memGet t.outBuf i = memGet s.outBuf i

/-- The host's 32-bit write of a register (R74). -/
def writeEvent (p : Params) (r : Reg) (v : Word) : Event := (HostLine.write r v).event p

/-- The external HMAC-SHA1 core answers at least `n` more requests (R156). -/
def HmacAnswers (s : State) (n : Nat) : Prop := ∀ k, s.hmacLeft = some k → n ≤ k

/-- The RNG answers at least `n` more requests (R156). -/
def RngAnswers (s : State) (n : Nat) : Prop := ∀ k, s.rngLeft = some k → n ≤ k

/-- The code of the window's offset `i - d`, for the secret `k` (R107, R108). -/
def windowCode (s : State) (k : List Byte) (i : Nat) : List Byte :=
  totpCode s.params.hmac k (windowStep s.tBase s.disc i)

/-- A byte that is a data symbol, as R78 lists them. -/
def IsDataSymbol (b : Byte) : Prop :=
  (0x41 ≤ b.toNat ∧ b.toNat ≤ 0x5A) ∨ (0x32 ≤ b.toNat ∧ b.toNat ≤ 0x37)

/-- The number whose `n` digits in base `b` are `f 0`, `f 1`, ..., the first one highest: `f j` has weight `b^(n-1-j)`. -/
def digitsValue (b n : Nat) (f : Nat → Nat) : Nat := (List.range n).foldl (fun acc j => acc * b + f j) 0

/-- What a host can see of a state without a bus access of its own: the pin `irq`, and what every supported read returns
now (R140: the whole window). -/
def SameView (s t : State) : Prop :=
  s.irq = t.irq ∧ ∀ off n, readSupported off n = true → s.readData off n = t.readData off n

/-- Two states that differ at most in the hidden registers of R41 and in what the outside holds. -/
structure SameVisible (s t : State) : Prop where
  phase : s.phase = t.phase
  done : s.done = t.done
  result : s.result = t.result
  err : s.err = t.err
  irqEn : s.irqEn = t.irqEn
  inLen : s.inLen = t.inLen
  outLen : s.outLen = t.outLen
  genLen : s.genLen = t.genLen
  discrepancy : s.discrepancy = t.discrepancy
  candLen : s.candLen = t.candLen
  cand0 : s.cand0 = t.cand0
  cand1 : s.cand1 = t.cand1
  tstepLo : s.tstepLo = t.tstepLo
  tstepHi : s.tstepHi = t.tstepHi
  stepUsedLo : s.stepUsedLo = t.stepUsedLo
  stepUsedHi : s.stepUsedHi = t.stepUsedHi
  inBuf : s.inBuf = t.inBuf
  outDefinedBytes : ∀ i, s.outDefined i = true → memGet s.outBuf i = memGet t.outBuf i
  params : s.params = t.params
  outDraws : s.outDraws = t.outDraws
  resets : s.resets = t.resets

end Sys2Proof
end

