-- ==== Sys2Proof/Certificates/Slice0/Obligations.lean ====
section
/-! DEFINITION. The statements for the provers, each from numbered rules of spec/. -/

open Sys2Proof Sys2Proof.Machine

/-! ## Encoding (30_encoding.md) -/

/-- R72: the decoder is the chain of masked comparisons, total on every word. -/
def Obligations.DecoderIsTheMaskedChain : Prop :=
  ∀ w : Word,
    if w &&& 0xFFFFFEFF = 1 then decodeWord w = .ok (.decode (w.getLsbD 8))
    else if w &&& 0xFFFFFEFF = 2 then decodeWord w = .ok (.encode (w.getLsbD 8))
    else if w &&& 0xFFFFFEFF = 3 then decodeWord w = .ok (.gensecret (w.getLsbD 8))
    else if w &&& 0xFFFFFEFF = 4 then decodeWord w = .ok (.compute (w.getLsbD 8))
    else if w &&& 0xFFFFFEFF = 5 then decodeWord w = .ok (.verify (w.getLsbD 8))
    else ∃ r, decodeWord w = .error r

/-- R73: decode and encode agree in both directions, on every word and every command: no bit is dropped, each command has
the words of R73, and no other word is a command. -/
def Obligations.LegalWordsAreExactlyTheEncodings : Prop :=
  (∀ (w : Word) (i : Instr), decodeWord w = .ok i ↔ w = encode i) ∧
    (∀ i : Instr, decodeBytes (encodeBytes i) = .ok i) ∧
    (encode (.decode false) = 0x00000001 ∧ encode (.decode true) = 0x00000101 ∧
      encode (.encode false) = 0x00000002 ∧ encode (.encode true) = 0x00000102 ∧
      encode (.gensecret false) = 0x00000003 ∧ encode (.gensecret true) = 0x00000103 ∧
      encode (.compute false) = 0x00000004 ∧ encode (.compute true) = 0x00000104 ∧
      encode (.verify false) = 0x00000005 ∧ encode (.verify true) = 0x00000105) ∧
    ∀ w : Word, (∃ i, decodeWord w = .ok i) ↔
      w ∈ ([0x00000001, 0x00000101, 0x00000002, 0x00000102, 0x00000003, 0x00000103, 0x00000004, 0x00000104,
        0x00000005, 0x00000105] : List Word)

/-- A few words of the spec decode to the commands they stand for (R73, 95_test_vectors.md 3.1). -/
def Obligations.SpecWordsDecode : Prop :=
  decodeWord 0x00000001 = .ok (.decode false) ∧ decodeWord 0x00000102 = .ok (.encode true) ∧
    decodeWord 0x00000003 = .ok (.gensecret false) ∧ decodeWord 0x00000104 = .ok (.compute true) ∧
    decodeWord 0x00000005 = .ok (.verify false) ∧ decodeWord 0x00000105 = .ok (.verify true) ∧
    decodeWord 0x00000006 = .error (.illegalOpcode 6) ∧ decodeWord 0x00000011 = .error (.reservedLow 1) ∧
    decodeWord 0x00000201 = .error (.reservedHigh 1)

/-! ## Accept, step and completion (60_exceptions.md) -/

/-- A step runs the accepted command: while BUSY with `rst` low, a step on an empty tape, or on a tape whose next event is
the core's turn, is `exec` of the decoded word, the event taken off. The tape is the model's (log entry 2); that the body runs
in one step is R133's leave (log entry 1). -/
def Obligations.StepRunsAcceptedCommand : Prop :=
  ∀ (s : State) (i : Instr), s.rst = false → s.phase = .busy → decodeWord s.latchedCmd = .ok i →
    (s.events = [] → step s = exec i s) ∧
      ∀ rest, s.events = .coreTurn :: rest → step s = exec i { s with events := rest }

/-- R132: a CMD write while IDLE latches the word, sets BUSY and clears DONE, RESULT, ERR and OUT_LEN; no OUT_BUF byte is
defined any more, and CTRL, the operand registers, CAPS and IN_BUF are as before. R18: nothing of an earlier command reaches
this one: any other IDLE state with the same operands, STEP_USED and IN_BUF, and the same outside, whatever its hidden
registers, results and OUT_BUF, is after the same write the very same state. Whole states are compared, so this rests also on
the model's choices that accept clears GENSECRET's index and the record of requests (log entry 17) and puts the other hidden
registers at their reset values (log entry 21). The outside (tape, feeds, counters) is the model's (log entries 2, 5 to 8, 10). -/
def Obligations.AcceptLatchesAndClears : Prop :=
  ∀ (s : State) (w : Word), s.phase = .idle →
    let t := s.writeReg .cmd w
    (t.latchedCmd = w ∧ t.phase = .busy ∧ t.busy = true ∧ t.done = false ∧ t.result = false ∧ t.err = .none ∧
      t.outLen = 0 ∧ (∀ i, t.outDefined i = false) ∧ (∀ i, t.inByte i = s.inByte i) ∧
      ∀ r ∈ ([.ctrl, .inLen, .genLen, .discrepancy, .candLen, .cand0, .cand1, .tstepLo, .tstepHi, .caps] : List Reg),
        t.readReg r = s.readReg r) ∧
      ∀ u : State, u.phase = .idle → SameOperands s u → u.hmacLeft = s.hmacLeft → u.rngLeft = s.rngLeft →
        u.rngFeed = s.rngFeed → u.rngDraws = s.rngDraws → u.writeReg .cmd w = t

/-- R36, R95, R121, R130: accept of COMPUTE or VERIFY within capacity resolves T_BASE from TSTEP, or from exactly one sample of
the wall clock, and STEP_USED shows it; over capacity, and for every other word, STEP_USED is as it was and no sample is
taken. The feed of samples and their count are the model's (log entry 6). -/
def Obligations.AcceptResolvesTimeStep : Prop :=
  (∀ (s : State) (i : Instr) (tsel : Bool), s.phase = .idle → i = .compute tsel ∨ i = .verify tsel →
    let t := s.writeReg .cmd (encode i)
    (s.inLen.toNat ≤ s.params.inCap →
      t.tBase = (if tsel then s.tstep else BitVec.ofNat 64 (s.clockNext.toNat / 30)) ∧ t.stepUsed = t.tBase ∧
        t.clockDraws = s.clockDraws + (if tsel then 0 else 1) ∧
        t.clockFeed = (if tsel then s.clockFeed else s.clockFeed.tail)) ∧
      (s.params.inCap < s.inLen.toNat →
        t.stepUsed = s.stepUsed ∧ t.clockDraws = s.clockDraws ∧ t.clockFeed = s.clockFeed)) ∧
    ∀ (s : State) (w : Word), s.phase = .idle → (∀ b, decodeWord w ≠ .ok (.compute b)) →
      (∀ b, decodeWord w ≠ .ok (.verify b)) →
      let t := s.writeReg .cmd w
      t.stepUsed = s.stepUsed ∧ t.clockDraws = s.clockDraws ∧ t.clockFeed = s.clockFeed

/-- R129: an illegal word written while IDLE is accepted and completes with ILLEGAL_COMMAND: STEP_USED, IN_LEN and IN_BUF are
unchanged, and no request is sent. The tape and the counters of requests and draws are the model's (log entries 2, 5, 6,
17). -/
def Obligations.IllegalWordCompletes : Prop :=
  ∀ (s : State) (w : Word) (r : WordReject) (rest : List Event), s.phase = .idle → s.rst = false →
    decodeWord w = .error r → s.events = writeEvent s.params .cmd w :: .coreTurn :: rest →
    ∃ t, Host.Core.run core 2 s = .next t ∧ Completed t .illegalCommand false 0 ∧ t.stepUsed = s.stepUsed ∧
      t.inLen = s.inLen ∧ t.inBuf = s.inBuf ∧ t.clockDraws = s.clockDraws ∧ t.rngDraws = s.rngDraws ∧
      t.hmacSent = [] ∧ t.rngSent = 0 ∧ t.hmacReq = none ∧ t.rngReq = false ∧ t.events = rest

/-- R124, R25: the STATUS word of each completion, its reserved bits 0. -/
def Obligations.StatusWordLayout : Prop :=
  ∀ s : State, s.statusWord.toNat =
    (if s.phase = .busy then 1 else 0) + (if s.done then 2 else 0) + (if s.result then 4 else 0) +
      16 * (match s.err with
        | .none => 0
        | .invalidLength => 1
        | .noSecureRandom => 2
        | .decodeError => 3
        | .illegalCommand => 4
        | .capacity => 5)

/-! ## Frames (R23, R43, R134) -/

/-- After accept, no command's body changes an operand register, CTRL, STEP_USED (which accept wrote, R36), IN_BUF, the
parameters, or what only the host, the clock or reset move. A BUSY core that waits for an external part keeps the accepted
word and step; one that completes keeps nothing of the command but its results (R18, R41). That "nothing" is the reset value
of each hidden register is the model's choice (log entry 21). -/
def Obligations.CommandsKeepOperands : Prop :=
  (∀ (i : Instr) (s t : State), exec i s = .next t →
    SameOperands s t ∧
      (s.phase = .busy → (t.phase = .busy ∧ SameRunning s t) ∨ (t.phase = .idle ∧ Forgotten t))) ∧
    ∀ s : State, SameOperands s (completeIllegal s) ∧ Forgotten (completeIllegal s)

/-- DECODE and ENCODE always complete, use no port, and write OUT_BUF from index 0 on by the OUT_LEN bytes of their result
alone, none if they fail. -/
def Obligations.CodecFrame : Prop :=
  ∀ (b : Bool) (i : Instr) (s t : State), i = .decode b ∨ i = .encode b → s.params.wellFormed = true →
    exec i s = .next t →
    t.phase = .idle ∧ SameHmac s t ∧ SameRng s t ∧ (t.err ≠ .none → ∀ a, memGet t.outBuf a = memGet s.outBuf a) ∧
      ∀ a, t.outLen.toNat ≤ a → memGet t.outBuf a = memGet s.outBuf a

/-- GENSECRET uses no HMAC-SHA1 request and writes no OUT_BUF byte outside `[genStart, GEN_LEN)`, where `genStart` is 0 but for
a turn that resumes a wait for the RNG (log entry 17). While it waits KEY and WIN_I are as before. -/
def Obligations.GensecretFrame : Prop :=
  ∀ (b : Bool) (s t : State), exec (.gensecret b) s = .next t →
    SameHmac s t ∧ (t.phase = .busy → t.key = s.key ∧ t.winI = s.winI) ∧
      ∀ a, a < s.genStart ∨ s.genLen.toNat ≤ a → memGet t.outBuf a = memGet s.outBuf a

/-- COMPUTE and VERIFY use no RNG request. COMPUTE writes no OUT_BUF byte outside the six of the code; VERIFY stores nothing:
every OUT_BUF byte is as before, and OUT_LEN becomes 0 unless it waits for a digest (R110). While they wait, GENSECRET's index
(log entry 17) is as before, and for COMPUTE WIN_I too. -/
def Obligations.ComputeAndVerifyFrame : Prop :=
  (∀ (b : Bool) (s t : State), exec (.compute b) s = .next t →
    SameRng s t ∧ (t.phase = .busy → t.winI = s.winI ∧ t.genI = s.genI) ∧
      ∀ a, 6 ≤ a → memGet t.outBuf a = memGet s.outBuf a) ∧
    ∀ (b : Bool) (s t : State), exec (.verify b) s = .next t →
      SameRng s t ∧ (t.phase = .busy → t.genI = s.genI) ∧ (∀ a, memGet t.outBuf a = memGet s.outBuf a) ∧
        (t.outLen = 0 ∨ (t.hmacReq ≠ none ∧ t.outLen = s.outLen))

/-! ## DECODE and ENCODE (40_base32.md) -/

/-- R85: DECODE within capacity and of legal text writes the decoded bytes and completes. R82: the bytes of a chunk of 1 to 8
data symbols are five, and as a number, the first byte highest, they are the symbols' values as eight digits in base 32, the
first symbol highest and a missing symbol 0 (ZERO_FILL_FIVE; O20 ties RFC4648_DISCARD to it). R82, R83: the bytes of a full
chunk come before those of what follows it. -/
def Obligations.DecodeWritesDecodedBytes : Prop :=
  (∀ (b : Bool) (s : State) (r : List Byte), s.inLen.toNat ≤ s.params.inCap →
    base32Decode s.params.partialChunk s.text = some r →
    ∃ t, exec (.decode b) s = .next t ∧ Completed t .none false r.length ∧ OutWritten s t r) ∧
    (∀ (k : Nat) (v : Nat → Nat), 1 ≤ k → k ≤ 8 → (∀ j, j < k → v j < 32) →
      ∃ r : List Byte, base32Decode .zeroFillFive ((List.range k).map fun j => symbol (v j)) = some r ∧ r.length = 5 ∧
        digitsValue 256 5 (fun i => (r.getD i 0).toNat) = digitsValue 32 8 (fun j => if j < k then v j else 0)) ∧
    ∀ c t r : List Byte, c.length = 8 → (∀ b ∈ c, IsDataSymbol b) → base32Decode .zeroFillFive c = some r →
      base32Decode .zeroFillFive (c ++ t) = (base32Decode .zeroFillFive t).map fun q => r ++ q

/-- R125, R134: DECODE and COMPUTE of text that does not decode complete with DECODE_ERROR, send no request on either port and
write no byte; STEP_USED stays as accept wrote it. -/
def Obligations.MalformedTextRaisesDecodeError : Prop :=
  ∀ (b : Bool) (i : Instr) (s : State), i = .decode b ∨ i = .compute b → s.inLen.toNat ≤ s.params.inCap →
    base32Decode s.params.partialChunk s.text = none →
    ∃ t, exec i s = .next t ∧ Completed t .decodeError false 0 ∧ SameHmac s t ∧ SameRng s t ∧ t.outBuf = s.outBuf ∧
      t.stepUsed = s.stepUsed

/-- R87: ENCODE within capacity writes the encoding of any bytes and completes. R86: a group of `r` bytes, 1 to 5, is encoded
as ceil(8r / 5) data symbols and pad symbols up to 8; the symbols' values as eight digits in base 32, the first symbol highest
and a missing one 0, and the bytes as five digits in base 256, the first byte highest and a missing one 0, are one number. The
encoding of a full group comes before that of what follows it. -/
def Obligations.EncodeWritesEncoding : Prop :=
  (∀ (b : Bool) (s : State), s.params.wellFormed = true → s.inLen.toNat ≤ s.params.inCap →
    ∃ t, exec (.encode b) s = .next t ∧ Completed t .none false (8 * ((s.inLen.toNat + 4) / 5)) ∧
      OutWritten s t (base32Encode s.text)) ∧
    (∀ g : List Byte, 1 ≤ g.length → g.length ≤ 5 →
      ∃ v : Nat → Nat, (∀ j, v j < 32) ∧
        base32Encode g = ((List.range ((8 * g.length + 4) / 5)).map fun j => symbol (v j)) ++
          List.replicate (8 - (8 * g.length + 4) / 5) 0x3D ∧
        digitsValue 32 8 (fun j => if j < (8 * g.length + 4) / 5 then v j else 0) =
          digitsValue 256 5 (fun i => (g.getD i 0).toNat)) ∧
    ∀ g c : List Byte, g.length = 5 → base32Encode (g ++ c) = base32Encode g ++ base32Encode c

/-- R128: DECODE, ENCODE, COMPUTE and VERIFY over capacity complete with CAPACITY, send no request and write no byte. -/
def Obligations.OverCapacityCompletes : Prop :=
  ∀ (b : Bool) (i : Instr) (s : State), i = .decode b ∨ i = .encode b ∨ i = .compute b ∨ i = .verify b →
    s.params.inCap < s.inLen.toNat →
    ∃ t, exec i s = .next t ∧ Completed t .capacity false 0 ∧ SameHmac s t ∧ SameRng s t ∧ t.outBuf = s.outBuf

/-- R77, R78: the 32 data symbols, A to Z then 2 to 7, have the values 0 to 31 in order, and no other byte has a value: not the
pad symbol, not a lower-case letter. -/
def Obligations.SymbolTableIsAlphabet : Prop :=
  (∀ v, v < 26 → (symbol v).toNat = 0x41 + v) ∧ (∀ v, 26 ≤ v → v < 32 → (symbol v).toNat = 0x32 + (v - 26)) ∧
    (∀ (b : Byte) (v : Nat), symValue b = some v ↔ v < 32 ∧ symbol v = b) ∧
    ∀ b : Byte, symValue b = none ↔ ¬ IsDataSymbol b

/-- R79, R80, R81: what decodes is exactly text of data symbols followed by one run of 0, 1, 3, 4 or 6 pad symbols. -/
def Obligations.DecodeAcceptsExactlyPaddedText : Prop :=
  ∀ (p : PartialChunk) (s : List Byte),
    (∃ r, base32Decode p s = some r) ↔
      ∃ (t : List Byte) (n : Nat), n ∈ ([0, 1, 3, 4, 6] : List Nat) ∧ s = t ++ List.replicate n 0x3D ∧
        ∀ b ∈ t, IsDataSymbol b

/-- R88: both length and validity laws. -/
def Obligations.Base32Lengths : Prop :=
  (∀ b : List Byte, ∃ r, base32Decode .zeroFillFive (base32Encode b) = some r ∧ r.length = 5 * ((b.length + 4) / 5)) ∧
    ∀ s r : List Byte, base32Decode .zeroFillFive s = some r →
      r.length = 5 * ((s.length - s.count 0x3D + 7) / 8) ∧ r.length % 5 = 0

/-- R89, R90: the round trip, with the zero bytes that the last chunk is filled with. Under RFC4648_DISCARD text decodes if and
only if it does under ZERO_FILL_FIVE, to the whole bytes of its real symbols alone, `floor(5k / 8)` of them for `k` symbols,
and the round trip is exact. The value
after reset is ZERO_FILL_FIVE. -/
def Obligations.Base32RoundTrip : Prop :=
  (∀ b : List Byte,
    base32Decode .zeroFillFive (base32Encode b) = some (b ++ List.replicate ((5 - b.length % 5) % 5) 0) ∧
      (b.length % 5 = 0 → base32Decode .zeroFillFive (base32Encode b) = some b) ∧
      base32Decode .rfc4648Discard (base32Encode b) = some b) ∧
    (∀ s : List Byte,
      base32Decode .rfc4648Discard s =
        (base32Decode .zeroFillFive s).map fun r => r.take (5 * (s.length - s.count 0x3D) / 8)) ∧
    State.reset.params.partialChunk = .zeroFillFive

/-! ## GENSECRET (41_secret_generator.md) -/

/-- R126, R91: a length out of 16..128 completes with INVALID_LENGTH, before any RNG request. -/
def Obligations.GensecretRejectsLength : Prop :=
  ∀ (b : Bool) (s : State), s.genLen.toNat < 16 ∨ 128 < s.genLen.toNat →
    ∃ t, exec (.gensecret b) s = .next t ∧ Completed t .invalidLength false 0 ∧ SameRng s t ∧ t.outBuf = s.outBuf

/-- R93, R94: with an answer for every byte, output byte `i` is the alphabet's symbol of the low 5 bits of answer `i`, and one
request a byte is sent (R92). The answers are any the outside gives (log entry 5). -/
def Obligations.GensecretWritesMaskedSymbols : Prop :=
  ∀ (b : Bool) (s : State) (rnd : List Byte), 16 ≤ s.genLen.toNat → s.genLen.toNat ≤ 128 → s.rngReq = false →
    rnd.length = s.genLen.toNat → RngAnswers s s.genLen.toNat →
    (∀ k (h : k < rnd.length), s.rngNth k = .byte rnd[k]) →
    ∃ t, exec (.gensecret b) s = .next t ∧ Completed t .none false s.genLen.toNat ∧
      OutWritten s t (rnd.map fun r => alphabet.getD (r.toNat % 32) 0) ∧ t.rngSent = s.rngSent + s.genLen.toNat ∧
      t.rngReq = false

/-- R92: the first UNAVAILABLE, as answer `j`, ends the command with NO_SECURE_RANDOM after `j + 1` requests. -/
def Obligations.GensecretStopsAtUnavailable : Prop :=
  ∀ (b : Bool) (s : State) (j : Nat), 16 ≤ s.genLen.toNat → s.genLen.toNat ≤ 128 → s.rngReq = false →
    j < s.genLen.toNat → RngAnswers s (j + 1) → (∀ k, k < j → ∃ x, s.rngNth k = .byte x) →
    s.rngNth j = .unavailable →
    ∃ t, exec (.gensecret b) s = .next t ∧ Completed t .noSecureRandom false 0 ∧ t.rngSent = s.rngSent + (j + 1) ∧
      t.rngReq = false

/-! ## COMPUTE (42_totp_engine.md) -/

/-- R100: dynamic truncation of a 20-byte digest reads four bytes of it, big-endian, with the top bit cleared. -/
def Obligations.TruncationReadsFourBytes : Prop :=
  ∀ d : List Byte, d.length = 20 →
    ∃ off b0 b1 b2 b3, off = (d.getD 19 0).toNat % 16 ∧ off + 3 ≤ 18 ∧
      d[off]? = some b0 ∧ d[off + 1]? = some b1 ∧ d[off + 2]? = some b2 ∧ d[off + 3]? = some b3 ∧
      truncateDigest d = (b0.toNat * 16777216 + b1.toNat * 65536 + b2.toNat * 256 + b3.toNat) % 2147483648

/-- R101: a code is six ASCII digits, and as a decimal number it is the truncated value modulo 10^6. -/
def Obligations.CodeIsSixDecimalDigits : Prop :=
  ∀ (part : HmacPart) (key : List Byte) (t : TimeStep),
    (totpCode part key t).length = 6 ∧ (∀ b ∈ totpCode part key t, 0x30 ≤ b.toNat ∧ b.toNat ≤ 0x39) ∧
      (totpCode part key t).foldl (fun n b => n * 10 + (b.toNat - 0x30)) 0 =
        truncateDigest (hmacSha1 part key (beBytes 8 t.toNat)) % 1000000

/-- R102: COMPUTE within capacity, with a secret that decodes and a digest that is answered, writes the code of T_BASE after one
request: one it sends now, or the one that was in flight when its turn came (R111, R123). The record of requests is the
model's (log entry 17). -/
def Obligations.ComputeWritesTotpCode : Prop :=
  ∀ (b : Bool) (s : State) (k : List Byte), s.inLen.toNat ≤ s.params.inCap →
    base32Decode s.params.partialChunk s.text = some k → HmacAnswers s 1 →
    ∃ t, exec (.compute b) s = .next t ∧ Completed t .none false 6 ∧
      OutWritten s t (totpCode s.params.hmac k s.tBase) ∧ t.hmacReq = none ∧
      (s.hmacReq = none → t.hmacSent = ⟨k, s.tBase⟩ :: s.hmacSent) ∧
      (s.hmacReq ≠ none → t.hmacSent = s.hmacSent)

/-- COMPUTE from the host's CMD write to the completion (R95, R102, R132, R133): from any IDLE state, the code of the selected
step of the secret in IN_BUF, whatever function the HMAC-SHA1 core computes. The tape is the model's (log entry 2), so is the
record of requests (log entry 17), and that a byte read leaves zeros above its byte is the model's choice (log entry 18). -/
def Obligations.HostCommandComputesTotp : Prop :=
  ∀ (s : State) (tsel : Bool) (k : List Byte) (rest : List Event), s.phase = .idle → s.rst = false →
    s.events = writeEvent s.params .cmd (encode (.compute tsel)) :: .coreTurn :: rest →
    s.inLen.toNat ≤ s.params.inCap → base32Decode s.params.partialChunk s.text = some k → HmacAnswers s 1 →
    ∃ t, Host.Core.run core 2 s = .next t ∧ Completed t .none false 6 ∧ t.events = rest ∧
      t.stepUsed = (if tsel then s.tstep else stepOfClock s.clockNext) ∧
      t.hmacSent = [⟨k, t.stepUsed⟩] ∧
      (∀ i (h : i < (totpCode s.params.hmac k t.stepUsed).length),
        (t.busRead (0x2000 + i) 1).busRsp = some ⟨(totpCode s.params.hmac k t.stepUsed)[i].setWidth 32, false⟩)

/-! ## VERIFY (43_verifier.md) -/

/-- R103: the comparison's value is equality. -/
def Obligations.ConstantTimeCompareIsEquality : Prop :=
  ∀ a b : List Byte, ctEqual a b = true ↔ a = b

/-- R107: the step of offset `i - d`, modulo 2^64. -/
def Obligations.WindowStepWraps : Prop :=
  ∀ (tBase : TimeStep) (d i : Nat), d ≤ 255 → i ≤ 2 * d →
    (windowStep tBase d i).toNat = (tBase.toNat + i + (2 ^ 64 - d)) % 2 ^ 64

/-- R105: a candidate whose length is not 6 is rejected at once, whether or not the secret decodes: false, no error, no
request. -/
def Obligations.VerifyRejectsLength : Prop :=
  ∀ (b : Bool) (s : State), s.inLen.toNat ≤ s.params.inCap → s.candLen ≠ 6 →
    ∃ t, exec (.verify b) s = .next t ∧ Completed t .none false 0 ∧ SameHmac s t ∧ t.stepUsed = s.stepUsed

/-- R106: a secret that does not decode is a non-match, not an error, and no request is sent. -/
def Obligations.VerifyDecodeFailureIsNonMatch : Prop :=
  ∀ (b : Bool) (s : State), s.inLen.toNat ≤ s.params.inCap → s.candLen = 6 →
    base32Decode s.params.partialChunk s.text = none →
    ∃ t, exec (.verify b) s = .next t ∧ Completed t .none false 0 ∧ SameHmac s t

/-- R108: the first matching offset, index `j`, ends the window: true after `j + 1` requests, in window order. -/
def Obligations.VerifyFirstMatchEndsWindow : Prop :=
  ∀ (b : Bool) (s : State) (k : List Byte) (j : Nat), s.inLen.toNat ≤ s.params.inCap → s.candLen = 6 →
    base32Decode s.params.partialChunk s.text = some k → s.hmacReq = none → j ≤ 2 * s.disc →
    HmacAnswers s (j + 1) → windowCode s k j = s.cand → (∀ i, i < j → windowCode s k i ≠ s.cand) →
    ∃ t, exec (.verify b) s = .next t ∧ Completed t .none true 0 ∧ t.hmacReq = none ∧
      t.hmacSent =
        ((List.range (j + 1)).map fun i => HmacRequest.mk k (windowStep s.tBase s.disc i)).reverse ++ s.hmacSent

/-- R108: without a matching offset VERIFY is false after all `2d + 1` requests. -/
def Obligations.VerifyNoMatchTriesWholeWindow : Prop :=
  ∀ (b : Bool) (s : State) (k : List Byte), s.inLen.toNat ≤ s.params.inCap → s.candLen = 6 →
    base32Decode s.params.partialChunk s.text = some k → s.hmacReq = none → HmacAnswers s (2 * s.disc + 1) →
    (∀ i, i ≤ 2 * s.disc → windowCode s k i ≠ s.cand) →
    ∃ t, exec (.verify b) s = .next t ∧ Completed t .none false 0 ∧ t.hmacReq = none ∧
      t.hmacSent =
        ((List.range (2 * s.disc + 1)).map fun i => HmacRequest.mk k (windowStep s.tBase s.disc i)).reverse
          ++ s.hmacSent

/-- R109, the half that holds without condition, for every function the HMAC-SHA1 core may compute (R114): the code of step `t`
is accepted at T_BASE = t + k for |k| ≤ d. -/
def Obligations.VerifyAcceptsCodesInWindow : Prop :=
  ∀ (b : Bool) (s : State) (key : List Byte) (t : TimeStep) (k : Int), s.inLen.toNat ≤ s.params.inCap →
    s.candLen = 6 → base32Decode s.params.partialChunk s.text = some key → s.hmacReq = none →
    HmacAnswers s (2 * s.disc + 1) → -(s.disc : Int) ≤ k → k ≤ (s.disc : Int) → s.tBase = t + BitVec.ofInt 64 k →
    s.cand = totpCode s.params.hmac key t →
    ∃ u, exec (.verify b) s = .next u ∧ Completed u .none true 0

/-- R139: after VERIFY a malformed secret and a wrong code look the same: the same STATUS, OUT_LEN and STEP_USED, the
same `irq`. -/
def Obligations.VerifyMasksMalformedSecret : Prop :=
  ∀ (b : Bool) (s u : State) (k : List Byte),
    s.inLen.toNat ≤ s.params.inCap → u.inLen.toNat ≤ u.params.inCap → s.candLen = 6 → u.candLen = 6 →
    s.stepUsed = u.stepUsed → s.irqEn = u.irqEn →
    base32Decode s.params.partialChunk s.text = none →
    base32Decode u.params.partialChunk u.text = some k → u.hmacReq = none → HmacAnswers u (2 * u.disc + 1) →
    (∀ i, i ≤ 2 * u.disc → windowCode u k i ≠ u.cand) →
    ∃ s' u', exec (.verify b) s = .next s' ∧ exec (.verify b) u = .next u' ∧ s'.statusWord = u'.statusWord ∧
      s'.statusWord = 2 ∧ s'.outLen = u'.outLen ∧ s'.stepUsed = u'.stepUsed ∧ s'.irq = u'.irq ∧
      ∀ i, s'.outDefined i = u'.outDefined i

/-! ## The external parts (44_external_cores.md) -/

/-- R115: two keys of at most 64 bytes that differ by trailing zero bytes give the same digest. -/
def Obligations.TrailingZerosKeepDigest : Prop :=
  ∀ (k m : List Byte) (n : Nat), k.length + n ≤ 64 →
    hmacReference (k ++ List.replicate n 0) m = hmacReference k m

/-- R123: with a silent external part a command stays BUSY with its request in flight, turn after turn, and STATUS and OUT_LEN
do not change: COMPUTE and VERIFY with a silent HMAC-SHA1 core, GENSECRET with a silent RNG. A silent part is the model's
`hmacLeft = some 0` or `rngLeft = some 0` (log entry 10), the count of RNG requests too (log entry 17). -/
def Obligations.SilentHmacStaysBusy : Prop :=
  (∀ (b : Bool) (s : State) (k : List Byte), s.phase = .busy → s.inLen.toNat ≤ s.params.inCap →
    base32Decode s.params.partialChunk s.text = some k → s.hmacReq = none → s.hmacLeft = some 0 →
    ∃ t, exec (.compute b) s = .next t ∧ t.phase = .busy ∧ t.hmacReq = some ⟨k, s.tBase⟩ ∧
      t.statusWord = s.statusWord ∧ t.outLen = s.outLen ∧ exec (.compute b) t = .next t) ∧
    (∀ (b : Bool) (s : State) (k : List Byte), s.phase = .busy → s.inLen.toNat ≤ s.params.inCap → s.candLen = 6 →
      base32Decode s.params.partialChunk s.text = some k → s.hmacReq = none → s.hmacLeft = some 0 →
      ∃ t, exec (.verify b) s = .next t ∧ t.phase = .busy ∧ t.hmacReq = some ⟨k, windowStep s.tBase s.disc 0⟩ ∧
        t.statusWord = s.statusWord ∧ t.outLen = s.outLen ∧ exec (.verify b) t = .next t) ∧
    ∀ (b : Bool) (s : State), s.phase = .busy → 16 ≤ s.genLen.toNat → s.genLen.toNat ≤ 128 → s.rngReq = false →
      s.rngLeft = some 0 →
      ∃ t, exec (.gensecret b) s = .next t ∧ t.phase = .busy ∧ t.rngReq = true ∧ t.rngSent = s.rngSent + 1 ∧
        t.statusWord = s.statusWord ∧ t.outLen = s.outLen ∧ exec (.gensecret b) t = .next t

/-- R123: COMPUTE or VERIFY that waited for a silent HMAC-SHA1 core, once it is answered, ends in the very state it would have
ended in without the silence (for COMPUTE: with the code of T_BASE in OUT_BUF). Silence and the wait across turns are the
model's (log entries 1, 10). -/
def Obligations.HmacSilenceIsTransparent : Prop :=
  ∀ (b : Bool) (i : Instr) (s : State) (n : Nat), i = .compute b ∨ i = .verify b → s.phase = .busy →
    s.hmacReq = none → s.hmacLeft = some n →
    ∃ t, exec i s = .next t ∧
      (t.phase = .busy → exec i { t with hmacLeft := none } = exec i { s with hmacLeft := none })

/-- R123: the same of GENSECRET and a silent RNG (log entries 1, 10). -/
def Obligations.RngSilenceIsTransparent : Prop :=
  ∀ (b : Bool) (s : State) (n : Nat), s.phase = .busy → s.rngReq = false → s.rngLeft = some n →
    ∃ t, exec (.gensecret b) s = .next t ∧
      (t.phase = .busy → exec (.gensecret b) { t with rngLeft := none } = exec (.gensecret b) { s with rngLeft := none })

/-- R156: if the external parts answer, a step on the core's turn completes the accepted command, whatever its word and
operands. That the body is one step is R133's leave (log entry 1), and "answers" is the model's `none` (log entry 10). -/
def Obligations.AnsweredCommandCompletes : Prop :=
  ∀ s : State, s.phase = .busy → s.rst = false → s.events = [] → s.hmacLeft = none → s.rngLeft = none →
    ∃ t, step s = .next t ∧ t.phase = .idle ∧ t.done = true

/-! ## The host bus (10_state.md, 20_memory.md) -/

/-- R52: an unsupported access has no effect on any state but its record; a read returns 0, with an error response.
The response is a field of the model (log entry 18). -/
def Obligations.UnsupportedAccessHasNoEffect : Prop :=
  ∀ (s : State) (off n : Nat) (v : Word),
    (readSupported off n = false →
      s.busRead off n = { s with unsupported := true, busRsp := some ⟨0, true⟩ }) ∧
      (writeSupported off n = false →
        s.busWrite off n v = { s with unsupported := true, busRsp := some ⟨0, true⟩ })

/-- R48, R49, and R50 for reads, which accesses are supported: 32 bits at multiples of 4 in the register region; 8, 16 and 32
bits, naturally aligned, in the IN_BUF window, and the same for reads of the OUT_BUF window. A supported access of `n` bytes at
0x1000 + i touches IN_BUF bytes `i .. i+n-1`, lane `k` being byte `i + k` (R51); a byte past P_IN_CAP reads 0 and takes no write
(R47, R53). That the answer to a read stands in a field of State, its data in the low lanes, is the model's (log entry 18). -/
def Obligations.SupportedAccessShapes : Prop :=
  (∀ off n, off < 0x1000 → (readSupported off n = true ↔ n = 4 ∧ off % 4 = 0) ∧
    (writeSupported off n = true ↔ n = 4 ∧ off % 4 = 0)) ∧
    (∀ off n, 0x1000 ≤ off → off < 0x2000 →
      (readSupported off n = true ↔ n = 1 ∨ (n = 2 ∧ off % 2 = 0) ∨ (n = 4 ∧ off % 4 = 0)) ∧
      (writeSupported off n = true ↔ n = 1 ∨ (n = 2 ∧ off % 2 = 0) ∨ (n = 4 ∧ off % 4 = 0))) ∧
    (∀ off n, 0x2000 ≤ off → off < 0x3000 →
      (readSupported off n = true ↔ n = 1 ∨ (n = 2 ∧ off % 2 = 0) ∨ (n = 4 ∧ off % 4 = 0))) ∧
    (∀ (s : State) (i n : Nat) (v : Word), i < 0x1000 → writeSupported (0x1000 + i) n = true → s.phase = .idle →
      ∀ a, (s.busWrite (0x1000 + i) n v).inByte a =
        if i ≤ a ∧ a < i + n ∧ a < s.params.inCap then v.extractLsb' (8 * (a - i)) 8 else s.inByte a) ∧
    ∀ (s : State) (i n : Nat), i < 0x1000 → readSupported (0x1000 + i) n = true →
      ∃ d : Word, (s.busRead (0x1000 + i) n).busRsp = some ⟨d, false⟩ ∧
        ∀ k, k < n → d.extractLsb' (8 * k) 8 = if i + k < s.params.inCap then s.inByte (i + k) else 0

/-- R53, R47: a supported access to a reserved offset of the register region or above 0x2FFF, or to reserved bytes of a buffer
window (past P_IN_CAP, past P_OUT_CAP), reads 0 and ignores writes, with no error response. Which shapes are supported there is
DEDUCED (log entries 13, 14); the response is a field of the model (log entry 18), and a read of the OUT_BUF window moves the
model's counter of draws (log entry 7). -/
def Obligations.ReservedOffsetsReadZero : Prop :=
  ∀ (s : State) (off n : Nat) (v : Word),
    ((0x3C ≤ off ∧ off < 0x1000) ∨ (0x3000 ≤ off ∧ off < 0x4000) ∨ (0x1000 + s.params.inCap ≤ off ∧ off < 0x2000) →
      (readSupported off n = true → s.busRead off n = { s with busRsp := some ⟨0, false⟩ }) ∧
        (writeSupported off n = true → s.busWrite off n v = { s with busRsp := some ⟨0, false⟩ })) ∧
      (0x2000 + s.params.outCap ≤ off ∧ off < 0x3000 →
        (readSupported off n = true → ∃ c, s.busRead off n = { s with busRsp := some ⟨0, false⟩, outDraws := c }) ∧
          (writeSupported off n = true → s.busWrite off n v = { s with busRsp := some ⟨0, false⟩ }))

/-- R20, R21, R27 to R36: the registers stand at the offsets of R20, and a 32-bit access there is an access of the register. A RW
register reads back what an IDLE host wrote, its reserved bits 0; CTRL does so while BUSY too (R27, R57); a read-only register
ignores writes, and CMD reads 0. A write to a register other than CMD and STATUS, in
either phase, changes at most that register: it leaves every other one, both buffers, the hidden registers (R41), both ports
and all of the model's own state. The candidate, TSTEP,
STEP_USED and `d` that the commands use are those of the registers (R33 to R36, R70). That the answer to an access is a field of
State, and to a write data 0 and no error, is the model's choice (log entry 18). -/
def Obligations.RegistersReadBack : Prop :=
  (allRegs.map regOffset =
      [0x000, 0x004, 0x008, 0x00C, 0x010, 0x014, 0x018, 0x01C, 0x020, 0x024, 0x028, 0x02C, 0x030, 0x034, 0x038] ∧
    ∀ (s : State) (r : Reg) (v : Word),
      s.busWrite (regOffset r) 4 v = { s.writeReg r v with busRsp := some ⟨0, false⟩ } ∧
        s.busRead (regOffset r) 4 = { s with busRsp := some ⟨s.readReg r, false⟩ }) ∧
    (∀ (s : State) (v : Word), s.phase = .idle →
      (s.writeReg .inLen v).readReg .inLen = v ∧
        (s.writeReg .genLen v).readReg .genLen = v ∧ (s.writeReg .discrepancy v).readReg .discrepancy = v &&& 0xFF ∧
        (s.writeReg .candLen v).readReg .candLen = v ∧ (s.writeReg .cand0 v).readReg .cand0 = v ∧
        (s.writeReg .cand1 v).readReg .cand1 = v &&& 0xFFFF ∧ (s.writeReg .tstepLo v).readReg .tstepLo = v ∧
        (s.writeReg .tstepHi v).readReg .tstepHi = v) ∧
    (∀ (s : State) (v : Word), (s.writeReg .ctrl v).readReg .ctrl = v &&& 1) ∧
    (∀ (s : State) (v : Word) (r : Reg), r ∈ ([.outLen, .stepUsedLo, .stepUsedHi, .caps] : List Reg) →
      s.writeReg r v = s ∧ s.readReg .cmd = 0) ∧
    (∀ (s : State) (v : Word) (r r' : Reg), r ≠ .cmd → r ≠ .status → r' ≠ r →
      let t := s.writeReg r v
      t.readReg r' = s.readReg r' ∧ (∀ a, t.inByte a = s.inByte a) ∧ (∀ a, memGet t.outBuf a = memGet s.outBuf a) ∧
        t = { s with
          irqEn := t.irqEn, inLen := t.inLen, genLen := t.genLen, discrepancy := t.discrepancy, candLen := t.candLen
          cand0 := t.cand0, cand1 := t.cand1, tstepLo := t.tstepLo, tstepHi := t.tstepHi }) ∧
    ∀ s : State,
      s.cand = [(s.readReg .cand0).extractLsb' 0 8, (s.readReg .cand0).extractLsb' 8 8,
        (s.readReg .cand0).extractLsb' 16 8, (s.readReg .cand0).extractLsb' 24 8, (s.readReg .cand1).extractLsb' 0 8,
        (s.readReg .cand1).extractLsb' 8 8] ∧
      s.tstep.toNat = (s.readReg .tstepHi).toNat * 2 ^ 32 + (s.readReg .tstepLo).toNat ∧
      s.stepUsed.toNat = (s.readReg .stepUsedHi).toNat * 2 ^ 32 + (s.readReg .stepUsedLo).toNat ∧
      s.disc = (s.readReg .discrepancy).toNat

/-- R26: a write to STATUS clears DONE if its bit 1 and DONE are 1, and changes nothing else. -/
def Obligations.StatusWriteClearsDoneOnly : Prop :=
  ∀ (s : State) (v : Word), s.writeReg .status v = if v.getLsbD 1 = true ∧ s.done = true then { s with done := false } else s

/-- R37: CAPS shows both capacities, 0x01A0_0100 with the default parameters. -/
def Obligations.CapsShowsCapacities : Prop :=
  (∀ s : State, s.params.wellFormed = true →
    (s.readReg .caps).toNat = s.params.outCap * 65536 + s.params.inCap) ∧
    ∀ s : State, s.params = Config.defaultParams → s.readReg .caps = 0x01A00100

/-- R57: while BUSY a supported write to CMD, to an operand register or to an IN_BUF byte has no effect and raises no error
response. That a write is answered with data 0, in a field of State, is the model's choice (log entry 18). -/
def Obligations.BusyWritesAreIgnored : Prop :=
  ∀ (s : State) (off n : Nat) (v : Word), s.phase = .busy → writeSupported off n = true →
    off ∈ ([0x000, 0x00C, 0x014, 0x018, 0x01C, 0x020, 0x024, 0x028, 0x02C] : List Nat) ∨ (0x1000 ≤ off ∧ off < 0x2000) →
    s.busWrite off n v = { s with busRsp := some ⟨0, false⟩ }

/-- R51, R49, R50: a 32-bit write to IN_BUF puts `v[7:0]` at the lowest index, and a 32-bit, a 16-bit and an 8-bit read give the
little-endian words back. Reads of the OUT_BUF window give the defined bytes of OUT_BUF (R39) in the same lanes, and 0 for a
byte past P_OUT_CAP. That a narrow read leaves zeros above its bytes is the model's choice (log entry 18). -/
def Obligations.InBufLanesAreLittleEndian : Prop :=
  (∀ (s : State) (i : Nat) (v : Word), s.phase = .idle → i % 4 = 0 → i + 4 ≤ s.params.inCap →
    s.params.wellFormed = true →
    let t := s.busWrite (0x1000 + i) 4 v
    t.inByte i = v.extractLsb' 0 8 ∧ t.inByte (i + 1) = v.extractLsb' 8 8 ∧ t.inByte (i + 2) = v.extractLsb' 16 8 ∧
      t.inByte (i + 3) = v.extractLsb' 24 8 ∧ (t.busRead (0x1000 + i) 4).busRsp = some ⟨v, false⟩ ∧
      (t.busRead (0x1000 + i + 2) 2).busRsp = some ⟨v >>> 16, false⟩ ∧
      (t.busRead (0x1000 + i + 3) 1).busRsp = some ⟨v >>> 24, false⟩) ∧
    (∀ (s : State) (i : Nat) (b0 b1 b2 b3 : Byte), s.phase = .idle → s.err = .none → i % 4 = 0 →
      i + 4 ≤ s.outLen.toNat → i + 4 ≤ s.params.outCap → s.params.wellFormed = true → memGet s.outBuf i = some b0 →
      memGet s.outBuf (i + 1) = some b1 → memGet s.outBuf (i + 2) = some b2 → memGet s.outBuf (i + 3) = some b3 →
      (s.busRead (0x2000 + i) 4).busRsp = some ⟨b3 ++ b2 ++ b1 ++ b0, false⟩ ∧
        (s.busRead (0x2000 + i) 2).busRsp = some ⟨(b1 ++ b0).setWidth 32, false⟩ ∧
        (s.busRead (0x2000 + i + 2) 2).busRsp = some ⟨(b3 ++ b2).setWidth 32, false⟩ ∧
        (s.busRead (0x2000 + i + 1) 1).busRsp = some ⟨b1.setWidth 32, false⟩) ∧
    ∀ (s : State) (i n : Nat), i < 0x1000 → readSupported (0x2000 + i) n = true →
      ∃ d : Word, (s.busRead (0x2000 + i) n).busRsp = some ⟨d, false⟩ ∧
        ∀ k, k < n → (s.params.outCap ≤ i + k → d.extractLsb' (8 * k) 8 = 0) ∧
          ∀ b, i + k < s.params.outCap → s.phase = .idle → s.err = .none → i + k < s.outLen.toNat →
            memGet s.outBuf (i + k) = some b → d.extractLsb' (8 * k) 8 = b

/-- R49, R55: a write to the IN_BUF window changes no IN_BUF byte outside the bytes it stores to, no register, no OUT_BUF byte,
and nothing else of the state: no hidden register (R41), no port. R50: a write to the OUT_BUF window is ignored and is not unsupported, in either phase; that this holds for misaligned
shapes below 64 bits too is DEDUCED (log entry 13), and the response is a field of the model (log entry 18). -/
def Obligations.InBufWriteFrame : Prop :=
  (∀ (s : State) (off n : Nat) (v : Word), 0x1000 ≤ off → off < 0x2000 → writeSupported off n = true →
    let t := s.busWrite off n v
    (∀ a, a < off - 0x1000 ∨ off - 0x1000 + n ≤ a → t.inByte a = s.inByte a) ∧
      (∀ r : Reg, t.readReg r = s.readReg r) ∧ (∀ a, memGet t.outBuf a = memGet s.outBuf a) ∧
      t = { s with inBuf := t.inBuf, busRsp := some ⟨0, false⟩ }) ∧
    ∀ (s : State) (off n : Nat) (v : Word), 0x2000 ≤ off → off < 0x3000 → n < 8 →
      s.busWrite off n v = { s with busRsp := some ⟨0, false⟩ }

/-- R54: a host read changes no register, no buffer byte, written or not (R45), and no hidden register, takes no sample and no
RNG answer, and sends no request. What may differ is the answer on the bus (log entry 18), the record of unsupported accesses
(R52) and the count of OUT_BUF draws (log entry 7). -/
def Obligations.ReadsHaveNoSideEffect : Prop :=
  ∀ (s : State) (off n : Nat),
    let t := s.busRead off n
    (∀ r : Reg, t.readReg r = s.readReg r) ∧ (∀ i, t.inByte i = s.inByte i) ∧
      (∀ i, t.outDefined i = s.outDefined i ∧ memGet t.outBuf i = memGet s.outBuf i) ∧ t.latchedCmd = s.latchedCmd ∧
      t.tBase = s.tBase ∧ t.key = s.key ∧ t.winI = s.winI ∧ t.genI = s.genI ∧ SameHmac s t ∧ SameRng s t ∧
      t = { s with busRsp := t.busRsp, unsupported := t.unsupported, outDraws := t.outDraws }

/-- R41, R140: the hidden registers, the decoded key among them, are not host-visible: two states that agree on everything
else give the same answer to every read. -/
def Obligations.HiddenStateIsInvisible : Prop :=
  ∀ s t : State, SameVisible s t → SameView s t

/-- R23, R147: without a host write and without reset no step changes an operand register or CTRL; R38, R45: nor an IN_BUF byte,
be it written or fixed at the last reset. No step changes a parameter (R7). The tape is the model's (log entry 2), and so is
how an unwritten byte is drawn (log entry 8). -/
def Obligations.OnlyHostOrResetChangesOperands : Prop :=
  ∀ s t : State, step s = .next t →
    t.params = s.params ∧
      ((∀ a n v, s.events.head? ≠ some (.access (.write a n v))) → (∀ l, s.events.head? ≠ some (.rst l)) →
        t.irqEn = s.irqEn ∧ t.inLen = s.inLen ∧ t.genLen = s.genLen ∧ t.discrepancy = s.discrepancy ∧
          t.candLen = s.candLen ∧ t.cand0 = s.cand0 ∧ t.cand1 = s.cand1 ∧ t.tstepLo = s.tstepLo ∧
          t.tstepHi = s.tstepHi ∧ t.inBuf = s.inBuf ∧ ∀ i, t.inByte i = s.inByte i)

/-! ## The host's notation (30_encoding.md) -/

/-- R75: the `writes` shorthand puts the bytes of the string at IN[0 .. len) and its length in IN_LEN, one step an
access (the tape is the model's, log entry 2). -/
def Obligations.WritesShorthandFillsInBuf : Prop :=
  ∀ (s : State) (str : List Byte), s.phase = .idle → s.rst = false → s.params.wellFormed = true →
    str.length ≤ s.params.inCap → s.events = programEvents s.params (writesIn str) →
    ∃ t, Host.Core.run core (writesIn str).length s = .next t ∧ t.text = str ∧ t.phase = .idle ∧ t.events = []

/-- R76: the assembler refuses a discrepancy, a length, a step or a string for which the core has no encoding, whatever the
other arguments, and expands every call in range into the lines of R76, defaults written out. These are the
model's: that a byte list of `encodeBase32` is refused as a string is (log entry 30); that a candidate is refused from 2^32
bytes on and not past P_IN_CAP (log entry 22); a step without a discrepancy, a form R76 does not list, whose discrepancy is 1
(log entry 28); the number of polls (log entry 20). -/
def Obligations.AssemblerRefusesUnencodable : Prop :=
  ∀ (p : Params) (k : Nat) (s c : List Byte),
    ((∀ (d : Int) (t : Option Int), d < 0 ∨ 255 < d → ∃ r, assemble p k (.verifyCode s c (some d) t) = .error r) ∧
      (∀ l : Int, l < 0 ∨ 2 ^ 32 ≤ l → ∃ r, assemble p k (.generateSecret (some l)) = .error r) ∧
      (∀ t : Int, t < 0 ∨ 2 ^ 64 ≤ t → (∃ r, assemble p k (.computeCode s (some t)) = .error r) ∧
        ∀ d : Option Int, ∃ r, assemble p k (.verifyCode s c d (some t)) = .error r) ∧
      (p.inCap < s.length → (∃ r, assemble p k (.decodeBase32 s) = .error r) ∧
        (∃ r, assemble p k (.encodeBase32 s) = .error r) ∧
        (∀ t : Option Int, ∃ r, assemble p k (.computeCode s t) = .error r) ∧
        ∀ d t : Option Int, ∃ r, assemble p k (.verifyCode s c d t) = .error r)) ∧
      (assemble p k (.generateSecret none) = assemble p k (.generateSecret (some 16)) ∧
        ∀ l : Int, 0 ≤ l → l < 2 ^ 32 → assemble p k (.generateSecret (some l)) =
          .ok [.write .genLen (BitVec.ofInt 32 l), .cmd (.gensecret false), .wait k]) ∧
      (s.length ≤ p.inCap →
        assemble p k (.decodeBase32 s) = .ok (writesIn s ++ [.cmd (.decode false), .wait k]) ∧
        assemble p k (.encodeBase32 s) =
          .ok (((List.range s.length).map fun i => HostLine.writeb i (s.getD i 0)) ++
            [.write .inLen (BitVec.ofNat 32 s.length), .cmd (.encode false), .wait k]) ∧
        assemble p k (.computeCode s none) = .ok (writesIn s ++ [.cmd (.compute false), .wait k]) ∧
        (∀ t : Int, 0 ≤ t → t < 2 ^ 64 → assemble p k (.computeCode s (some t)) =
          .ok (writesIn s ++ [.write .tstepLo (BitVec.ofInt 32 t), .write .tstepHi (BitVec.ofInt 32 (t / 2 ^ 32)),
            .cmd (.compute true), .wait k])) ∧
        (c.length < 2 ^ 32 →
          (∀ t : Option Int, assemble p k (.verifyCode s c none t) = assemble p k (.verifyCode s c (some 1) t)) ∧
          ∀ d : Int, 0 ≤ d → d ≤ 255 →
            let lines := writesIn s ++ [.write .candLen (BitVec.ofNat 32 c.length),
              .write .cand0 (c.getD 3 0 ++ c.getD 2 0 ++ c.getD 1 0 ++ c.getD 0 0),
              .write .cand1 ((0 : BitVec 16) ++ c.getD 5 0 ++ c.getD 4 0), .write .discrepancy (BitVec.ofInt 32 d)]
            assemble p k (.verifyCode s c (some d) none) = .ok (lines ++ [.cmd (.verify false), .wait k]) ∧
            ∀ t : Int, 0 ≤ t → t < 2 ^ 64 → assemble p k (.verifyCode s c (some d) (some t)) =
              .ok (lines ++ [.write .tstepLo (BitVec.ofInt 32 t), .write .tstepHi (BitVec.ofInt 32 (t / 2 ^ 32)),
                .cmd (.verify true), .wait k])))

/-! ## Interrupt, reset and invariants -/

/-- R136, R137: `irq` is DONE and IRQ_EN, and follows both with no latch: every completion raises it while IRQ_EN is 1, whatever
its error; a write of 1 to STATUS bit 1 and an accept lower it; a write to CTRL gives it at once the level of the new IRQ_EN. -/
def Obligations.IrqIsALevel : Prop :=
  ∀ s : State, (s.irq = true ↔ s.done = true ∧ s.irqEn = true) ∧
    (∀ (e : Err) (r : Bool) (n : Nat), (s.finish e r n).irq = s.irqEn) ∧
    (∀ v : Word, v.getLsbD 1 = true → (s.writeReg .status v).irq = false) ∧
    (∀ w : Word, s.phase = .idle → (s.writeReg .cmd w).irq = false) ∧
    (∀ v : Word, (s.writeReg .ctrl v).irq = (s.done && v.getLsbD 0))

/-- R44: what reset leaves in every register the spec gives a value for. -/
def Obligations.ResetRegisterValues : Prop :=
  let s := State.reset
  s.readReg .status = 0 ∧ s.readReg .ctrl = 0 ∧ s.readReg .inLen = 0 ∧ s.readReg .outLen = 0 ∧ s.readReg .candLen = 0 ∧
    s.readReg .cand0 = 0 ∧ s.readReg .cand1 = 0 ∧ s.readReg .genLen = 16 ∧ s.readReg .discrepancy = 1 ∧
    s.readReg .tstepLo = 0 ∧ s.readReg .tstepHi = 0 ∧ s.readReg .stepUsedLo = 0 ∧ s.readReg .stepUsedHi = 0 ∧
    s.readReg .caps = 0x01A00100 ∧ s.phase = .idle ∧ s.hmacReq = none ∧ s.rngReq = false ∧ s.irq = false

/-- R147, R148: an `rst` event that asserts, holds or releases the input, in either phase, gives every register its reset value,
leaves the core IDLE with no request in flight, `irq` low, no IN_BUF byte that the host wrote (R45) and no defined OUT_BUF byte;
a running command is abandoned, DONE not set. A level of 0 where it was 0 changes nothing. The tape is the model's (log
entry 2), and so is that each such event resets anew (log entry 23). -/
def Obligations.ResetAbandonsCommand : Prop :=
  ∀ (s : State) (level : Bool) (rest : List Event), s.events = .rst level :: rest →
    (level = true ∨ s.rst = true →
      ∃ t, step s = .next t ∧ t.phase = .idle ∧ t.done = false ∧ t.result = false ∧ t.err = .none ∧
        (∀ r ∈ ([.cmd, .status, .ctrl, .inLen, .outLen, .candLen, .cand0, .cand1, .tstepLo, .tstepHi, .stepUsedLo,
          .stepUsedHi] : List Reg), t.readReg r = 0) ∧
        t.readReg .genLen = 16 ∧ t.readReg .discrepancy = 1 ∧ t.readReg .caps = s.readReg .caps ∧ t.params = s.params ∧
        t.hmacReq = none ∧ t.rngReq = false ∧ t.irq = false ∧ t.rst = level ∧ t.events = rest ∧
        (∀ i, memGet t.inBuf i = none) ∧ ∀ i, t.outDefined i = false) ∧
      (level = false → s.rst = false → step s = .next { s with events := rest })

/-- The two invariants hold right after reset. The values of the hidden registers and of the model's own fields in it are the
model's choice (log entries 9, 17, 21). -/
def Obligations.InvariantsHoldAtReset : Prop :=
  Inv State.reset ∧ PortInv State.reset

/-- Every step keeps the invariant of the host-visible state and of the hidden registers: among it, that an IDLE core keeps
nothing of a command but what the host can see (R18; the values that stand for "nothing" are log entry 21's). -/
def Obligations.StepKeepsInv : Prop :=
  ∀ s t : State, Inv s → step s = .next t → Inv t

/-- Every step keeps the invariant of the ports, the bounds on requests of R156 among it. -/
def Obligations.StepKeepsPortInv : Prop :=
  ∀ s t : State, PortInv s → step s = .next t → PortInv t
end

