-- ==== Sys2Proof/Laws/Bytes.lean ====
section
/-! SUPPORT. The laws of the byte-sequence helpers: lengths, bounds, and that `be_bytes` and `be_uint` are inverse. -/

namespace Sys2Proof.Machine

@[simp] theorem beBytes_length (n v : Nat) : (beBytes n v).length = n := by simp [beBytes]

@[simp] theorem beBytes_zero (v : Nat) : beBytes 0 v = [] := rfl

/-- The last byte of `be_bytes` is the least significant one. -/
theorem beBytes_succ (n v : Nat) : beBytes (n + 1) v = beBytes n (v / 256) ++ [BitVec.ofNat 8 v] := by
  simp only [beBytes, List.range_succ, List.map_append, List.map_cons, List.map_nil]
  congr 1
  · refine List.map_congr_left fun i hi => ?_
    rw [List.mem_range] at hi
    rw [Nat.shiftRight_eq_div_pow, Nat.shiftRight_eq_div_pow, Nat.div_div_eq_div_mul]
    congr 2
    rw [show 8 * (n + 1 - 1 - i) = 8 + 8 * (n - 1 - i) by omega, Nat.pow_add]
  · simp

@[simp] theorem beUint_nil : beUint [] = 0 := rfl

theorem beUint_append_singleton (s : List Byte) (b : Byte) : beUint (s ++ [b]) = beUint s * 256 + b.toNat := by
  simp [beUint]

/-- `be_uint` of `n` bytes is below `2^(8n)`. -/
theorem beUint_lt (s : List Byte) : beUint s < 256 ^ s.length := by
  induction s using List.reverseRecOn with
  | nil => simp
  | append_singleton s b ih =>
    rw [beUint_append_singleton, List.length_append, List.length_singleton, Nat.pow_succ]
    have := b.isLt
    omega

/-- The bytes of a number, read back. -/
theorem beUint_beBytes (n v : Nat) (h : v < 256 ^ n) : beUint (beBytes n v) = v := by
  induction n generalizing v with
  | zero => simp at h; simp [h]
  | succ n ih =>
    rw [beBytes_succ, beUint_append_singleton, ih]
    · simp; omega
    · rw [Nat.pow_succ] at h; omega

/-- A byte sequence, through the number it stands for, and back. -/
theorem beBytes_beUint (s : List Byte) : beBytes s.length (beUint s) = s := by
  induction s using List.reverseRecOn with
  | nil => rfl
  | append_singleton s b ih =>
    have hb := b.isLt
    rw [List.length_append, List.length_singleton, beBytes_succ, beUint_append_singleton,
      show (beUint s * 256 + b.toNat) / 256 = beUint s by omega, ih]
    congr 2
    apply BitVec.eq_of_toNat_eq
    simp; omega

/-- Distinct numbers below `256^n` have distinct bytes. -/
theorem beBytes_injective {n v w : Nat} (hv : v < 256 ^ n) (hw : w < 256 ^ n) (h : beBytes n v = beBytes n w) :
    v = w := by
  rw [← beUint_beBytes n v hv, ← beUint_beBytes n w hw, h]

theorem slice_length {α : Type} (s : List α) (i j : Nat) (h : j ≤ s.length) : (slice s i j).length = j - i := by
  simp [slice]; omega

theorem slice_zero {α : Type} (s : List α) (j : Nat) : slice s 0 j = s.take j := by simp [slice]

/-- `f` on the chunks of `k` of a sequence, joined. -/
def chunked (k : Nat) (f : List Byte → List Byte) (l : List Byte) : List Byte :=
  (List.range (ceilDiv l.length k)).flatMap fun c => f (slice l (k * c) (min (k * c + k) l.length))

theorem chunked_nil (k : Nat) (hk : 0 < k) (f : List Byte → List Byte) : chunked k f [] = [] := by
  have : ceilDiv 0 k = 0 := by unfold ceilDiv; exact Nat.div_eq_of_lt (by omega)
  simp [chunked, this]

theorem ceilDiv_sub (n k : Nat) (hk : 0 < k) (hn : 0 < n) : ceilDiv n k = ceilDiv (n - k) k + 1 := by
  unfold ceilDiv
  by_cases h : k ≤ n
  · rw [show n + k - 1 = (n - k + k - 1) + k by omega, Nat.add_div_right _ hk]
  · rw [show n - k + k - 1 = k - 1 by omega, Nat.div_eq_of_lt (by omega : k - 1 < k),
      show n + k - 1 = (n - 1) + k by omega, Nat.add_div_right _ hk, Nat.div_eq_of_lt (by omega)]

/-- The first chunk, then the rest. -/
theorem chunked_step (k : Nat) (hk : 0 < k) (f : List Byte → List Byte) (l : List Byte) (hl : l ≠ []) :
    chunked k f l = f (l.take k) ++ chunked k f (l.drop k) := by
  have hpos : 0 < l.length := List.length_pos_iff.2 hl
  unfold chunked
  rw [ceilDiv_sub _ k hk hpos, List.range_succ_eq_map, List.flatMap_cons, List.flatMap_map, List.length_drop]
  congr 1
  · congr 1
    simp only [slice, Nat.mul_zero, Nat.zero_add, List.drop_zero, Nat.sub_zero, List.take_eq_take_iff]
    omega
  · congr 1
    funext c
    congr 1
    unfold slice
    rw [List.drop_drop, show k * c.succ = k + k * c by rw [Nat.mul_succ]; omega,
      List.take_eq_take_iff, List.length_drop]
    omega

end Sys2Proof.Machine
end

