-- ==== Sys2Proof/Laws/Base32.lean ====
section
/-! SUPPORT. The laws of the Base32 codec's parts: symbols, groups and chunks. -/

namespace Sys2Proof.Machine

theorem decodeChunks_eq (p : PartialChunk) (t : List Byte) : decodeChunks p t = chunked 8 (chunkBytes p) t := rfl

theorem base32Encode_eq (b : List Byte) : base32Encode b = chunked 5 encodeGroup b := rfl

/-- Every data symbol has its index as value. -/
theorem symValue_symbol (v : Nat) (h : v < 32) : symValue (symbol v) = some v := by
  revert v; decide

theorem symValue_pad : symValue padByte = none := by decide

/-- No data symbol is the pad symbol. -/
theorem symbol_ne_pad (v : Nat) (h : v < 32) : symbol v ≠ padByte := by
  revert v; decide

theorem symValue_lt {b : Byte} {v : Nat} (h : symValue b = some v) : v < 32 := by
  unfold symValue at h
  split at h
  · simp at h; omega
  · split at h
    · simp at h; omega
    · simp at h

theorem chunkSym_lt (chunk : List Byte) (j : Nat) : chunkSym chunk j < 32 := by
  unfold chunkSym
  split
  · next b _ =>
    cases h : symValue b with
    | none => simp
    | some v => simpa using symValue_lt h
  · omega

/-- One more symbol in the 40-bit accumulator, as a number. -/
theorem acc_step (acc : BitVec 40) (v : Nat) (ha : acc.toNat < 2 ^ 35) (hv : v < 32) :
    ((acc <<< 5) ||| BitVec.ofNat 40 v).toNat = acc.toNat * 32 + v := by
  rw [BitVec.toNat_or, BitVec.toNat_shiftLeft, BitVec.toNat_ofNat, Nat.mod_eq_of_lt (by omega : v < 2 ^ 40),
    Nat.shiftLeft_eq, Nat.mod_eq_of_lt (by omega)]
  have := Nat.two_pow_add_eq_or_of_lt (i := 5) (b := v) (by simpa using hv) acc.toNat
  rw [Nat.mul_comm] at this
  omega

/-- The accumulator of a chunk as a number: symbol `j` has weight `32^(7-j)` (R82). -/
theorem chunkAcc_toNat (chunk : List Byte) :
    (chunkAcc chunk).toNat =
      ((((((chunkSym chunk 0 * 32 + chunkSym chunk 1) * 32 + chunkSym chunk 2) * 32 + chunkSym chunk 3) * 32
        + chunkSym chunk 4) * 32 + chunkSym chunk 5) * 32 + chunkSym chunk 6) * 32 + chunkSym chunk 7 := by
  have h0 := chunkSym_lt chunk 0
  have h1 := chunkSym_lt chunk 1
  have h2 := chunkSym_lt chunk 2
  have h3 := chunkSym_lt chunk 3
  have h4 := chunkSym_lt chunk 4
  have h5 := chunkSym_lt chunk 5
  have h6 := chunkSym_lt chunk 6
  have h7 := chunkSym_lt chunk 7
  have e : chunkAcc chunk = (List.range 8).foldl
    (fun (acc : BitVec 40) j => (acc <<< 5) ||| BitVec.ofNat 40 (chunkSym chunk j)) 0 := rfl
  have r : List.range 8 = [0, 1, 2, 3, 4, 5, 6, 7] := rfl
  rw [e, r]
  simp only [List.foldl_cons, List.foldl_nil]
  generalize chunkSym chunk 0 = a0 at *
  generalize chunkSym chunk 1 = a1 at *
  generalize chunkSym chunk 2 = a2 at *
  generalize chunkSym chunk 3 = a3 at *
  generalize chunkSym chunk 4 = a4 at *
  generalize chunkSym chunk 5 = a5 at *
  generalize chunkSym chunk 6 = a6 at *
  generalize chunkSym chunk 7 = a7 at *
  have s0 := acc_step 0 a0 (by simp) h0
  generalize (0 : BitVec 40) <<< 5 ||| BitVec.ofNat 40 a0 = b0 at *
  simp at s0
  have s1 := acc_step b0 a1 (by omega) h1
  generalize b0 <<< 5 ||| BitVec.ofNat 40 a1 = b1 at *
  have s2 := acc_step b1 a2 (by omega) h2
  generalize b1 <<< 5 ||| BitVec.ofNat 40 a2 = b2 at *
  have s3 := acc_step b2 a3 (by omega) h3
  generalize b2 <<< 5 ||| BitVec.ofNat 40 a3 = b3 at *
  have s4 := acc_step b3 a4 (by omega) h4
  generalize b3 <<< 5 ||| BitVec.ofNat 40 a4 = b4 at *
  have s5 := acc_step b4 a5 (by omega) h5
  generalize b4 <<< 5 ||| BitVec.ofNat 40 a5 = b5 at *
  have s6 := acc_step b5 a6 (by omega) h6
  generalize b5 <<< 5 ||| BitVec.ofNat 40 a6 = b6 at *
  have s7 := acc_step b6 a7 (by omega) h7
  omega

/-- A chunk gives five bytes, or the whole bytes of its symbols (R82, R90). -/
theorem chunkBytes_length (p : PartialChunk) (chunk : List Byte) :
    (chunkBytes p chunk).length =
      match p with
      | .zeroFillFive => 5
      | .rfc4648Discard => min (5 * chunk.length / 8) 5 := by
  cases p <;> simp [chunkBytes]

theorem chunkBytes_length_le (p : PartialChunk) (chunk : List Byte) : (chunkBytes p chunk).length ≤ 5 := by
  rw [chunkBytes_length]; cases p <;> simp

/-- The 40-bit number of a group (R86). -/
def groupAcc (grp : List Byte) : Nat := beUint (grp ++ List.replicate (5 - grp.length) 0)

theorem groupAcc_lt (grp : List Byte) (h : grp.length ≤ 5) : groupAcc grp < 2 ^ 40 := by
  have := beUint_lt (grp ++ List.replicate (5 - grp.length) 0)
  simp only [List.length_append, List.length_replicate] at this
  rw [show grp.length + (5 - grp.length) = 5 by omega] at this
  exact this

/-- Data symbol `j` of a group (R86). -/
def groupSym (grp : List Byte) (j : Nat) : Nat := (groupAcc grp >>> (35 - 5 * j)) &&& 0x1F

theorem groupSym_eq (grp : List Byte) (j : Nat) : groupSym grp j = groupAcc grp / 2 ^ (35 - 5 * j) % 32 := by
  unfold groupSym
  rw [Nat.shiftRight_eq_div_pow, show (0x1F : Nat) = 2 ^ 5 - 1 by rfl, Nat.and_two_pow_sub_one_eq_mod]

theorem groupSym_lt (grp : List Byte) (j : Nat) : groupSym grp j < 32 := by
  rw [groupSym_eq]; omega

/-- The data symbols of a group, without its padding. -/
def groupText (grp : List Byte) : List Byte := (List.range (groupSyms grp.length)).map fun j => symbol (groupSym grp j)

theorem encodeGroup_eq (grp : List Byte) :
    encodeGroup grp = groupText grp ++ List.replicate (8 - groupSyms grp.length) padByte := rfl

@[simp] theorem groupText_length (grp : List Byte) : (groupText grp).length = groupSyms grp.length := by
  simp [groupText]

theorem groupText_valid (grp : List Byte) : ∀ b ∈ groupText grp, (symValue b).isSome ∧ b ≠ padByte := by
  intro b hb
  obtain ⟨j, -, rfl⟩ := List.mem_map.1 hb
  exact ⟨by rw [symValue_symbol _ (groupSym_lt grp j)]; rfl, symbol_ne_pad _ (groupSym_lt grp j)⟩

theorem groupSyms_le (r : Nat) : groupSyms r ≤ 8 := by
  unfold groupSyms
  match r with
  | 0 => decide
  | 1 => decide
  | 2 => decide
  | 3 => decide
  | 4 => decide
  | 5 => decide
  | n + 6 => simp

theorem encodeGroup_length (grp : List Byte) : (encodeGroup grp).length = 8 := by
  have := groupSyms_le grp.length
  rw [encodeGroup_eq]; simp; omega

theorem beUint_append_zeros (s : List Byte) (k : Nat) : beUint (s ++ List.replicate k 0) = beUint s * 256 ^ k := by
  induction k with
  | zero => simp
  | succ k ih =>
    rw [List.replicate_succ', ← List.append_assoc, beUint_append_singleton, ih, Nat.pow_succ]
    simp [Nat.mul_assoc]

theorem groupAcc_eq (grp : List Byte) : groupAcc grp = beUint grp * 256 ^ (5 - grp.length) := beUint_append_zeros _ _

theorem chunkSym_groupText (grp : List Byte) (j : Nat) :
    chunkSym (groupText grp) j = if j < groupSyms grp.length then groupSym grp j else 0 := by
  unfold chunkSym groupText
  by_cases h : j < groupSyms grp.length
  · rw [if_pos h]
    simp [h, symValue_symbol _ (groupSym_lt grp j)]
  · rw [if_neg h]
    simp [h]

/-- The symbols of a group give back its 40 bits: the symbols that are left out were 0 (R82, R86). -/
theorem chunkAcc_groupText (grp : List Byte) (h1 : 1 ≤ grp.length) (h5 : grp.length ≤ 5) :
    (chunkAcc (groupText grp)).toNat = groupAcc grp := by
  have hlt := beUint_lt grp
  rw [chunkAcc_toNat]
  simp only [chunkSym_groupText, groupSym_eq, groupAcc_eq]
  obtain h | h | h | h | h : grp.length = 1 ∨ grp.length = 2 ∨ grp.length = 3 ∨ grp.length = 4 ∨ grp.length = 5 := by
    omega
  all_goals
    rw [h] at hlt ⊢
    simp [groupSyms] at hlt ⊢
    omega

/-- DECODE of one group's symbols gives the group and zeros up to five bytes (R82, R86). -/
theorem chunkBytes_groupText (grp : List Byte) (h1 : 1 ≤ grp.length) (h5 : grp.length ≤ 5) :
    chunkBytes .zeroFillFive (groupText grp) = grp ++ List.replicate (5 - grp.length) 0 := by
  show beBytes 5 (chunkAcc (groupText grp)).toNat = _
  rw [chunkAcc_groupText grp h1 h5]
  have := beBytes_beUint (grp ++ List.replicate (5 - grp.length) 0)
  rw [List.length_append, List.length_replicate, show grp.length + (5 - grp.length) = 5 by omega] at this
  exact this

/-- Under RFC4648_DISCARD the same symbols give the group alone (R90). -/
theorem chunkBytes_groupText_discard (grp : List Byte) (h1 : 1 ≤ grp.length) (h5 : grp.length ≤ 5) :
    chunkBytes .rfc4648Discard (groupText grp) = grp := by
  have h := chunkBytes_groupText grp h1 h5
  show (chunkBytes .zeroFillFive (groupText grp)).take _ = grp
  rw [h, groupText_length]
  have : 5 * groupSyms grp.length / 8 = grp.length := by
    obtain h | h | h | h | h : grp.length = 1 ∨ grp.length = 2 ∨ grp.length = 3 ∨ grp.length = 4 ∨ grp.length = 5 := by
      omega
    all_goals rw [h]; decide
  rw [this, List.take_left]

/-- Eight digits in base 32, written out (R82, R86). -/
theorem digitsValue_symbols (f : Nat → Nat) :
    digitsValue 32 8 f =
      ((((((f 0 * 32 + f 1) * 32 + f 2) * 32 + f 3) * 32 + f 4) * 32 + f 5) * 32 + f 6) * 32 + f 7 := by
  simp [digitsValue, List.range_succ]

/-- Up to five bytes as five digits in base 256 are `be_uint` of them, zero-filled (R82, R86). -/
theorem digitsValue_bytes (g : List Byte) (h : g.length ≤ 5) :
    digitsValue 256 5 (fun i => (g.getD i 0).toNat) = beUint (g ++ List.replicate (5 - g.length) 0) := by
  rcases g with _ | ⟨a, _ | ⟨b, _ | ⟨c, _ | ⟨d, _ | ⟨e, _ | ⟨f, g⟩⟩⟩⟩⟩⟩
  all_goals first
    | simp [digitsValue, List.range_succ, beUint, List.replicate_succ]; done
    | simp at h; omega

end Sys2Proof.Machine
end

