-- ==== Sys2Proof/Laws/Memory.lean ====
section
/-! SUPPORT. The laws of the byte store: a read after a write, and that a write keeps the canonical form. -/

namespace Sys2Proof.Machine

/-- Both buffers of the reset state are canonical: they list nothing. -/
theorem reset_wf : Memory.wf State.reset.inBuf ∧ Memory.wf State.reset.outBuf := by
  constructor <;> exact List.Pairwise.nil

@[simp] theorem memGet_nil (a : Nat) : memGet [] a = none := rfl

/-- In a canonical memory whose entries all lie above `a`, index `a` is not written. -/
theorem memGet_none_of_lt {m : Memory} {a : Nat} (h : ∀ c ∈ m, a < c.1) : memGet m a = none := by
  induction m with
  | nil => rfl
  | cons c r ih =>
    have hc := h c (by simp)
    rw [memGet, if_neg (by omega)]
    exact ih fun d hd => h d (by simp [hd])

/-- A read gives the last byte written to its index and is blind to every other write. -/
theorem memGet_memSet (m : Memory) (a a' : Nat) (b : Byte) :
    memGet (memSet m a b) a' = if a' = a then some b else memGet m a' := by
  induction m with
  | nil =>
    by_cases h : a' = a
    · simp [memSet, memGet, h]
    · simp [memSet, memGet, h, Ne.symm h]
  | cons c r ih =>
    simp only [memSet]
    by_cases h : a' = a
    · subst h
      by_cases hlt : a' < c.1
      · simp [hlt, memGet]
      · by_cases heq : a' = c.1
        · rw [if_neg hlt, if_pos heq]; simp [memGet]
        · rw [if_neg hlt, if_neg heq, memGet, if_neg (by omega), ih, if_pos rfl, if_pos rfl]
    · rw [if_neg h] at ih ⊢
      by_cases hlt : a < c.1
      · rw [if_pos hlt, memGet, if_neg (by simpa using Ne.symm h)]
      · by_cases heq : a = c.1
        · rw [if_neg hlt, if_pos heq, memGet, if_neg (by simpa using Ne.symm h), memGet,
            if_neg (by rw [← heq]; exact Ne.symm h)]
        · rw [if_neg hlt, if_neg heq, memGet, memGet, ih]

@[simp] theorem memGet_memSet_self (m : Memory) (a : Nat) (b : Byte) : memGet (memSet m a b) a = some b := by
  rw [memGet_memSet, if_pos rfl]

theorem memGet_memSet_of_ne (m : Memory) {a a' : Nat} (b : Byte) (h : a' ≠ a) :
    memGet (memSet m a b) a' = memGet m a' := by
  rw [memGet_memSet, if_neg h]

/-- The indices a write lists are the old ones and its own. -/
theorem mem_memSet {m : Memory} {a : Nat} {b : Byte} {c : Host.Cell} (h : c ∈ memSet m a b) : c ∈ m ∨ c = (a, b) := by
  induction m with
  | nil => simp_all [memSet]
  | cons d r ih =>
    simp only [memSet] at h
    split at h
    · simp only [List.mem_cons] at h ⊢; tauto
    · split at h
      · simp only [List.mem_cons] at h ⊢; tauto
      · simp only [List.mem_cons] at h ⊢
        rcases h with h | h
        · tauto
        · have := ih h; tauto

/-- A write keeps the canonical form. -/
theorem memSet_wf {m : Memory} (h : Memory.wf m) (a : Nat) (b : Byte) : Memory.wf (memSet m a b) := by
  induction m with
  | nil => simp [memSet, Memory.wf]
  | cons c r ih =>
    obtain ⟨hc, hr⟩ := List.pairwise_cons.1 h
    simp only [memSet]
    split
    · next hlt =>
      refine List.pairwise_cons.2 ⟨fun d hd => ?_, h⟩
      rcases List.mem_cons.1 hd with rfl | hd
      · exact hlt
      · exact Nat.lt_trans hlt (hc d hd)
    · split
      · next heq =>
        exact List.pairwise_cons.2 ⟨fun d hd => by subst heq; exact hc d hd, hr⟩
      · refine List.pairwise_cons.2 ⟨fun d hd => ?_, ih hr⟩
        rcases mem_memSet hd with hd | rfl
        · exact hc d hd
        · show c.1 < a; omega

/-- Writing below a bound keeps every index below it. -/
theorem memSet_bound {m : Memory} {n a : Nat} (h : ∀ c ∈ m, c.1 < n) (ha : a < n) (b : Byte) :
    ∀ c ∈ memSet m a b, c.1 < n := by
  intro c hc
  rcases mem_memSet hc with hc | rfl
  · exact h c hc
  · exact ha

/-- A run of writes, read back: its own bytes inside it, the old ones outside. -/
theorem memGet_memSetFrom (m : Memory) (a : Nat) (bs : List Byte) (i : Nat) :
    memGet (memSetFrom m a bs) i = if a ≤ i ∧ i < a + bs.length then bs[i - a]? else memGet m i := by
  induction bs generalizing m a with
  | nil => simp only [memSetFrom, List.length_nil]; rw [if_neg (by omega)]
  | cons b r ih =>
    rw [memSetFrom, ih, memGet_memSet]
    simp only [List.length_cons]
    by_cases h0 : i = a
    · subst h0; rw [if_neg (by omega), if_pos rfl, if_pos (by omega)]; simp
    · by_cases h1 : a + 1 ≤ i ∧ i < a + 1 + r.length
      · rw [if_pos h1, if_pos (by omega)]
        have : i - a = (i - (a + 1)) + 1 := by omega
        rw [this, List.getElem?_cons_succ]
      · rw [if_neg h1, if_neg h0, if_neg (by omega)]

theorem memSetFrom_wf {m : Memory} (h : Memory.wf m) (a : Nat) (bs : List Byte) : Memory.wf (memSetFrom m a bs) := by
  induction bs generalizing m a with
  | nil => exact h
  | cons b r ih => exact ih (memSet_wf h a b) (a + 1)

theorem memSetFrom_bound {m : Memory} {n a : Nat} {bs : List Byte} (h : ∀ c ∈ m, c.1 < n) (ha : a + bs.length ≤ n) :
    ∀ c ∈ memSetFrom m a bs, c.1 < n := by
  induction bs generalizing m a with
  | nil => exact h
  | cons b r ih =>
    simp only [List.length_cons] at ha
    exact ih (memSet_bound h (by omega) b) (by omega)

end Sys2Proof.Machine
end

