-- ==== Sys2Proof/Laws/State.lean ====
section
/-! SUPPORT. What each update of the state does to each field, so that no proof unfolds a record update. -/

namespace Sys2Proof.Machine.State

variable (s : State)

/-! `forget` -/
@[simp] theorem forget_phase : (s.forget).phase = s.phase := rfl
@[simp] theorem forget_done : (s.forget).done = s.done := rfl
@[simp] theorem forget_result : (s.forget).result = s.result := rfl
@[simp] theorem forget_err : (s.forget).err = s.err := rfl
@[simp] theorem forget_irqEn : (s.forget).irqEn = s.irqEn := rfl
@[simp] theorem forget_inLen : (s.forget).inLen = s.inLen := rfl
@[simp] theorem forget_outLen : (s.forget).outLen = s.outLen := rfl
@[simp] theorem forget_genLen : (s.forget).genLen = s.genLen := rfl
@[simp] theorem forget_discrepancy : (s.forget).discrepancy = s.discrepancy := rfl
@[simp] theorem forget_candLen : (s.forget).candLen = s.candLen := rfl
@[simp] theorem forget_cand0 : (s.forget).cand0 = s.cand0 := rfl
@[simp] theorem forget_cand1 : (s.forget).cand1 = s.cand1 := rfl
@[simp] theorem forget_tstepLo : (s.forget).tstepLo = s.tstepLo := rfl
@[simp] theorem forget_tstepHi : (s.forget).tstepHi = s.tstepHi := rfl
@[simp] theorem forget_stepUsedLo : (s.forget).stepUsedLo = s.stepUsedLo := rfl
@[simp] theorem forget_stepUsedHi : (s.forget).stepUsedHi = s.stepUsedHi := rfl
@[simp] theorem forget_inBuf : (s.forget).inBuf = s.inBuf := rfl
@[simp] theorem forget_outBuf : (s.forget).outBuf = s.outBuf := rfl
@[simp] theorem forget_latchedCmd : (s.forget).latchedCmd = 0 := rfl
@[simp] theorem forget_tBase : (s.forget).tBase = 0 := rfl
@[simp] theorem forget_key : (s.forget).key = [] := rfl
@[simp] theorem forget_winI : (s.forget).winI = 0 := rfl
@[simp] theorem forget_hmacReq : (s.forget).hmacReq = s.hmacReq := rfl
@[simp] theorem forget_rngReq : (s.forget).rngReq = s.rngReq := rfl
@[simp] theorem forget_rst : (s.forget).rst = s.rst := rfl
@[simp] theorem forget_unsupported : (s.forget).unsupported = s.unsupported := rfl
@[simp] theorem forget_params : (s.forget).params = s.params := rfl
@[simp] theorem forget_busRsp : (s.forget).busRsp = s.busRsp := rfl
@[simp] theorem forget_genI : (s.forget).genI = 0 := rfl
@[simp] theorem forget_hmacSent : (s.forget).hmacSent = s.hmacSent := rfl
@[simp] theorem forget_rngSent : (s.forget).rngSent = s.rngSent := rfl
@[simp] theorem forget_events : (s.forget).events = s.events := rfl
@[simp] theorem forget_clockFeed : (s.forget).clockFeed = s.clockFeed := rfl
@[simp] theorem forget_rngFeed : (s.forget).rngFeed = s.rngFeed := rfl
@[simp] theorem forget_hmacLeft : (s.forget).hmacLeft = s.hmacLeft := rfl
@[simp] theorem forget_rngLeft : (s.forget).rngLeft = s.rngLeft := rfl
@[simp] theorem forget_clockDraws : (s.forget).clockDraws = s.clockDraws := rfl
@[simp] theorem forget_rngDraws : (s.forget).rngDraws = s.rngDraws := rfl
@[simp] theorem forget_outDraws : (s.forget).outDraws = s.outDraws := rfl
@[simp] theorem forget_resets : (s.forget).resets = s.resets := rfl

/-! `finish` -/
@[simp] theorem finish_phase (e : Err) (r : Bool) (n : Nat) : (s.finish e r n).phase = .idle := rfl
@[simp] theorem finish_done (e : Err) (r : Bool) (n : Nat) : (s.finish e r n).done = true := rfl
@[simp] theorem finish_result (e : Err) (r : Bool) (n : Nat) : (s.finish e r n).result = r := rfl
@[simp] theorem finish_err (e : Err) (r : Bool) (n : Nat) : (s.finish e r n).err = e := rfl
@[simp] theorem finish_irqEn (e : Err) (r : Bool) (n : Nat) : (s.finish e r n).irqEn = s.irqEn := rfl
@[simp] theorem finish_inLen (e : Err) (r : Bool) (n : Nat) : (s.finish e r n).inLen = s.inLen := rfl
@[simp] theorem finish_outLen (e : Err) (r : Bool) (n : Nat) : (s.finish e r n).outLen = BitVec.ofNat 32 n := rfl
@[simp] theorem finish_genLen (e : Err) (r : Bool) (n : Nat) : (s.finish e r n).genLen = s.genLen := rfl
@[simp] theorem finish_discrepancy (e : Err) (r : Bool) (n : Nat) : (s.finish e r n).discrepancy = s.discrepancy := rfl
@[simp] theorem finish_candLen (e : Err) (r : Bool) (n : Nat) : (s.finish e r n).candLen = s.candLen := rfl
@[simp] theorem finish_cand0 (e : Err) (r : Bool) (n : Nat) : (s.finish e r n).cand0 = s.cand0 := rfl
@[simp] theorem finish_cand1 (e : Err) (r : Bool) (n : Nat) : (s.finish e r n).cand1 = s.cand1 := rfl
@[simp] theorem finish_tstepLo (e : Err) (r : Bool) (n : Nat) : (s.finish e r n).tstepLo = s.tstepLo := rfl
@[simp] theorem finish_tstepHi (e : Err) (r : Bool) (n : Nat) : (s.finish e r n).tstepHi = s.tstepHi := rfl
@[simp] theorem finish_stepUsedLo (e : Err) (r : Bool) (n : Nat) : (s.finish e r n).stepUsedLo = s.stepUsedLo := rfl
@[simp] theorem finish_stepUsedHi (e : Err) (r : Bool) (n : Nat) : (s.finish e r n).stepUsedHi = s.stepUsedHi := rfl
@[simp] theorem finish_inBuf (e : Err) (r : Bool) (n : Nat) : (s.finish e r n).inBuf = s.inBuf := rfl
@[simp] theorem finish_outBuf (e : Err) (r : Bool) (n : Nat) : (s.finish e r n).outBuf = s.outBuf := rfl
@[simp] theorem finish_latchedCmd (e : Err) (r : Bool) (n : Nat) : (s.finish e r n).latchedCmd = 0 := rfl
@[simp] theorem finish_tBase (e : Err) (r : Bool) (n : Nat) : (s.finish e r n).tBase = 0 := rfl
@[simp] theorem finish_key (e : Err) (r : Bool) (n : Nat) : (s.finish e r n).key = [] := rfl
@[simp] theorem finish_winI (e : Err) (r : Bool) (n : Nat) : (s.finish e r n).winI = 0 := rfl
@[simp] theorem finish_hmacReq (e : Err) (r : Bool) (n : Nat) : (s.finish e r n).hmacReq = s.hmacReq := rfl
@[simp] theorem finish_rngReq (e : Err) (r : Bool) (n : Nat) : (s.finish e r n).rngReq = s.rngReq := rfl
@[simp] theorem finish_rst (e : Err) (r : Bool) (n : Nat) : (s.finish e r n).rst = s.rst := rfl
@[simp] theorem finish_unsupported (e : Err) (r : Bool) (n : Nat) : (s.finish e r n).unsupported = s.unsupported := rfl
@[simp] theorem finish_params (e : Err) (r : Bool) (n : Nat) : (s.finish e r n).params = s.params := rfl
@[simp] theorem finish_busRsp (e : Err) (r : Bool) (n : Nat) : (s.finish e r n).busRsp = s.busRsp := rfl
@[simp] theorem finish_genI (e : Err) (r : Bool) (n : Nat) : (s.finish e r n).genI = 0 := rfl
@[simp] theorem finish_hmacSent (e : Err) (r : Bool) (n : Nat) : (s.finish e r n).hmacSent = s.hmacSent := rfl
@[simp] theorem finish_rngSent (e : Err) (r : Bool) (n : Nat) : (s.finish e r n).rngSent = s.rngSent := rfl
@[simp] theorem finish_events (e : Err) (r : Bool) (n : Nat) : (s.finish e r n).events = s.events := rfl
@[simp] theorem finish_clockFeed (e : Err) (r : Bool) (n : Nat) : (s.finish e r n).clockFeed = s.clockFeed := rfl
@[simp] theorem finish_rngFeed (e : Err) (r : Bool) (n : Nat) : (s.finish e r n).rngFeed = s.rngFeed := rfl
@[simp] theorem finish_hmacLeft (e : Err) (r : Bool) (n : Nat) : (s.finish e r n).hmacLeft = s.hmacLeft := rfl
@[simp] theorem finish_rngLeft (e : Err) (r : Bool) (n : Nat) : (s.finish e r n).rngLeft = s.rngLeft := rfl
@[simp] theorem finish_clockDraws (e : Err) (r : Bool) (n : Nat) : (s.finish e r n).clockDraws = s.clockDraws := rfl
@[simp] theorem finish_rngDraws (e : Err) (r : Bool) (n : Nat) : (s.finish e r n).rngDraws = s.rngDraws := rfl
@[simp] theorem finish_outDraws (e : Err) (r : Bool) (n : Nat) : (s.finish e r n).outDraws = s.outDraws := rfl
@[simp] theorem finish_resets (e : Err) (r : Bool) (n : Nat) : (s.finish e r n).resets = s.resets := rfl

/-! `raise` -/
@[simp] theorem raise_phase (e : Err) : (s.raise e).phase = .idle := rfl
@[simp] theorem raise_done (e : Err) : (s.raise e).done = true := rfl
@[simp] theorem raise_result (e : Err) : (s.raise e).result = false := rfl
@[simp] theorem raise_err (e : Err) : (s.raise e).err = e := rfl
@[simp] theorem raise_irqEn (e : Err) : (s.raise e).irqEn = s.irqEn := rfl
@[simp] theorem raise_inLen (e : Err) : (s.raise e).inLen = s.inLen := rfl
@[simp] theorem raise_outLen (e : Err) : (s.raise e).outLen = 0 := rfl
@[simp] theorem raise_genLen (e : Err) : (s.raise e).genLen = s.genLen := rfl
@[simp] theorem raise_discrepancy (e : Err) : (s.raise e).discrepancy = s.discrepancy := rfl
@[simp] theorem raise_candLen (e : Err) : (s.raise e).candLen = s.candLen := rfl
@[simp] theorem raise_cand0 (e : Err) : (s.raise e).cand0 = s.cand0 := rfl
@[simp] theorem raise_cand1 (e : Err) : (s.raise e).cand1 = s.cand1 := rfl
@[simp] theorem raise_tstepLo (e : Err) : (s.raise e).tstepLo = s.tstepLo := rfl
@[simp] theorem raise_tstepHi (e : Err) : (s.raise e).tstepHi = s.tstepHi := rfl
@[simp] theorem raise_stepUsedLo (e : Err) : (s.raise e).stepUsedLo = s.stepUsedLo := rfl
@[simp] theorem raise_stepUsedHi (e : Err) : (s.raise e).stepUsedHi = s.stepUsedHi := rfl
@[simp] theorem raise_inBuf (e : Err) : (s.raise e).inBuf = s.inBuf := rfl
@[simp] theorem raise_outBuf (e : Err) : (s.raise e).outBuf = s.outBuf := rfl
@[simp] theorem raise_latchedCmd (e : Err) : (s.raise e).latchedCmd = 0 := rfl
@[simp] theorem raise_tBase (e : Err) : (s.raise e).tBase = 0 := rfl
@[simp] theorem raise_key (e : Err) : (s.raise e).key = [] := rfl
@[simp] theorem raise_winI (e : Err) : (s.raise e).winI = 0 := rfl
@[simp] theorem raise_hmacReq (e : Err) : (s.raise e).hmacReq = s.hmacReq := rfl
@[simp] theorem raise_rngReq (e : Err) : (s.raise e).rngReq = s.rngReq := rfl
@[simp] theorem raise_rst (e : Err) : (s.raise e).rst = s.rst := rfl
@[simp] theorem raise_unsupported (e : Err) : (s.raise e).unsupported = s.unsupported := rfl
@[simp] theorem raise_params (e : Err) : (s.raise e).params = s.params := rfl
@[simp] theorem raise_busRsp (e : Err) : (s.raise e).busRsp = s.busRsp := rfl
@[simp] theorem raise_genI (e : Err) : (s.raise e).genI = 0 := rfl
@[simp] theorem raise_hmacSent (e : Err) : (s.raise e).hmacSent = s.hmacSent := rfl
@[simp] theorem raise_rngSent (e : Err) : (s.raise e).rngSent = s.rngSent := rfl
@[simp] theorem raise_events (e : Err) : (s.raise e).events = s.events := rfl
@[simp] theorem raise_clockFeed (e : Err) : (s.raise e).clockFeed = s.clockFeed := rfl
@[simp] theorem raise_rngFeed (e : Err) : (s.raise e).rngFeed = s.rngFeed := rfl
@[simp] theorem raise_hmacLeft (e : Err) : (s.raise e).hmacLeft = s.hmacLeft := rfl
@[simp] theorem raise_rngLeft (e : Err) : (s.raise e).rngLeft = s.rngLeft := rfl
@[simp] theorem raise_clockDraws (e : Err) : (s.raise e).clockDraws = s.clockDraws := rfl
@[simp] theorem raise_rngDraws (e : Err) : (s.raise e).rngDraws = s.rngDraws := rfl
@[simp] theorem raise_outDraws (e : Err) : (s.raise e).outDraws = s.outDraws := rfl
@[simp] theorem raise_resets (e : Err) : (s.raise e).resets = s.resets := rfl

/-! `clearDone` -/
@[simp] theorem clearDone_phase : (s.clearDone).phase = s.phase := rfl
@[simp] theorem clearDone_done : (s.clearDone).done = false := rfl
@[simp] theorem clearDone_result : (s.clearDone).result = s.result := rfl
@[simp] theorem clearDone_err : (s.clearDone).err = s.err := rfl
@[simp] theorem clearDone_irqEn : (s.clearDone).irqEn = s.irqEn := rfl
@[simp] theorem clearDone_inLen : (s.clearDone).inLen = s.inLen := rfl
@[simp] theorem clearDone_outLen : (s.clearDone).outLen = s.outLen := rfl
@[simp] theorem clearDone_genLen : (s.clearDone).genLen = s.genLen := rfl
@[simp] theorem clearDone_discrepancy : (s.clearDone).discrepancy = s.discrepancy := rfl
@[simp] theorem clearDone_candLen : (s.clearDone).candLen = s.candLen := rfl
@[simp] theorem clearDone_cand0 : (s.clearDone).cand0 = s.cand0 := rfl
@[simp] theorem clearDone_cand1 : (s.clearDone).cand1 = s.cand1 := rfl
@[simp] theorem clearDone_tstepLo : (s.clearDone).tstepLo = s.tstepLo := rfl
@[simp] theorem clearDone_tstepHi : (s.clearDone).tstepHi = s.tstepHi := rfl
@[simp] theorem clearDone_stepUsedLo : (s.clearDone).stepUsedLo = s.stepUsedLo := rfl
@[simp] theorem clearDone_stepUsedHi : (s.clearDone).stepUsedHi = s.stepUsedHi := rfl
@[simp] theorem clearDone_inBuf : (s.clearDone).inBuf = s.inBuf := rfl
@[simp] theorem clearDone_outBuf : (s.clearDone).outBuf = s.outBuf := rfl
@[simp] theorem clearDone_latchedCmd : (s.clearDone).latchedCmd = s.latchedCmd := rfl
@[simp] theorem clearDone_tBase : (s.clearDone).tBase = s.tBase := rfl
@[simp] theorem clearDone_key : (s.clearDone).key = s.key := rfl
@[simp] theorem clearDone_winI : (s.clearDone).winI = s.winI := rfl
@[simp] theorem clearDone_hmacReq : (s.clearDone).hmacReq = s.hmacReq := rfl
@[simp] theorem clearDone_rngReq : (s.clearDone).rngReq = s.rngReq := rfl
@[simp] theorem clearDone_rst : (s.clearDone).rst = s.rst := rfl
@[simp] theorem clearDone_unsupported : (s.clearDone).unsupported = s.unsupported := rfl
@[simp] theorem clearDone_params : (s.clearDone).params = s.params := rfl
@[simp] theorem clearDone_busRsp : (s.clearDone).busRsp = s.busRsp := rfl
@[simp] theorem clearDone_genI : (s.clearDone).genI = s.genI := rfl
@[simp] theorem clearDone_hmacSent : (s.clearDone).hmacSent = s.hmacSent := rfl
@[simp] theorem clearDone_rngSent : (s.clearDone).rngSent = s.rngSent := rfl
@[simp] theorem clearDone_events : (s.clearDone).events = s.events := rfl
@[simp] theorem clearDone_clockFeed : (s.clearDone).clockFeed = s.clockFeed := rfl
@[simp] theorem clearDone_rngFeed : (s.clearDone).rngFeed = s.rngFeed := rfl
@[simp] theorem clearDone_hmacLeft : (s.clearDone).hmacLeft = s.hmacLeft := rfl
@[simp] theorem clearDone_rngLeft : (s.clearDone).rngLeft = s.rngLeft := rfl
@[simp] theorem clearDone_clockDraws : (s.clearDone).clockDraws = s.clockDraws := rfl
@[simp] theorem clearDone_rngDraws : (s.clearDone).rngDraws = s.rngDraws := rfl
@[simp] theorem clearDone_outDraws : (s.clearDone).outDraws = s.outDraws := rfl
@[simp] theorem clearDone_resets : (s.clearDone).resets = s.resets := rfl

/-! `writeOut` -/
@[simp] theorem writeOut_phase (r : List Byte) : (s.writeOut r).phase = s.phase := rfl
@[simp] theorem writeOut_done (r : List Byte) : (s.writeOut r).done = s.done := rfl
@[simp] theorem writeOut_result (r : List Byte) : (s.writeOut r).result = s.result := rfl
@[simp] theorem writeOut_err (r : List Byte) : (s.writeOut r).err = s.err := rfl
@[simp] theorem writeOut_irqEn (r : List Byte) : (s.writeOut r).irqEn = s.irqEn := rfl
@[simp] theorem writeOut_inLen (r : List Byte) : (s.writeOut r).inLen = s.inLen := rfl
@[simp] theorem writeOut_outLen (r : List Byte) : (s.writeOut r).outLen = s.outLen := rfl
@[simp] theorem writeOut_genLen (r : List Byte) : (s.writeOut r).genLen = s.genLen := rfl
@[simp] theorem writeOut_discrepancy (r : List Byte) : (s.writeOut r).discrepancy = s.discrepancy := rfl
@[simp] theorem writeOut_candLen (r : List Byte) : (s.writeOut r).candLen = s.candLen := rfl
@[simp] theorem writeOut_cand0 (r : List Byte) : (s.writeOut r).cand0 = s.cand0 := rfl
@[simp] theorem writeOut_cand1 (r : List Byte) : (s.writeOut r).cand1 = s.cand1 := rfl
@[simp] theorem writeOut_tstepLo (r : List Byte) : (s.writeOut r).tstepLo = s.tstepLo := rfl
@[simp] theorem writeOut_tstepHi (r : List Byte) : (s.writeOut r).tstepHi = s.tstepHi := rfl
@[simp] theorem writeOut_stepUsedLo (r : List Byte) : (s.writeOut r).stepUsedLo = s.stepUsedLo := rfl
@[simp] theorem writeOut_stepUsedHi (r : List Byte) : (s.writeOut r).stepUsedHi = s.stepUsedHi := rfl
@[simp] theorem writeOut_inBuf (r : List Byte) : (s.writeOut r).inBuf = s.inBuf := rfl
@[simp] theorem writeOut_outBuf (r : List Byte) : (s.writeOut r).outBuf = memSetFrom s.outBuf 0 r := rfl
@[simp] theorem writeOut_latchedCmd (r : List Byte) : (s.writeOut r).latchedCmd = s.latchedCmd := rfl
@[simp] theorem writeOut_tBase (r : List Byte) : (s.writeOut r).tBase = s.tBase := rfl
@[simp] theorem writeOut_key (r : List Byte) : (s.writeOut r).key = s.key := rfl
@[simp] theorem writeOut_winI (r : List Byte) : (s.writeOut r).winI = s.winI := rfl
@[simp] theorem writeOut_hmacReq (r : List Byte) : (s.writeOut r).hmacReq = s.hmacReq := rfl
@[simp] theorem writeOut_rngReq (r : List Byte) : (s.writeOut r).rngReq = s.rngReq := rfl
@[simp] theorem writeOut_rst (r : List Byte) : (s.writeOut r).rst = s.rst := rfl
@[simp] theorem writeOut_unsupported (r : List Byte) : (s.writeOut r).unsupported = s.unsupported := rfl
@[simp] theorem writeOut_params (r : List Byte) : (s.writeOut r).params = s.params := rfl
@[simp] theorem writeOut_busRsp (r : List Byte) : (s.writeOut r).busRsp = s.busRsp := rfl
@[simp] theorem writeOut_genI (r : List Byte) : (s.writeOut r).genI = s.genI := rfl
@[simp] theorem writeOut_hmacSent (r : List Byte) : (s.writeOut r).hmacSent = s.hmacSent := rfl
@[simp] theorem writeOut_rngSent (r : List Byte) : (s.writeOut r).rngSent = s.rngSent := rfl
@[simp] theorem writeOut_events (r : List Byte) : (s.writeOut r).events = s.events := rfl
@[simp] theorem writeOut_clockFeed (r : List Byte) : (s.writeOut r).clockFeed = s.clockFeed := rfl
@[simp] theorem writeOut_rngFeed (r : List Byte) : (s.writeOut r).rngFeed = s.rngFeed := rfl
@[simp] theorem writeOut_hmacLeft (r : List Byte) : (s.writeOut r).hmacLeft = s.hmacLeft := rfl
@[simp] theorem writeOut_rngLeft (r : List Byte) : (s.writeOut r).rngLeft = s.rngLeft := rfl
@[simp] theorem writeOut_clockDraws (r : List Byte) : (s.writeOut r).clockDraws = s.clockDraws := rfl
@[simp] theorem writeOut_rngDraws (r : List Byte) : (s.writeOut r).rngDraws = s.rngDraws := rfl
@[simp] theorem writeOut_outDraws (r : List Byte) : (s.writeOut r).outDraws = s.outDraws := rfl
@[simp] theorem writeOut_resets (r : List Byte) : (s.writeOut r).resets = s.resets := rfl

/-! `setStep` -/
@[simp] theorem setStep_phase (t : TimeStep) : (s.setStep t).phase = s.phase := rfl
@[simp] theorem setStep_done (t : TimeStep) : (s.setStep t).done = s.done := rfl
@[simp] theorem setStep_result (t : TimeStep) : (s.setStep t).result = s.result := rfl
@[simp] theorem setStep_err (t : TimeStep) : (s.setStep t).err = s.err := rfl
@[simp] theorem setStep_irqEn (t : TimeStep) : (s.setStep t).irqEn = s.irqEn := rfl
@[simp] theorem setStep_inLen (t : TimeStep) : (s.setStep t).inLen = s.inLen := rfl
@[simp] theorem setStep_outLen (t : TimeStep) : (s.setStep t).outLen = s.outLen := rfl
@[simp] theorem setStep_genLen (t : TimeStep) : (s.setStep t).genLen = s.genLen := rfl
@[simp] theorem setStep_discrepancy (t : TimeStep) : (s.setStep t).discrepancy = s.discrepancy := rfl
@[simp] theorem setStep_candLen (t : TimeStep) : (s.setStep t).candLen = s.candLen := rfl
@[simp] theorem setStep_cand0 (t : TimeStep) : (s.setStep t).cand0 = s.cand0 := rfl
@[simp] theorem setStep_cand1 (t : TimeStep) : (s.setStep t).cand1 = s.cand1 := rfl
@[simp] theorem setStep_tstepLo (t : TimeStep) : (s.setStep t).tstepLo = s.tstepLo := rfl
@[simp] theorem setStep_tstepHi (t : TimeStep) : (s.setStep t).tstepHi = s.tstepHi := rfl
@[simp] theorem setStep_stepUsedLo (t : TimeStep) : (s.setStep t).stepUsedLo = t.extractLsb' 0 32 := rfl
@[simp] theorem setStep_stepUsedHi (t : TimeStep) : (s.setStep t).stepUsedHi = t.extractLsb' 32 32 := rfl
@[simp] theorem setStep_inBuf (t : TimeStep) : (s.setStep t).inBuf = s.inBuf := rfl
@[simp] theorem setStep_outBuf (t : TimeStep) : (s.setStep t).outBuf = s.outBuf := rfl
@[simp] theorem setStep_latchedCmd (t : TimeStep) : (s.setStep t).latchedCmd = s.latchedCmd := rfl
@[simp] theorem setStep_tBase (t : TimeStep) : (s.setStep t).tBase = t := rfl
@[simp] theorem setStep_key (t : TimeStep) : (s.setStep t).key = s.key := rfl
@[simp] theorem setStep_winI (t : TimeStep) : (s.setStep t).winI = s.winI := rfl
@[simp] theorem setStep_hmacReq (t : TimeStep) : (s.setStep t).hmacReq = s.hmacReq := rfl
@[simp] theorem setStep_rngReq (t : TimeStep) : (s.setStep t).rngReq = s.rngReq := rfl
@[simp] theorem setStep_rst (t : TimeStep) : (s.setStep t).rst = s.rst := rfl
@[simp] theorem setStep_unsupported (t : TimeStep) : (s.setStep t).unsupported = s.unsupported := rfl
@[simp] theorem setStep_params (t : TimeStep) : (s.setStep t).params = s.params := rfl
@[simp] theorem setStep_busRsp (t : TimeStep) : (s.setStep t).busRsp = s.busRsp := rfl
@[simp] theorem setStep_genI (t : TimeStep) : (s.setStep t).genI = s.genI := rfl
@[simp] theorem setStep_hmacSent (t : TimeStep) : (s.setStep t).hmacSent = s.hmacSent := rfl
@[simp] theorem setStep_rngSent (t : TimeStep) : (s.setStep t).rngSent = s.rngSent := rfl
@[simp] theorem setStep_events (t : TimeStep) : (s.setStep t).events = s.events := rfl
@[simp] theorem setStep_clockFeed (t : TimeStep) : (s.setStep t).clockFeed = s.clockFeed := rfl
@[simp] theorem setStep_rngFeed (t : TimeStep) : (s.setStep t).rngFeed = s.rngFeed := rfl
@[simp] theorem setStep_hmacLeft (t : TimeStep) : (s.setStep t).hmacLeft = s.hmacLeft := rfl
@[simp] theorem setStep_rngLeft (t : TimeStep) : (s.setStep t).rngLeft = s.rngLeft := rfl
@[simp] theorem setStep_clockDraws (t : TimeStep) : (s.setStep t).clockDraws = s.clockDraws := rfl
@[simp] theorem setStep_rngDraws (t : TimeStep) : (s.setStep t).rngDraws = s.rngDraws := rfl
@[simp] theorem setStep_outDraws (t : TimeStep) : (s.setStep t).outDraws = s.outDraws := rfl
@[simp] theorem setStep_resets (t : TimeStep) : (s.setStep t).resets = s.resets := rfl

/-! `dropSample` -/
@[simp] theorem dropSample_phase : (s.dropSample).phase = s.phase := rfl
@[simp] theorem dropSample_done : (s.dropSample).done = s.done := rfl
@[simp] theorem dropSample_result : (s.dropSample).result = s.result := rfl
@[simp] theorem dropSample_err : (s.dropSample).err = s.err := rfl
@[simp] theorem dropSample_irqEn : (s.dropSample).irqEn = s.irqEn := rfl
@[simp] theorem dropSample_inLen : (s.dropSample).inLen = s.inLen := rfl
@[simp] theorem dropSample_outLen : (s.dropSample).outLen = s.outLen := rfl
@[simp] theorem dropSample_genLen : (s.dropSample).genLen = s.genLen := rfl
@[simp] theorem dropSample_discrepancy : (s.dropSample).discrepancy = s.discrepancy := rfl
@[simp] theorem dropSample_candLen : (s.dropSample).candLen = s.candLen := rfl
@[simp] theorem dropSample_cand0 : (s.dropSample).cand0 = s.cand0 := rfl
@[simp] theorem dropSample_cand1 : (s.dropSample).cand1 = s.cand1 := rfl
@[simp] theorem dropSample_tstepLo : (s.dropSample).tstepLo = s.tstepLo := rfl
@[simp] theorem dropSample_tstepHi : (s.dropSample).tstepHi = s.tstepHi := rfl
@[simp] theorem dropSample_stepUsedLo : (s.dropSample).stepUsedLo = s.stepUsedLo := rfl
@[simp] theorem dropSample_stepUsedHi : (s.dropSample).stepUsedHi = s.stepUsedHi := rfl
@[simp] theorem dropSample_inBuf : (s.dropSample).inBuf = s.inBuf := rfl
@[simp] theorem dropSample_outBuf : (s.dropSample).outBuf = s.outBuf := rfl
@[simp] theorem dropSample_latchedCmd : (s.dropSample).latchedCmd = s.latchedCmd := rfl
@[simp] theorem dropSample_tBase : (s.dropSample).tBase = s.tBase := rfl
@[simp] theorem dropSample_key : (s.dropSample).key = s.key := rfl
@[simp] theorem dropSample_winI : (s.dropSample).winI = s.winI := rfl
@[simp] theorem dropSample_hmacReq : (s.dropSample).hmacReq = s.hmacReq := rfl
@[simp] theorem dropSample_rngReq : (s.dropSample).rngReq = s.rngReq := rfl
@[simp] theorem dropSample_rst : (s.dropSample).rst = s.rst := rfl
@[simp] theorem dropSample_unsupported : (s.dropSample).unsupported = s.unsupported := rfl
@[simp] theorem dropSample_params : (s.dropSample).params = s.params := rfl
@[simp] theorem dropSample_busRsp : (s.dropSample).busRsp = s.busRsp := rfl
@[simp] theorem dropSample_genI : (s.dropSample).genI = s.genI := rfl
@[simp] theorem dropSample_hmacSent : (s.dropSample).hmacSent = s.hmacSent := rfl
@[simp] theorem dropSample_rngSent : (s.dropSample).rngSent = s.rngSent := rfl
@[simp] theorem dropSample_events : (s.dropSample).events = s.events := rfl
@[simp] theorem dropSample_clockFeed : (s.dropSample).clockFeed = s.clockFeed.tail := rfl
@[simp] theorem dropSample_rngFeed : (s.dropSample).rngFeed = s.rngFeed := rfl
@[simp] theorem dropSample_hmacLeft : (s.dropSample).hmacLeft = s.hmacLeft := rfl
@[simp] theorem dropSample_rngLeft : (s.dropSample).rngLeft = s.rngLeft := rfl
@[simp] theorem dropSample_clockDraws : (s.dropSample).clockDraws = s.clockDraws + 1 := rfl
@[simp] theorem dropSample_rngDraws : (s.dropSample).rngDraws = s.rngDraws := rfl
@[simp] theorem dropSample_outDraws : (s.dropSample).outDraws = s.outDraws := rfl
@[simp] theorem dropSample_resets : (s.dropSample).resets = s.resets := rfl

/-! `latch` -/
@[simp] theorem latch_phase (w : Word) : (s.latch w).phase = .busy := rfl
@[simp] theorem latch_done (w : Word) : (s.latch w).done = false := rfl
@[simp] theorem latch_result (w : Word) : (s.latch w).result = false := rfl
@[simp] theorem latch_err (w : Word) : (s.latch w).err = .none := rfl
@[simp] theorem latch_irqEn (w : Word) : (s.latch w).irqEn = s.irqEn := rfl
@[simp] theorem latch_inLen (w : Word) : (s.latch w).inLen = s.inLen := rfl
@[simp] theorem latch_outLen (w : Word) : (s.latch w).outLen = 0 := rfl
@[simp] theorem latch_genLen (w : Word) : (s.latch w).genLen = s.genLen := rfl
@[simp] theorem latch_discrepancy (w : Word) : (s.latch w).discrepancy = s.discrepancy := rfl
@[simp] theorem latch_candLen (w : Word) : (s.latch w).candLen = s.candLen := rfl
@[simp] theorem latch_cand0 (w : Word) : (s.latch w).cand0 = s.cand0 := rfl
@[simp] theorem latch_cand1 (w : Word) : (s.latch w).cand1 = s.cand1 := rfl
@[simp] theorem latch_tstepLo (w : Word) : (s.latch w).tstepLo = s.tstepLo := rfl
@[simp] theorem latch_tstepHi (w : Word) : (s.latch w).tstepHi = s.tstepHi := rfl
@[simp] theorem latch_stepUsedLo (w : Word) : (s.latch w).stepUsedLo = s.stepUsedLo := rfl
@[simp] theorem latch_stepUsedHi (w : Word) : (s.latch w).stepUsedHi = s.stepUsedHi := rfl
@[simp] theorem latch_inBuf (w : Word) : (s.latch w).inBuf = s.inBuf := rfl
@[simp] theorem latch_outBuf (w : Word) : (s.latch w).outBuf = [] := rfl
@[simp] theorem latch_latchedCmd (w : Word) : (s.latch w).latchedCmd = w := rfl
@[simp] theorem latch_tBase (w : Word) : (s.latch w).tBase = 0 := rfl
@[simp] theorem latch_key (w : Word) : (s.latch w).key = [] := rfl
@[simp] theorem latch_winI (w : Word) : (s.latch w).winI = 0 := rfl
@[simp] theorem latch_hmacReq (w : Word) : (s.latch w).hmacReq = none := rfl
@[simp] theorem latch_rngReq (w : Word) : (s.latch w).rngReq = false := rfl
@[simp] theorem latch_rst (w : Word) : (s.latch w).rst = s.rst := rfl
@[simp] theorem latch_unsupported (w : Word) : (s.latch w).unsupported = s.unsupported := rfl
@[simp] theorem latch_params (w : Word) : (s.latch w).params = s.params := rfl
@[simp] theorem latch_busRsp (w : Word) : (s.latch w).busRsp = s.busRsp := rfl
@[simp] theorem latch_genI (w : Word) : (s.latch w).genI = 0 := rfl
@[simp] theorem latch_hmacSent (w : Word) : (s.latch w).hmacSent = [] := rfl
@[simp] theorem latch_rngSent (w : Word) : (s.latch w).rngSent = 0 := rfl
@[simp] theorem latch_events (w : Word) : (s.latch w).events = s.events := rfl
@[simp] theorem latch_clockFeed (w : Word) : (s.latch w).clockFeed = s.clockFeed := rfl
@[simp] theorem latch_rngFeed (w : Word) : (s.latch w).rngFeed = s.rngFeed := rfl
@[simp] theorem latch_hmacLeft (w : Word) : (s.latch w).hmacLeft = s.hmacLeft := rfl
@[simp] theorem latch_rngLeft (w : Word) : (s.latch w).rngLeft = s.rngLeft := rfl
@[simp] theorem latch_clockDraws (w : Word) : (s.latch w).clockDraws = s.clockDraws := rfl
@[simp] theorem latch_rngDraws (w : Word) : (s.latch w).rngDraws = s.rngDraws := rfl
@[simp] theorem latch_outDraws (w : Word) : (s.latch w).outDraws = s.outDraws := rfl
@[simp] theorem latch_resets (w : Word) : (s.latch w).resets = s.resets := rfl

/-! `hmacAnswered` -/
@[simp] theorem hmacAnswered_phase : (s.hmacAnswered).phase = s.phase := rfl
@[simp] theorem hmacAnswered_done : (s.hmacAnswered).done = s.done := rfl
@[simp] theorem hmacAnswered_result : (s.hmacAnswered).result = s.result := rfl
@[simp] theorem hmacAnswered_err : (s.hmacAnswered).err = s.err := rfl
@[simp] theorem hmacAnswered_irqEn : (s.hmacAnswered).irqEn = s.irqEn := rfl
@[simp] theorem hmacAnswered_inLen : (s.hmacAnswered).inLen = s.inLen := rfl
@[simp] theorem hmacAnswered_outLen : (s.hmacAnswered).outLen = s.outLen := rfl
@[simp] theorem hmacAnswered_genLen : (s.hmacAnswered).genLen = s.genLen := rfl
@[simp] theorem hmacAnswered_discrepancy : (s.hmacAnswered).discrepancy = s.discrepancy := rfl
@[simp] theorem hmacAnswered_candLen : (s.hmacAnswered).candLen = s.candLen := rfl
@[simp] theorem hmacAnswered_cand0 : (s.hmacAnswered).cand0 = s.cand0 := rfl
@[simp] theorem hmacAnswered_cand1 : (s.hmacAnswered).cand1 = s.cand1 := rfl
@[simp] theorem hmacAnswered_tstepLo : (s.hmacAnswered).tstepLo = s.tstepLo := rfl
@[simp] theorem hmacAnswered_tstepHi : (s.hmacAnswered).tstepHi = s.tstepHi := rfl
@[simp] theorem hmacAnswered_stepUsedLo : (s.hmacAnswered).stepUsedLo = s.stepUsedLo := rfl
@[simp] theorem hmacAnswered_stepUsedHi : (s.hmacAnswered).stepUsedHi = s.stepUsedHi := rfl
@[simp] theorem hmacAnswered_inBuf : (s.hmacAnswered).inBuf = s.inBuf := rfl
@[simp] theorem hmacAnswered_outBuf : (s.hmacAnswered).outBuf = s.outBuf := rfl
@[simp] theorem hmacAnswered_latchedCmd : (s.hmacAnswered).latchedCmd = s.latchedCmd := rfl
@[simp] theorem hmacAnswered_tBase : (s.hmacAnswered).tBase = s.tBase := rfl
@[simp] theorem hmacAnswered_key : (s.hmacAnswered).key = s.key := rfl
@[simp] theorem hmacAnswered_winI : (s.hmacAnswered).winI = s.winI := rfl
@[simp] theorem hmacAnswered_hmacReq : (s.hmacAnswered).hmacReq = none := rfl
@[simp] theorem hmacAnswered_rngReq : (s.hmacAnswered).rngReq = s.rngReq := rfl
@[simp] theorem hmacAnswered_rst : (s.hmacAnswered).rst = s.rst := rfl
@[simp] theorem hmacAnswered_unsupported : (s.hmacAnswered).unsupported = s.unsupported := rfl
@[simp] theorem hmacAnswered_params : (s.hmacAnswered).params = s.params := rfl
@[simp] theorem hmacAnswered_busRsp : (s.hmacAnswered).busRsp = s.busRsp := rfl
@[simp] theorem hmacAnswered_genI : (s.hmacAnswered).genI = s.genI := rfl
@[simp] theorem hmacAnswered_hmacSent : (s.hmacAnswered).hmacSent = s.hmacSent := rfl
@[simp] theorem hmacAnswered_rngSent : (s.hmacAnswered).rngSent = s.rngSent := rfl
@[simp] theorem hmacAnswered_events : (s.hmacAnswered).events = s.events := rfl
@[simp] theorem hmacAnswered_clockFeed : (s.hmacAnswered).clockFeed = s.clockFeed := rfl
@[simp] theorem hmacAnswered_rngFeed : (s.hmacAnswered).rngFeed = s.rngFeed := rfl
@[simp] theorem hmacAnswered_hmacLeft : (s.hmacAnswered).hmacLeft = s.hmacLeft.map (· - 1) := rfl
@[simp] theorem hmacAnswered_rngLeft : (s.hmacAnswered).rngLeft = s.rngLeft := rfl
@[simp] theorem hmacAnswered_clockDraws : (s.hmacAnswered).clockDraws = s.clockDraws := rfl
@[simp] theorem hmacAnswered_rngDraws : (s.hmacAnswered).rngDraws = s.rngDraws := rfl
@[simp] theorem hmacAnswered_outDraws : (s.hmacAnswered).outDraws = s.outDraws := rfl
@[simp] theorem hmacAnswered_resets : (s.hmacAnswered).resets = s.resets := rfl

/-! `rngAnswered` -/
@[simp] theorem rngAnswered_phase : (s.rngAnswered).phase = s.phase := rfl
@[simp] theorem rngAnswered_done : (s.rngAnswered).done = s.done := rfl
@[simp] theorem rngAnswered_result : (s.rngAnswered).result = s.result := rfl
@[simp] theorem rngAnswered_err : (s.rngAnswered).err = s.err := rfl
@[simp] theorem rngAnswered_irqEn : (s.rngAnswered).irqEn = s.irqEn := rfl
@[simp] theorem rngAnswered_inLen : (s.rngAnswered).inLen = s.inLen := rfl
@[simp] theorem rngAnswered_outLen : (s.rngAnswered).outLen = s.outLen := rfl
@[simp] theorem rngAnswered_genLen : (s.rngAnswered).genLen = s.genLen := rfl
@[simp] theorem rngAnswered_discrepancy : (s.rngAnswered).discrepancy = s.discrepancy := rfl
@[simp] theorem rngAnswered_candLen : (s.rngAnswered).candLen = s.candLen := rfl
@[simp] theorem rngAnswered_cand0 : (s.rngAnswered).cand0 = s.cand0 := rfl
@[simp] theorem rngAnswered_cand1 : (s.rngAnswered).cand1 = s.cand1 := rfl
@[simp] theorem rngAnswered_tstepLo : (s.rngAnswered).tstepLo = s.tstepLo := rfl
@[simp] theorem rngAnswered_tstepHi : (s.rngAnswered).tstepHi = s.tstepHi := rfl
@[simp] theorem rngAnswered_stepUsedLo : (s.rngAnswered).stepUsedLo = s.stepUsedLo := rfl
@[simp] theorem rngAnswered_stepUsedHi : (s.rngAnswered).stepUsedHi = s.stepUsedHi := rfl
@[simp] theorem rngAnswered_inBuf : (s.rngAnswered).inBuf = s.inBuf := rfl
@[simp] theorem rngAnswered_outBuf : (s.rngAnswered).outBuf = s.outBuf := rfl
@[simp] theorem rngAnswered_latchedCmd : (s.rngAnswered).latchedCmd = s.latchedCmd := rfl
@[simp] theorem rngAnswered_tBase : (s.rngAnswered).tBase = s.tBase := rfl
@[simp] theorem rngAnswered_key : (s.rngAnswered).key = s.key := rfl
@[simp] theorem rngAnswered_winI : (s.rngAnswered).winI = s.winI := rfl
@[simp] theorem rngAnswered_hmacReq : (s.rngAnswered).hmacReq = s.hmacReq := rfl
@[simp] theorem rngAnswered_rngReq : (s.rngAnswered).rngReq = false := rfl
@[simp] theorem rngAnswered_rst : (s.rngAnswered).rst = s.rst := rfl
@[simp] theorem rngAnswered_unsupported : (s.rngAnswered).unsupported = s.unsupported := rfl
@[simp] theorem rngAnswered_params : (s.rngAnswered).params = s.params := rfl
@[simp] theorem rngAnswered_busRsp : (s.rngAnswered).busRsp = s.busRsp := rfl
@[simp] theorem rngAnswered_genI : (s.rngAnswered).genI = s.genI := rfl
@[simp] theorem rngAnswered_hmacSent : (s.rngAnswered).hmacSent = s.hmacSent := rfl
@[simp] theorem rngAnswered_rngSent : (s.rngAnswered).rngSent = s.rngSent := rfl
@[simp] theorem rngAnswered_events : (s.rngAnswered).events = s.events := rfl
@[simp] theorem rngAnswered_clockFeed : (s.rngAnswered).clockFeed = s.clockFeed := rfl
@[simp] theorem rngAnswered_rngFeed : (s.rngAnswered).rngFeed = s.rngFeed.tail := rfl
@[simp] theorem rngAnswered_hmacLeft : (s.rngAnswered).hmacLeft = s.hmacLeft := rfl
@[simp] theorem rngAnswered_rngLeft : (s.rngAnswered).rngLeft = s.rngLeft.map (· - 1) := rfl
@[simp] theorem rngAnswered_clockDraws : (s.rngAnswered).clockDraws = s.clockDraws := rfl
@[simp] theorem rngAnswered_rngDraws : (s.rngAnswered).rngDraws = s.rngDraws + 1 := rfl
@[simp] theorem rngAnswered_outDraws : (s.rngAnswered).outDraws = s.outDraws := rfl
@[simp] theorem rngAnswered_resets : (s.rngAnswered).resets = s.resets := rfl

/-! `putSymbol` -/
@[simp] theorem putSymbol_phase (b : Byte) : (s.putSymbol b).phase = s.phase := rfl
@[simp] theorem putSymbol_done (b : Byte) : (s.putSymbol b).done = s.done := rfl
@[simp] theorem putSymbol_result (b : Byte) : (s.putSymbol b).result = s.result := rfl
@[simp] theorem putSymbol_err (b : Byte) : (s.putSymbol b).err = s.err := rfl
@[simp] theorem putSymbol_irqEn (b : Byte) : (s.putSymbol b).irqEn = s.irqEn := rfl
@[simp] theorem putSymbol_inLen (b : Byte) : (s.putSymbol b).inLen = s.inLen := rfl
@[simp] theorem putSymbol_outLen (b : Byte) : (s.putSymbol b).outLen = s.outLen := rfl
@[simp] theorem putSymbol_genLen (b : Byte) : (s.putSymbol b).genLen = s.genLen := rfl
@[simp] theorem putSymbol_discrepancy (b : Byte) : (s.putSymbol b).discrepancy = s.discrepancy := rfl
@[simp] theorem putSymbol_candLen (b : Byte) : (s.putSymbol b).candLen = s.candLen := rfl
@[simp] theorem putSymbol_cand0 (b : Byte) : (s.putSymbol b).cand0 = s.cand0 := rfl
@[simp] theorem putSymbol_cand1 (b : Byte) : (s.putSymbol b).cand1 = s.cand1 := rfl
@[simp] theorem putSymbol_tstepLo (b : Byte) : (s.putSymbol b).tstepLo = s.tstepLo := rfl
@[simp] theorem putSymbol_tstepHi (b : Byte) : (s.putSymbol b).tstepHi = s.tstepHi := rfl
@[simp] theorem putSymbol_stepUsedLo (b : Byte) : (s.putSymbol b).stepUsedLo = s.stepUsedLo := rfl
@[simp] theorem putSymbol_stepUsedHi (b : Byte) : (s.putSymbol b).stepUsedHi = s.stepUsedHi := rfl
@[simp] theorem putSymbol_inBuf (b : Byte) : (s.putSymbol b).inBuf = s.inBuf := rfl
@[simp] theorem putSymbol_outBuf (b : Byte) : (s.putSymbol b).outBuf = memSet s.outBuf s.genI (maskSymbol b) := rfl
@[simp] theorem putSymbol_latchedCmd (b : Byte) : (s.putSymbol b).latchedCmd = s.latchedCmd := rfl
@[simp] theorem putSymbol_tBase (b : Byte) : (s.putSymbol b).tBase = s.tBase := rfl
@[simp] theorem putSymbol_key (b : Byte) : (s.putSymbol b).key = s.key := rfl
@[simp] theorem putSymbol_winI (b : Byte) : (s.putSymbol b).winI = s.winI := rfl
@[simp] theorem putSymbol_hmacReq (b : Byte) : (s.putSymbol b).hmacReq = s.hmacReq := rfl
@[simp] theorem putSymbol_rngReq (b : Byte) : (s.putSymbol b).rngReq = s.rngReq := rfl
@[simp] theorem putSymbol_rst (b : Byte) : (s.putSymbol b).rst = s.rst := rfl
@[simp] theorem putSymbol_unsupported (b : Byte) : (s.putSymbol b).unsupported = s.unsupported := rfl
@[simp] theorem putSymbol_params (b : Byte) : (s.putSymbol b).params = s.params := rfl
@[simp] theorem putSymbol_busRsp (b : Byte) : (s.putSymbol b).busRsp = s.busRsp := rfl
@[simp] theorem putSymbol_genI (b : Byte) : (s.putSymbol b).genI = s.genI + 1 := rfl
@[simp] theorem putSymbol_hmacSent (b : Byte) : (s.putSymbol b).hmacSent = s.hmacSent := rfl
@[simp] theorem putSymbol_rngSent (b : Byte) : (s.putSymbol b).rngSent = s.rngSent := rfl
@[simp] theorem putSymbol_events (b : Byte) : (s.putSymbol b).events = s.events := rfl
@[simp] theorem putSymbol_clockFeed (b : Byte) : (s.putSymbol b).clockFeed = s.clockFeed := rfl
@[simp] theorem putSymbol_rngFeed (b : Byte) : (s.putSymbol b).rngFeed = s.rngFeed := rfl
@[simp] theorem putSymbol_hmacLeft (b : Byte) : (s.putSymbol b).hmacLeft = s.hmacLeft := rfl
@[simp] theorem putSymbol_rngLeft (b : Byte) : (s.putSymbol b).rngLeft = s.rngLeft := rfl
@[simp] theorem putSymbol_clockDraws (b : Byte) : (s.putSymbol b).clockDraws = s.clockDraws := rfl
@[simp] theorem putSymbol_rngDraws (b : Byte) : (s.putSymbol b).rngDraws = s.rngDraws := rfl
@[simp] theorem putSymbol_outDraws (b : Byte) : (s.putSymbol b).outDraws = s.outDraws := rfl
@[simp] theorem putSymbol_resets (b : Byte) : (s.putSymbol b).resets = s.resets := rfl

/-! `setKey` -/
@[simp] theorem setKey_phase (k : List Byte) : (s.setKey k).phase = s.phase := rfl
@[simp] theorem setKey_done (k : List Byte) : (s.setKey k).done = s.done := rfl
@[simp] theorem setKey_result (k : List Byte) : (s.setKey k).result = s.result := rfl
@[simp] theorem setKey_err (k : List Byte) : (s.setKey k).err = s.err := rfl
@[simp] theorem setKey_irqEn (k : List Byte) : (s.setKey k).irqEn = s.irqEn := rfl
@[simp] theorem setKey_inLen (k : List Byte) : (s.setKey k).inLen = s.inLen := rfl
@[simp] theorem setKey_outLen (k : List Byte) : (s.setKey k).outLen = s.outLen := rfl
@[simp] theorem setKey_genLen (k : List Byte) : (s.setKey k).genLen = s.genLen := rfl
@[simp] theorem setKey_discrepancy (k : List Byte) : (s.setKey k).discrepancy = s.discrepancy := rfl
@[simp] theorem setKey_candLen (k : List Byte) : (s.setKey k).candLen = s.candLen := rfl
@[simp] theorem setKey_cand0 (k : List Byte) : (s.setKey k).cand0 = s.cand0 := rfl
@[simp] theorem setKey_cand1 (k : List Byte) : (s.setKey k).cand1 = s.cand1 := rfl
@[simp] theorem setKey_tstepLo (k : List Byte) : (s.setKey k).tstepLo = s.tstepLo := rfl
@[simp] theorem setKey_tstepHi (k : List Byte) : (s.setKey k).tstepHi = s.tstepHi := rfl
@[simp] theorem setKey_stepUsedLo (k : List Byte) : (s.setKey k).stepUsedLo = s.stepUsedLo := rfl
@[simp] theorem setKey_stepUsedHi (k : List Byte) : (s.setKey k).stepUsedHi = s.stepUsedHi := rfl
@[simp] theorem setKey_inBuf (k : List Byte) : (s.setKey k).inBuf = s.inBuf := rfl
@[simp] theorem setKey_outBuf (k : List Byte) : (s.setKey k).outBuf = s.outBuf := rfl
@[simp] theorem setKey_latchedCmd (k : List Byte) : (s.setKey k).latchedCmd = s.latchedCmd := rfl
@[simp] theorem setKey_tBase (k : List Byte) : (s.setKey k).tBase = s.tBase := rfl
@[simp] theorem setKey_key (k : List Byte) : (s.setKey k).key = k := rfl
@[simp] theorem setKey_winI (k : List Byte) : (s.setKey k).winI = s.winI := rfl
@[simp] theorem setKey_hmacReq (k : List Byte) : (s.setKey k).hmacReq = s.hmacReq := rfl
@[simp] theorem setKey_rngReq (k : List Byte) : (s.setKey k).rngReq = s.rngReq := rfl
@[simp] theorem setKey_rst (k : List Byte) : (s.setKey k).rst = s.rst := rfl
@[simp] theorem setKey_unsupported (k : List Byte) : (s.setKey k).unsupported = s.unsupported := rfl
@[simp] theorem setKey_params (k : List Byte) : (s.setKey k).params = s.params := rfl
@[simp] theorem setKey_busRsp (k : List Byte) : (s.setKey k).busRsp = s.busRsp := rfl
@[simp] theorem setKey_genI (k : List Byte) : (s.setKey k).genI = s.genI := rfl
@[simp] theorem setKey_hmacSent (k : List Byte) : (s.setKey k).hmacSent = s.hmacSent := rfl
@[simp] theorem setKey_rngSent (k : List Byte) : (s.setKey k).rngSent = s.rngSent := rfl
@[simp] theorem setKey_events (k : List Byte) : (s.setKey k).events = s.events := rfl
@[simp] theorem setKey_clockFeed (k : List Byte) : (s.setKey k).clockFeed = s.clockFeed := rfl
@[simp] theorem setKey_rngFeed (k : List Byte) : (s.setKey k).rngFeed = s.rngFeed := rfl
@[simp] theorem setKey_hmacLeft (k : List Byte) : (s.setKey k).hmacLeft = s.hmacLeft := rfl
@[simp] theorem setKey_rngLeft (k : List Byte) : (s.setKey k).rngLeft = s.rngLeft := rfl
@[simp] theorem setKey_clockDraws (k : List Byte) : (s.setKey k).clockDraws = s.clockDraws := rfl
@[simp] theorem setKey_rngDraws (k : List Byte) : (s.setKey k).rngDraws = s.rngDraws := rfl
@[simp] theorem setKey_outDraws (k : List Byte) : (s.setKey k).outDraws = s.outDraws := rfl
@[simp] theorem setKey_resets (k : List Byte) : (s.setKey k).resets = s.resets := rfl

/-! `startWindow` -/
@[simp] theorem startWindow_phase (k : List Byte) : (s.startWindow k).phase = s.phase := rfl
@[simp] theorem startWindow_done (k : List Byte) : (s.startWindow k).done = s.done := rfl
@[simp] theorem startWindow_result (k : List Byte) : (s.startWindow k).result = s.result := rfl
@[simp] theorem startWindow_err (k : List Byte) : (s.startWindow k).err = s.err := rfl
@[simp] theorem startWindow_irqEn (k : List Byte) : (s.startWindow k).irqEn = s.irqEn := rfl
@[simp] theorem startWindow_inLen (k : List Byte) : (s.startWindow k).inLen = s.inLen := rfl
@[simp] theorem startWindow_outLen (k : List Byte) : (s.startWindow k).outLen = s.outLen := rfl
@[simp] theorem startWindow_genLen (k : List Byte) : (s.startWindow k).genLen = s.genLen := rfl
@[simp] theorem startWindow_discrepancy (k : List Byte) : (s.startWindow k).discrepancy = s.discrepancy := rfl
@[simp] theorem startWindow_candLen (k : List Byte) : (s.startWindow k).candLen = s.candLen := rfl
@[simp] theorem startWindow_cand0 (k : List Byte) : (s.startWindow k).cand0 = s.cand0 := rfl
@[simp] theorem startWindow_cand1 (k : List Byte) : (s.startWindow k).cand1 = s.cand1 := rfl
@[simp] theorem startWindow_tstepLo (k : List Byte) : (s.startWindow k).tstepLo = s.tstepLo := rfl
@[simp] theorem startWindow_tstepHi (k : List Byte) : (s.startWindow k).tstepHi = s.tstepHi := rfl
@[simp] theorem startWindow_stepUsedLo (k : List Byte) : (s.startWindow k).stepUsedLo = s.stepUsedLo := rfl
@[simp] theorem startWindow_stepUsedHi (k : List Byte) : (s.startWindow k).stepUsedHi = s.stepUsedHi := rfl
@[simp] theorem startWindow_inBuf (k : List Byte) : (s.startWindow k).inBuf = s.inBuf := rfl
@[simp] theorem startWindow_outBuf (k : List Byte) : (s.startWindow k).outBuf = s.outBuf := rfl
@[simp] theorem startWindow_latchedCmd (k : List Byte) : (s.startWindow k).latchedCmd = s.latchedCmd := rfl
@[simp] theorem startWindow_tBase (k : List Byte) : (s.startWindow k).tBase = s.tBase := rfl
@[simp] theorem startWindow_key (k : List Byte) : (s.startWindow k).key = k := rfl
@[simp] theorem startWindow_winI (k : List Byte) : (s.startWindow k).winI = s.winStart := rfl
@[simp] theorem startWindow_hmacReq (k : List Byte) : (s.startWindow k).hmacReq = s.hmacReq := rfl
@[simp] theorem startWindow_rngReq (k : List Byte) : (s.startWindow k).rngReq = s.rngReq := rfl
@[simp] theorem startWindow_rst (k : List Byte) : (s.startWindow k).rst = s.rst := rfl
@[simp] theorem startWindow_unsupported (k : List Byte) : (s.startWindow k).unsupported = s.unsupported := rfl
@[simp] theorem startWindow_params (k : List Byte) : (s.startWindow k).params = s.params := rfl
@[simp] theorem startWindow_busRsp (k : List Byte) : (s.startWindow k).busRsp = s.busRsp := rfl
@[simp] theorem startWindow_genI (k : List Byte) : (s.startWindow k).genI = s.genI := rfl
@[simp] theorem startWindow_hmacSent (k : List Byte) : (s.startWindow k).hmacSent = s.hmacSent := rfl
@[simp] theorem startWindow_rngSent (k : List Byte) : (s.startWindow k).rngSent = s.rngSent := rfl
@[simp] theorem startWindow_events (k : List Byte) : (s.startWindow k).events = s.events := rfl
@[simp] theorem startWindow_clockFeed (k : List Byte) : (s.startWindow k).clockFeed = s.clockFeed := rfl
@[simp] theorem startWindow_rngFeed (k : List Byte) : (s.startWindow k).rngFeed = s.rngFeed := rfl
@[simp] theorem startWindow_hmacLeft (k : List Byte) : (s.startWindow k).hmacLeft = s.hmacLeft := rfl
@[simp] theorem startWindow_rngLeft (k : List Byte) : (s.startWindow k).rngLeft = s.rngLeft := rfl
@[simp] theorem startWindow_clockDraws (k : List Byte) : (s.startWindow k).clockDraws = s.clockDraws := rfl
@[simp] theorem startWindow_rngDraws (k : List Byte) : (s.startWindow k).rngDraws = s.rngDraws := rfl
@[simp] theorem startWindow_outDraws (k : List Byte) : (s.startWindow k).outDraws = s.outDraws := rfl
@[simp] theorem startWindow_resets (k : List Byte) : (s.startWindow k).resets = s.resets := rfl

/-! `startGen` -/
@[simp] theorem startGen_phase : (s.startGen).phase = s.phase := rfl
@[simp] theorem startGen_done : (s.startGen).done = s.done := rfl
@[simp] theorem startGen_result : (s.startGen).result = s.result := rfl
@[simp] theorem startGen_err : (s.startGen).err = s.err := rfl
@[simp] theorem startGen_irqEn : (s.startGen).irqEn = s.irqEn := rfl
@[simp] theorem startGen_inLen : (s.startGen).inLen = s.inLen := rfl
@[simp] theorem startGen_outLen : (s.startGen).outLen = s.outLen := rfl
@[simp] theorem startGen_genLen : (s.startGen).genLen = s.genLen := rfl
@[simp] theorem startGen_discrepancy : (s.startGen).discrepancy = s.discrepancy := rfl
@[simp] theorem startGen_candLen : (s.startGen).candLen = s.candLen := rfl
@[simp] theorem startGen_cand0 : (s.startGen).cand0 = s.cand0 := rfl
@[simp] theorem startGen_cand1 : (s.startGen).cand1 = s.cand1 := rfl
@[simp] theorem startGen_tstepLo : (s.startGen).tstepLo = s.tstepLo := rfl
@[simp] theorem startGen_tstepHi : (s.startGen).tstepHi = s.tstepHi := rfl
@[simp] theorem startGen_stepUsedLo : (s.startGen).stepUsedLo = s.stepUsedLo := rfl
@[simp] theorem startGen_stepUsedHi : (s.startGen).stepUsedHi = s.stepUsedHi := rfl
@[simp] theorem startGen_inBuf : (s.startGen).inBuf = s.inBuf := rfl
@[simp] theorem startGen_outBuf : (s.startGen).outBuf = s.outBuf := rfl
@[simp] theorem startGen_latchedCmd : (s.startGen).latchedCmd = s.latchedCmd := rfl
@[simp] theorem startGen_tBase : (s.startGen).tBase = s.tBase := rfl
@[simp] theorem startGen_key : (s.startGen).key = s.key := rfl
@[simp] theorem startGen_winI : (s.startGen).winI = s.winI := rfl
@[simp] theorem startGen_hmacReq : (s.startGen).hmacReq = s.hmacReq := rfl
@[simp] theorem startGen_rngReq : (s.startGen).rngReq = s.rngReq := rfl
@[simp] theorem startGen_rst : (s.startGen).rst = s.rst := rfl
@[simp] theorem startGen_unsupported : (s.startGen).unsupported = s.unsupported := rfl
@[simp] theorem startGen_params : (s.startGen).params = s.params := rfl
@[simp] theorem startGen_busRsp : (s.startGen).busRsp = s.busRsp := rfl
@[simp] theorem startGen_genI : (s.startGen).genI = s.genStart := rfl
@[simp] theorem startGen_hmacSent : (s.startGen).hmacSent = s.hmacSent := rfl
@[simp] theorem startGen_rngSent : (s.startGen).rngSent = s.rngSent := rfl
@[simp] theorem startGen_events : (s.startGen).events = s.events := rfl
@[simp] theorem startGen_clockFeed : (s.startGen).clockFeed = s.clockFeed := rfl
@[simp] theorem startGen_rngFeed : (s.startGen).rngFeed = s.rngFeed := rfl
@[simp] theorem startGen_hmacLeft : (s.startGen).hmacLeft = s.hmacLeft := rfl
@[simp] theorem startGen_rngLeft : (s.startGen).rngLeft = s.rngLeft := rfl
@[simp] theorem startGen_clockDraws : (s.startGen).clockDraws = s.clockDraws := rfl
@[simp] theorem startGen_rngDraws : (s.startGen).rngDraws = s.rngDraws := rfl
@[simp] theorem startGen_outDraws : (s.startGen).outDraws = s.outDraws := rfl
@[simp] theorem startGen_resets : (s.startGen).resets = s.resets := rfl

/-! `nextOffset` -/
@[simp] theorem nextOffset_phase : (s.nextOffset).phase = s.phase := rfl
@[simp] theorem nextOffset_done : (s.nextOffset).done = s.done := rfl
@[simp] theorem nextOffset_result : (s.nextOffset).result = s.result := rfl
@[simp] theorem nextOffset_err : (s.nextOffset).err = s.err := rfl
@[simp] theorem nextOffset_irqEn : (s.nextOffset).irqEn = s.irqEn := rfl
@[simp] theorem nextOffset_inLen : (s.nextOffset).inLen = s.inLen := rfl
@[simp] theorem nextOffset_outLen : (s.nextOffset).outLen = s.outLen := rfl
@[simp] theorem nextOffset_genLen : (s.nextOffset).genLen = s.genLen := rfl
@[simp] theorem nextOffset_discrepancy : (s.nextOffset).discrepancy = s.discrepancy := rfl
@[simp] theorem nextOffset_candLen : (s.nextOffset).candLen = s.candLen := rfl
@[simp] theorem nextOffset_cand0 : (s.nextOffset).cand0 = s.cand0 := rfl
@[simp] theorem nextOffset_cand1 : (s.nextOffset).cand1 = s.cand1 := rfl
@[simp] theorem nextOffset_tstepLo : (s.nextOffset).tstepLo = s.tstepLo := rfl
@[simp] theorem nextOffset_tstepHi : (s.nextOffset).tstepHi = s.tstepHi := rfl
@[simp] theorem nextOffset_stepUsedLo : (s.nextOffset).stepUsedLo = s.stepUsedLo := rfl
@[simp] theorem nextOffset_stepUsedHi : (s.nextOffset).stepUsedHi = s.stepUsedHi := rfl
@[simp] theorem nextOffset_inBuf : (s.nextOffset).inBuf = s.inBuf := rfl
@[simp] theorem nextOffset_outBuf : (s.nextOffset).outBuf = s.outBuf := rfl
@[simp] theorem nextOffset_latchedCmd : (s.nextOffset).latchedCmd = s.latchedCmd := rfl
@[simp] theorem nextOffset_tBase : (s.nextOffset).tBase = s.tBase := rfl
@[simp] theorem nextOffset_key : (s.nextOffset).key = s.key := rfl
@[simp] theorem nextOffset_winI : (s.nextOffset).winI = s.winI + 1 := rfl
@[simp] theorem nextOffset_hmacReq : (s.nextOffset).hmacReq = s.hmacReq := rfl
@[simp] theorem nextOffset_rngReq : (s.nextOffset).rngReq = s.rngReq := rfl
@[simp] theorem nextOffset_rst : (s.nextOffset).rst = s.rst := rfl
@[simp] theorem nextOffset_unsupported : (s.nextOffset).unsupported = s.unsupported := rfl
@[simp] theorem nextOffset_params : (s.nextOffset).params = s.params := rfl
@[simp] theorem nextOffset_busRsp : (s.nextOffset).busRsp = s.busRsp := rfl
@[simp] theorem nextOffset_genI : (s.nextOffset).genI = s.genI := rfl
@[simp] theorem nextOffset_hmacSent : (s.nextOffset).hmacSent = s.hmacSent := rfl
@[simp] theorem nextOffset_rngSent : (s.nextOffset).rngSent = s.rngSent := rfl
@[simp] theorem nextOffset_events : (s.nextOffset).events = s.events := rfl
@[simp] theorem nextOffset_clockFeed : (s.nextOffset).clockFeed = s.clockFeed := rfl
@[simp] theorem nextOffset_rngFeed : (s.nextOffset).rngFeed = s.rngFeed := rfl
@[simp] theorem nextOffset_hmacLeft : (s.nextOffset).hmacLeft = s.hmacLeft := rfl
@[simp] theorem nextOffset_rngLeft : (s.nextOffset).rngLeft = s.rngLeft := rfl
@[simp] theorem nextOffset_clockDraws : (s.nextOffset).clockDraws = s.clockDraws := rfl
@[simp] theorem nextOffset_rngDraws : (s.nextOffset).rngDraws = s.rngDraws := rfl
@[simp] theorem nextOffset_outDraws : (s.nextOffset).outDraws = s.outDraws := rfl
@[simp] theorem nextOffset_resets : (s.nextOffset).resets = s.resets := rfl

/-! `respond` -/
@[simp] theorem respond_phase (d : Word) (e : Bool) : (s.respond d e).phase = s.phase := rfl
@[simp] theorem respond_done (d : Word) (e : Bool) : (s.respond d e).done = s.done := rfl
@[simp] theorem respond_result (d : Word) (e : Bool) : (s.respond d e).result = s.result := rfl
@[simp] theorem respond_err (d : Word) (e : Bool) : (s.respond d e).err = s.err := rfl
@[simp] theorem respond_irqEn (d : Word) (e : Bool) : (s.respond d e).irqEn = s.irqEn := rfl
@[simp] theorem respond_inLen (d : Word) (e : Bool) : (s.respond d e).inLen = s.inLen := rfl
@[simp] theorem respond_outLen (d : Word) (e : Bool) : (s.respond d e).outLen = s.outLen := rfl
@[simp] theorem respond_genLen (d : Word) (e : Bool) : (s.respond d e).genLen = s.genLen := rfl
@[simp] theorem respond_discrepancy (d : Word) (e : Bool) : (s.respond d e).discrepancy = s.discrepancy := rfl
@[simp] theorem respond_candLen (d : Word) (e : Bool) : (s.respond d e).candLen = s.candLen := rfl
@[simp] theorem respond_cand0 (d : Word) (e : Bool) : (s.respond d e).cand0 = s.cand0 := rfl
@[simp] theorem respond_cand1 (d : Word) (e : Bool) : (s.respond d e).cand1 = s.cand1 := rfl
@[simp] theorem respond_tstepLo (d : Word) (e : Bool) : (s.respond d e).tstepLo = s.tstepLo := rfl
@[simp] theorem respond_tstepHi (d : Word) (e : Bool) : (s.respond d e).tstepHi = s.tstepHi := rfl
@[simp] theorem respond_stepUsedLo (d : Word) (e : Bool) : (s.respond d e).stepUsedLo = s.stepUsedLo := rfl
@[simp] theorem respond_stepUsedHi (d : Word) (e : Bool) : (s.respond d e).stepUsedHi = s.stepUsedHi := rfl
@[simp] theorem respond_inBuf (d : Word) (e : Bool) : (s.respond d e).inBuf = s.inBuf := rfl
@[simp] theorem respond_outBuf (d : Word) (e : Bool) : (s.respond d e).outBuf = s.outBuf := rfl
@[simp] theorem respond_latchedCmd (d : Word) (e : Bool) : (s.respond d e).latchedCmd = s.latchedCmd := rfl
@[simp] theorem respond_tBase (d : Word) (e : Bool) : (s.respond d e).tBase = s.tBase := rfl
@[simp] theorem respond_key (d : Word) (e : Bool) : (s.respond d e).key = s.key := rfl
@[simp] theorem respond_winI (d : Word) (e : Bool) : (s.respond d e).winI = s.winI := rfl
@[simp] theorem respond_hmacReq (d : Word) (e : Bool) : (s.respond d e).hmacReq = s.hmacReq := rfl
@[simp] theorem respond_rngReq (d : Word) (e : Bool) : (s.respond d e).rngReq = s.rngReq := rfl
@[simp] theorem respond_rst (d : Word) (e : Bool) : (s.respond d e).rst = s.rst := rfl
@[simp] theorem respond_unsupported (d : Word) (e : Bool) : (s.respond d e).unsupported = s.unsupported := rfl
@[simp] theorem respond_params (d : Word) (e : Bool) : (s.respond d e).params = s.params := rfl
@[simp] theorem respond_busRsp (d : Word) (e : Bool) : (s.respond d e).busRsp = some ⟨d, e⟩ := rfl
@[simp] theorem respond_genI (d : Word) (e : Bool) : (s.respond d e).genI = s.genI := rfl
@[simp] theorem respond_hmacSent (d : Word) (e : Bool) : (s.respond d e).hmacSent = s.hmacSent := rfl
@[simp] theorem respond_rngSent (d : Word) (e : Bool) : (s.respond d e).rngSent = s.rngSent := rfl
@[simp] theorem respond_events (d : Word) (e : Bool) : (s.respond d e).events = s.events := rfl
@[simp] theorem respond_clockFeed (d : Word) (e : Bool) : (s.respond d e).clockFeed = s.clockFeed := rfl
@[simp] theorem respond_rngFeed (d : Word) (e : Bool) : (s.respond d e).rngFeed = s.rngFeed := rfl
@[simp] theorem respond_hmacLeft (d : Word) (e : Bool) : (s.respond d e).hmacLeft = s.hmacLeft := rfl
@[simp] theorem respond_rngLeft (d : Word) (e : Bool) : (s.respond d e).rngLeft = s.rngLeft := rfl
@[simp] theorem respond_clockDraws (d : Word) (e : Bool) : (s.respond d e).clockDraws = s.clockDraws := rfl
@[simp] theorem respond_rngDraws (d : Word) (e : Bool) : (s.respond d e).rngDraws = s.rngDraws := rfl
@[simp] theorem respond_outDraws (d : Word) (e : Bool) : (s.respond d e).outDraws = s.outDraws := rfl
@[simp] theorem respond_resets (d : Word) (e : Bool) : (s.respond d e).resets = s.resets := rfl

/-! `unsupportedAccess` -/
@[simp] theorem unsupportedAccess_phase : (s.unsupportedAccess).phase = s.phase := rfl
@[simp] theorem unsupportedAccess_done : (s.unsupportedAccess).done = s.done := rfl
@[simp] theorem unsupportedAccess_result : (s.unsupportedAccess).result = s.result := rfl
@[simp] theorem unsupportedAccess_err : (s.unsupportedAccess).err = s.err := rfl
@[simp] theorem unsupportedAccess_irqEn : (s.unsupportedAccess).irqEn = s.irqEn := rfl
@[simp] theorem unsupportedAccess_inLen : (s.unsupportedAccess).inLen = s.inLen := rfl
@[simp] theorem unsupportedAccess_outLen : (s.unsupportedAccess).outLen = s.outLen := rfl
@[simp] theorem unsupportedAccess_genLen : (s.unsupportedAccess).genLen = s.genLen := rfl
@[simp] theorem unsupportedAccess_discrepancy : (s.unsupportedAccess).discrepancy = s.discrepancy := rfl
@[simp] theorem unsupportedAccess_candLen : (s.unsupportedAccess).candLen = s.candLen := rfl
@[simp] theorem unsupportedAccess_cand0 : (s.unsupportedAccess).cand0 = s.cand0 := rfl
@[simp] theorem unsupportedAccess_cand1 : (s.unsupportedAccess).cand1 = s.cand1 := rfl
@[simp] theorem unsupportedAccess_tstepLo : (s.unsupportedAccess).tstepLo = s.tstepLo := rfl
@[simp] theorem unsupportedAccess_tstepHi : (s.unsupportedAccess).tstepHi = s.tstepHi := rfl
@[simp] theorem unsupportedAccess_stepUsedLo : (s.unsupportedAccess).stepUsedLo = s.stepUsedLo := rfl
@[simp] theorem unsupportedAccess_stepUsedHi : (s.unsupportedAccess).stepUsedHi = s.stepUsedHi := rfl
@[simp] theorem unsupportedAccess_inBuf : (s.unsupportedAccess).inBuf = s.inBuf := rfl
@[simp] theorem unsupportedAccess_outBuf : (s.unsupportedAccess).outBuf = s.outBuf := rfl
@[simp] theorem unsupportedAccess_latchedCmd : (s.unsupportedAccess).latchedCmd = s.latchedCmd := rfl
@[simp] theorem unsupportedAccess_tBase : (s.unsupportedAccess).tBase = s.tBase := rfl
@[simp] theorem unsupportedAccess_key : (s.unsupportedAccess).key = s.key := rfl
@[simp] theorem unsupportedAccess_winI : (s.unsupportedAccess).winI = s.winI := rfl
@[simp] theorem unsupportedAccess_hmacReq : (s.unsupportedAccess).hmacReq = s.hmacReq := rfl
@[simp] theorem unsupportedAccess_rngReq : (s.unsupportedAccess).rngReq = s.rngReq := rfl
@[simp] theorem unsupportedAccess_rst : (s.unsupportedAccess).rst = s.rst := rfl
@[simp] theorem unsupportedAccess_unsupported : (s.unsupportedAccess).unsupported = true := rfl
@[simp] theorem unsupportedAccess_params : (s.unsupportedAccess).params = s.params := rfl
@[simp] theorem unsupportedAccess_busRsp : (s.unsupportedAccess).busRsp = some ⟨0, true⟩ := rfl
@[simp] theorem unsupportedAccess_genI : (s.unsupportedAccess).genI = s.genI := rfl
@[simp] theorem unsupportedAccess_hmacSent : (s.unsupportedAccess).hmacSent = s.hmacSent := rfl
@[simp] theorem unsupportedAccess_rngSent : (s.unsupportedAccess).rngSent = s.rngSent := rfl
@[simp] theorem unsupportedAccess_events : (s.unsupportedAccess).events = s.events := rfl
@[simp] theorem unsupportedAccess_clockFeed : (s.unsupportedAccess).clockFeed = s.clockFeed := rfl
@[simp] theorem unsupportedAccess_rngFeed : (s.unsupportedAccess).rngFeed = s.rngFeed := rfl
@[simp] theorem unsupportedAccess_hmacLeft : (s.unsupportedAccess).hmacLeft = s.hmacLeft := rfl
@[simp] theorem unsupportedAccess_rngLeft : (s.unsupportedAccess).rngLeft = s.rngLeft := rfl
@[simp] theorem unsupportedAccess_clockDraws : (s.unsupportedAccess).clockDraws = s.clockDraws := rfl
@[simp] theorem unsupportedAccess_rngDraws : (s.unsupportedAccess).rngDraws = s.rngDraws := rfl
@[simp] theorem unsupportedAccess_outDraws : (s.unsupportedAccess).outDraws = s.outDraws := rfl
@[simp] theorem unsupportedAccess_resets : (s.unsupportedAccess).resets = s.resets := rfl

/-! `pushEvent` -/
@[simp] theorem pushEvent_phase (e : Event) : (s.pushEvent e).phase = s.phase := rfl
@[simp] theorem pushEvent_done (e : Event) : (s.pushEvent e).done = s.done := rfl
@[simp] theorem pushEvent_result (e : Event) : (s.pushEvent e).result = s.result := rfl
@[simp] theorem pushEvent_err (e : Event) : (s.pushEvent e).err = s.err := rfl
@[simp] theorem pushEvent_irqEn (e : Event) : (s.pushEvent e).irqEn = s.irqEn := rfl
@[simp] theorem pushEvent_inLen (e : Event) : (s.pushEvent e).inLen = s.inLen := rfl
@[simp] theorem pushEvent_outLen (e : Event) : (s.pushEvent e).outLen = s.outLen := rfl
@[simp] theorem pushEvent_genLen (e : Event) : (s.pushEvent e).genLen = s.genLen := rfl
@[simp] theorem pushEvent_discrepancy (e : Event) : (s.pushEvent e).discrepancy = s.discrepancy := rfl
@[simp] theorem pushEvent_candLen (e : Event) : (s.pushEvent e).candLen = s.candLen := rfl
@[simp] theorem pushEvent_cand0 (e : Event) : (s.pushEvent e).cand0 = s.cand0 := rfl
@[simp] theorem pushEvent_cand1 (e : Event) : (s.pushEvent e).cand1 = s.cand1 := rfl
@[simp] theorem pushEvent_tstepLo (e : Event) : (s.pushEvent e).tstepLo = s.tstepLo := rfl
@[simp] theorem pushEvent_tstepHi (e : Event) : (s.pushEvent e).tstepHi = s.tstepHi := rfl
@[simp] theorem pushEvent_stepUsedLo (e : Event) : (s.pushEvent e).stepUsedLo = s.stepUsedLo := rfl
@[simp] theorem pushEvent_stepUsedHi (e : Event) : (s.pushEvent e).stepUsedHi = s.stepUsedHi := rfl
@[simp] theorem pushEvent_inBuf (e : Event) : (s.pushEvent e).inBuf = s.inBuf := rfl
@[simp] theorem pushEvent_outBuf (e : Event) : (s.pushEvent e).outBuf = s.outBuf := rfl
@[simp] theorem pushEvent_latchedCmd (e : Event) : (s.pushEvent e).latchedCmd = s.latchedCmd := rfl
@[simp] theorem pushEvent_tBase (e : Event) : (s.pushEvent e).tBase = s.tBase := rfl
@[simp] theorem pushEvent_key (e : Event) : (s.pushEvent e).key = s.key := rfl
@[simp] theorem pushEvent_winI (e : Event) : (s.pushEvent e).winI = s.winI := rfl
@[simp] theorem pushEvent_hmacReq (e : Event) : (s.pushEvent e).hmacReq = s.hmacReq := rfl
@[simp] theorem pushEvent_rngReq (e : Event) : (s.pushEvent e).rngReq = s.rngReq := rfl
@[simp] theorem pushEvent_rst (e : Event) : (s.pushEvent e).rst = s.rst := rfl
@[simp] theorem pushEvent_unsupported (e : Event) : (s.pushEvent e).unsupported = s.unsupported := rfl
@[simp] theorem pushEvent_params (e : Event) : (s.pushEvent e).params = s.params := rfl
@[simp] theorem pushEvent_busRsp (e : Event) : (s.pushEvent e).busRsp = s.busRsp := rfl
@[simp] theorem pushEvent_genI (e : Event) : (s.pushEvent e).genI = s.genI := rfl
@[simp] theorem pushEvent_hmacSent (e : Event) : (s.pushEvent e).hmacSent = s.hmacSent := rfl
@[simp] theorem pushEvent_rngSent (e : Event) : (s.pushEvent e).rngSent = s.rngSent := rfl
@[simp] theorem pushEvent_events (e : Event) : (s.pushEvent e).events = e :: s.events := rfl
@[simp] theorem pushEvent_clockFeed (e : Event) : (s.pushEvent e).clockFeed = s.clockFeed := rfl
@[simp] theorem pushEvent_rngFeed (e : Event) : (s.pushEvent e).rngFeed = s.rngFeed := rfl
@[simp] theorem pushEvent_hmacLeft (e : Event) : (s.pushEvent e).hmacLeft = s.hmacLeft := rfl
@[simp] theorem pushEvent_rngLeft (e : Event) : (s.pushEvent e).rngLeft = s.rngLeft := rfl
@[simp] theorem pushEvent_clockDraws (e : Event) : (s.pushEvent e).clockDraws = s.clockDraws := rfl
@[simp] theorem pushEvent_rngDraws (e : Event) : (s.pushEvent e).rngDraws = s.rngDraws := rfl
@[simp] theorem pushEvent_outDraws (e : Event) : (s.pushEvent e).outDraws = s.outDraws := rfl
@[simp] theorem pushEvent_resets (e : Event) : (s.pushEvent e).resets = s.resets := rfl

/-! `dropEvent` -/
@[simp] theorem dropEvent_phase : (s.dropEvent).phase = s.phase := rfl
@[simp] theorem dropEvent_done : (s.dropEvent).done = s.done := rfl
@[simp] theorem dropEvent_result : (s.dropEvent).result = s.result := rfl
@[simp] theorem dropEvent_err : (s.dropEvent).err = s.err := rfl
@[simp] theorem dropEvent_irqEn : (s.dropEvent).irqEn = s.irqEn := rfl
@[simp] theorem dropEvent_inLen : (s.dropEvent).inLen = s.inLen := rfl
@[simp] theorem dropEvent_outLen : (s.dropEvent).outLen = s.outLen := rfl
@[simp] theorem dropEvent_genLen : (s.dropEvent).genLen = s.genLen := rfl
@[simp] theorem dropEvent_discrepancy : (s.dropEvent).discrepancy = s.discrepancy := rfl
@[simp] theorem dropEvent_candLen : (s.dropEvent).candLen = s.candLen := rfl
@[simp] theorem dropEvent_cand0 : (s.dropEvent).cand0 = s.cand0 := rfl
@[simp] theorem dropEvent_cand1 : (s.dropEvent).cand1 = s.cand1 := rfl
@[simp] theorem dropEvent_tstepLo : (s.dropEvent).tstepLo = s.tstepLo := rfl
@[simp] theorem dropEvent_tstepHi : (s.dropEvent).tstepHi = s.tstepHi := rfl
@[simp] theorem dropEvent_stepUsedLo : (s.dropEvent).stepUsedLo = s.stepUsedLo := rfl
@[simp] theorem dropEvent_stepUsedHi : (s.dropEvent).stepUsedHi = s.stepUsedHi := rfl
@[simp] theorem dropEvent_inBuf : (s.dropEvent).inBuf = s.inBuf := rfl
@[simp] theorem dropEvent_outBuf : (s.dropEvent).outBuf = s.outBuf := rfl
@[simp] theorem dropEvent_latchedCmd : (s.dropEvent).latchedCmd = s.latchedCmd := rfl
@[simp] theorem dropEvent_tBase : (s.dropEvent).tBase = s.tBase := rfl
@[simp] theorem dropEvent_key : (s.dropEvent).key = s.key := rfl
@[simp] theorem dropEvent_winI : (s.dropEvent).winI = s.winI := rfl
@[simp] theorem dropEvent_hmacReq : (s.dropEvent).hmacReq = s.hmacReq := rfl
@[simp] theorem dropEvent_rngReq : (s.dropEvent).rngReq = s.rngReq := rfl
@[simp] theorem dropEvent_rst : (s.dropEvent).rst = s.rst := rfl
@[simp] theorem dropEvent_unsupported : (s.dropEvent).unsupported = s.unsupported := rfl
@[simp] theorem dropEvent_params : (s.dropEvent).params = s.params := rfl
@[simp] theorem dropEvent_busRsp : (s.dropEvent).busRsp = s.busRsp := rfl
@[simp] theorem dropEvent_genI : (s.dropEvent).genI = s.genI := rfl
@[simp] theorem dropEvent_hmacSent : (s.dropEvent).hmacSent = s.hmacSent := rfl
@[simp] theorem dropEvent_rngSent : (s.dropEvent).rngSent = s.rngSent := rfl
@[simp] theorem dropEvent_events : (s.dropEvent).events = s.events.tail := rfl
@[simp] theorem dropEvent_clockFeed : (s.dropEvent).clockFeed = s.clockFeed := rfl
@[simp] theorem dropEvent_rngFeed : (s.dropEvent).rngFeed = s.rngFeed := rfl
@[simp] theorem dropEvent_hmacLeft : (s.dropEvent).hmacLeft = s.hmacLeft := rfl
@[simp] theorem dropEvent_rngLeft : (s.dropEvent).rngLeft = s.rngLeft := rfl
@[simp] theorem dropEvent_clockDraws : (s.dropEvent).clockDraws = s.clockDraws := rfl
@[simp] theorem dropEvent_rngDraws : (s.dropEvent).rngDraws = s.rngDraws := rfl
@[simp] theorem dropEvent_outDraws : (s.dropEvent).outDraws = s.outDraws := rfl
@[simp] theorem dropEvent_resets : (s.dropEvent).resets = s.resets := rfl

/-! `resetCore` -/
@[simp] theorem resetCore_phase : (s.resetCore).phase = .idle := rfl
@[simp] theorem resetCore_done : (s.resetCore).done = false := rfl
@[simp] theorem resetCore_result : (s.resetCore).result = false := rfl
@[simp] theorem resetCore_err : (s.resetCore).err = .none := rfl
@[simp] theorem resetCore_irqEn : (s.resetCore).irqEn = false := rfl
@[simp] theorem resetCore_inLen : (s.resetCore).inLen = 0 := rfl
@[simp] theorem resetCore_outLen : (s.resetCore).outLen = 0 := rfl
@[simp] theorem resetCore_genLen : (s.resetCore).genLen = 16 := rfl
@[simp] theorem resetCore_discrepancy : (s.resetCore).discrepancy = 1 := rfl
@[simp] theorem resetCore_candLen : (s.resetCore).candLen = 0 := rfl
@[simp] theorem resetCore_cand0 : (s.resetCore).cand0 = 0 := rfl
@[simp] theorem resetCore_cand1 : (s.resetCore).cand1 = 0 := rfl
@[simp] theorem resetCore_tstepLo : (s.resetCore).tstepLo = 0 := rfl
@[simp] theorem resetCore_tstepHi : (s.resetCore).tstepHi = 0 := rfl
@[simp] theorem resetCore_stepUsedLo : (s.resetCore).stepUsedLo = 0 := rfl
@[simp] theorem resetCore_stepUsedHi : (s.resetCore).stepUsedHi = 0 := rfl
@[simp] theorem resetCore_inBuf : (s.resetCore).inBuf = [] := rfl
@[simp] theorem resetCore_outBuf : (s.resetCore).outBuf = [] := rfl
@[simp] theorem resetCore_latchedCmd : (s.resetCore).latchedCmd = 0 := rfl
@[simp] theorem resetCore_tBase : (s.resetCore).tBase = 0 := rfl
@[simp] theorem resetCore_key : (s.resetCore).key = [] := rfl
@[simp] theorem resetCore_winI : (s.resetCore).winI = 0 := rfl
@[simp] theorem resetCore_hmacReq : (s.resetCore).hmacReq = none := rfl
@[simp] theorem resetCore_rngReq : (s.resetCore).rngReq = false := rfl
@[simp] theorem resetCore_rst : (s.resetCore).rst = s.rst := rfl
@[simp] theorem resetCore_unsupported : (s.resetCore).unsupported = s.unsupported := rfl
@[simp] theorem resetCore_params : (s.resetCore).params = s.params := rfl
@[simp] theorem resetCore_busRsp : (s.resetCore).busRsp = none := rfl
@[simp] theorem resetCore_genI : (s.resetCore).genI = 0 := rfl
@[simp] theorem resetCore_hmacSent : (s.resetCore).hmacSent = [] := rfl
@[simp] theorem resetCore_rngSent : (s.resetCore).rngSent = 0 := rfl
@[simp] theorem resetCore_events : (s.resetCore).events = s.events := rfl
@[simp] theorem resetCore_clockFeed : (s.resetCore).clockFeed = s.clockFeed := rfl
@[simp] theorem resetCore_rngFeed : (s.resetCore).rngFeed = s.rngFeed := rfl
@[simp] theorem resetCore_hmacLeft : (s.resetCore).hmacLeft = s.hmacLeft := rfl
@[simp] theorem resetCore_rngLeft : (s.resetCore).rngLeft = s.rngLeft := rfl
@[simp] theorem resetCore_clockDraws : (s.resetCore).clockDraws = s.clockDraws := rfl
@[simp] theorem resetCore_rngDraws : (s.resetCore).rngDraws = s.rngDraws := rfl
@[simp] theorem resetCore_outDraws : (s.resetCore).outDraws = s.outDraws := rfl
@[simp] theorem resetCore_resets : (s.resetCore).resets = s.resets + 1 := rfl

/-! `sendHmac` -/
@[simp] theorem sendHmac_phase (t : TimeStep) : (s.sendHmac t).phase = s.phase := by unfold sendHmac; split <;> rfl
@[simp] theorem sendHmac_done (t : TimeStep) : (s.sendHmac t).done = s.done := by unfold sendHmac; split <;> rfl
@[simp] theorem sendHmac_result (t : TimeStep) : (s.sendHmac t).result = s.result := by unfold sendHmac; split <;> rfl
@[simp] theorem sendHmac_err (t : TimeStep) : (s.sendHmac t).err = s.err := by unfold sendHmac; split <;> rfl
@[simp] theorem sendHmac_irqEn (t : TimeStep) : (s.sendHmac t).irqEn = s.irqEn := by unfold sendHmac; split <;> rfl
@[simp] theorem sendHmac_inLen (t : TimeStep) : (s.sendHmac t).inLen = s.inLen := by unfold sendHmac; split <;> rfl
@[simp] theorem sendHmac_outLen (t : TimeStep) : (s.sendHmac t).outLen = s.outLen := by unfold sendHmac; split <;> rfl
@[simp] theorem sendHmac_genLen (t : TimeStep) : (s.sendHmac t).genLen = s.genLen := by unfold sendHmac; split <;> rfl
@[simp] theorem sendHmac_discrepancy (t : TimeStep) : (s.sendHmac t).discrepancy = s.discrepancy := by unfold sendHmac; split <;> rfl
@[simp] theorem sendHmac_candLen (t : TimeStep) : (s.sendHmac t).candLen = s.candLen := by unfold sendHmac; split <;> rfl
@[simp] theorem sendHmac_cand0 (t : TimeStep) : (s.sendHmac t).cand0 = s.cand0 := by unfold sendHmac; split <;> rfl
@[simp] theorem sendHmac_cand1 (t : TimeStep) : (s.sendHmac t).cand1 = s.cand1 := by unfold sendHmac; split <;> rfl
@[simp] theorem sendHmac_tstepLo (t : TimeStep) : (s.sendHmac t).tstepLo = s.tstepLo := by unfold sendHmac; split <;> rfl
@[simp] theorem sendHmac_tstepHi (t : TimeStep) : (s.sendHmac t).tstepHi = s.tstepHi := by unfold sendHmac; split <;> rfl
@[simp] theorem sendHmac_stepUsedLo (t : TimeStep) : (s.sendHmac t).stepUsedLo = s.stepUsedLo := by unfold sendHmac; split <;> rfl
@[simp] theorem sendHmac_stepUsedHi (t : TimeStep) : (s.sendHmac t).stepUsedHi = s.stepUsedHi := by unfold sendHmac; split <;> rfl
@[simp] theorem sendHmac_inBuf (t : TimeStep) : (s.sendHmac t).inBuf = s.inBuf := by unfold sendHmac; split <;> rfl
@[simp] theorem sendHmac_outBuf (t : TimeStep) : (s.sendHmac t).outBuf = s.outBuf := by unfold sendHmac; split <;> rfl
@[simp] theorem sendHmac_latchedCmd (t : TimeStep) : (s.sendHmac t).latchedCmd = s.latchedCmd := by unfold sendHmac; split <;> rfl
@[simp] theorem sendHmac_tBase (t : TimeStep) : (s.sendHmac t).tBase = s.tBase := by unfold sendHmac; split <;> rfl
@[simp] theorem sendHmac_key (t : TimeStep) : (s.sendHmac t).key = s.key := by unfold sendHmac; split <;> rfl
@[simp] theorem sendHmac_winI (t : TimeStep) : (s.sendHmac t).winI = s.winI := by unfold sendHmac; split <;> rfl
@[simp] theorem sendHmac_rngReq (t : TimeStep) : (s.sendHmac t).rngReq = s.rngReq := by unfold sendHmac; split <;> rfl
@[simp] theorem sendHmac_rst (t : TimeStep) : (s.sendHmac t).rst = s.rst := by unfold sendHmac; split <;> rfl
@[simp] theorem sendHmac_unsupported (t : TimeStep) : (s.sendHmac t).unsupported = s.unsupported := by unfold sendHmac; split <;> rfl
@[simp] theorem sendHmac_params (t : TimeStep) : (s.sendHmac t).params = s.params := by unfold sendHmac; split <;> rfl
@[simp] theorem sendHmac_busRsp (t : TimeStep) : (s.sendHmac t).busRsp = s.busRsp := by unfold sendHmac; split <;> rfl
@[simp] theorem sendHmac_genI (t : TimeStep) : (s.sendHmac t).genI = s.genI := by unfold sendHmac; split <;> rfl
@[simp] theorem sendHmac_rngSent (t : TimeStep) : (s.sendHmac t).rngSent = s.rngSent := by unfold sendHmac; split <;> rfl
@[simp] theorem sendHmac_events (t : TimeStep) : (s.sendHmac t).events = s.events := by unfold sendHmac; split <;> rfl
@[simp] theorem sendHmac_clockFeed (t : TimeStep) : (s.sendHmac t).clockFeed = s.clockFeed := by unfold sendHmac; split <;> rfl
@[simp] theorem sendHmac_rngFeed (t : TimeStep) : (s.sendHmac t).rngFeed = s.rngFeed := by unfold sendHmac; split <;> rfl
@[simp] theorem sendHmac_hmacLeft (t : TimeStep) : (s.sendHmac t).hmacLeft = s.hmacLeft := by unfold sendHmac; split <;> rfl
@[simp] theorem sendHmac_rngLeft (t : TimeStep) : (s.sendHmac t).rngLeft = s.rngLeft := by unfold sendHmac; split <;> rfl
@[simp] theorem sendHmac_clockDraws (t : TimeStep) : (s.sendHmac t).clockDraws = s.clockDraws := by unfold sendHmac; split <;> rfl
@[simp] theorem sendHmac_rngDraws (t : TimeStep) : (s.sendHmac t).rngDraws = s.rngDraws := by unfold sendHmac; split <;> rfl
@[simp] theorem sendHmac_outDraws (t : TimeStep) : (s.sendHmac t).outDraws = s.outDraws := by unfold sendHmac; split <;> rfl
@[simp] theorem sendHmac_resets (t : TimeStep) : (s.sendHmac t).resets = s.resets := by unfold sendHmac; split <;> rfl

/-! `sendRng` -/
@[simp] theorem sendRng_phase : (s.sendRng).phase = s.phase := by unfold sendRng; split <;> rfl
@[simp] theorem sendRng_done : (s.sendRng).done = s.done := by unfold sendRng; split <;> rfl
@[simp] theorem sendRng_result : (s.sendRng).result = s.result := by unfold sendRng; split <;> rfl
@[simp] theorem sendRng_err : (s.sendRng).err = s.err := by unfold sendRng; split <;> rfl
@[simp] theorem sendRng_irqEn : (s.sendRng).irqEn = s.irqEn := by unfold sendRng; split <;> rfl
@[simp] theorem sendRng_inLen : (s.sendRng).inLen = s.inLen := by unfold sendRng; split <;> rfl
@[simp] theorem sendRng_outLen : (s.sendRng).outLen = s.outLen := by unfold sendRng; split <;> rfl
@[simp] theorem sendRng_genLen : (s.sendRng).genLen = s.genLen := by unfold sendRng; split <;> rfl
@[simp] theorem sendRng_discrepancy : (s.sendRng).discrepancy = s.discrepancy := by unfold sendRng; split <;> rfl
@[simp] theorem sendRng_candLen : (s.sendRng).candLen = s.candLen := by unfold sendRng; split <;> rfl
@[simp] theorem sendRng_cand0 : (s.sendRng).cand0 = s.cand0 := by unfold sendRng; split <;> rfl
@[simp] theorem sendRng_cand1 : (s.sendRng).cand1 = s.cand1 := by unfold sendRng; split <;> rfl
@[simp] theorem sendRng_tstepLo : (s.sendRng).tstepLo = s.tstepLo := by unfold sendRng; split <;> rfl
@[simp] theorem sendRng_tstepHi : (s.sendRng).tstepHi = s.tstepHi := by unfold sendRng; split <;> rfl
@[simp] theorem sendRng_stepUsedLo : (s.sendRng).stepUsedLo = s.stepUsedLo := by unfold sendRng; split <;> rfl
@[simp] theorem sendRng_stepUsedHi : (s.sendRng).stepUsedHi = s.stepUsedHi := by unfold sendRng; split <;> rfl
@[simp] theorem sendRng_inBuf : (s.sendRng).inBuf = s.inBuf := by unfold sendRng; split <;> rfl
@[simp] theorem sendRng_outBuf : (s.sendRng).outBuf = s.outBuf := by unfold sendRng; split <;> rfl
@[simp] theorem sendRng_latchedCmd : (s.sendRng).latchedCmd = s.latchedCmd := by unfold sendRng; split <;> rfl
@[simp] theorem sendRng_tBase : (s.sendRng).tBase = s.tBase := by unfold sendRng; split <;> rfl
@[simp] theorem sendRng_key : (s.sendRng).key = s.key := by unfold sendRng; split <;> rfl
@[simp] theorem sendRng_winI : (s.sendRng).winI = s.winI := by unfold sendRng; split <;> rfl
@[simp] theorem sendRng_hmacReq : (s.sendRng).hmacReq = s.hmacReq := by unfold sendRng; split <;> rfl
@[simp] theorem sendRng_rst : (s.sendRng).rst = s.rst := by unfold sendRng; split <;> rfl
@[simp] theorem sendRng_unsupported : (s.sendRng).unsupported = s.unsupported := by unfold sendRng; split <;> rfl
@[simp] theorem sendRng_params : (s.sendRng).params = s.params := by unfold sendRng; split <;> rfl
@[simp] theorem sendRng_busRsp : (s.sendRng).busRsp = s.busRsp := by unfold sendRng; split <;> rfl
@[simp] theorem sendRng_genI : (s.sendRng).genI = s.genI := by unfold sendRng; split <;> rfl
@[simp] theorem sendRng_hmacSent : (s.sendRng).hmacSent = s.hmacSent := by unfold sendRng; split <;> rfl
@[simp] theorem sendRng_events : (s.sendRng).events = s.events := by unfold sendRng; split <;> rfl
@[simp] theorem sendRng_clockFeed : (s.sendRng).clockFeed = s.clockFeed := by unfold sendRng; split <;> rfl
@[simp] theorem sendRng_rngFeed : (s.sendRng).rngFeed = s.rngFeed := by unfold sendRng; split <;> rfl
@[simp] theorem sendRng_hmacLeft : (s.sendRng).hmacLeft = s.hmacLeft := by unfold sendRng; split <;> rfl
@[simp] theorem sendRng_rngLeft : (s.sendRng).rngLeft = s.rngLeft := by unfold sendRng; split <;> rfl
@[simp] theorem sendRng_clockDraws : (s.sendRng).clockDraws = s.clockDraws := by unfold sendRng; split <;> rfl
@[simp] theorem sendRng_rngDraws : (s.sendRng).rngDraws = s.rngDraws := by unfold sendRng; split <;> rfl
@[simp] theorem sendRng_outDraws : (s.sendRng).outDraws = s.outDraws := by unfold sendRng; split <;> rfl
@[simp] theorem sendRng_resets : (s.sendRng).resets = s.resets := by unfold sendRng; split <;> rfl

/-! `dropOutDraws` -/
@[simp] theorem dropOutDraws_phase (off : Nat) : (s.dropOutDraws off).phase = s.phase := by unfold dropOutDraws; split <;> rfl
@[simp] theorem dropOutDraws_done (off : Nat) : (s.dropOutDraws off).done = s.done := by unfold dropOutDraws; split <;> rfl
@[simp] theorem dropOutDraws_result (off : Nat) : (s.dropOutDraws off).result = s.result := by unfold dropOutDraws; split <;> rfl
@[simp] theorem dropOutDraws_err (off : Nat) : (s.dropOutDraws off).err = s.err := by unfold dropOutDraws; split <;> rfl
@[simp] theorem dropOutDraws_irqEn (off : Nat) : (s.dropOutDraws off).irqEn = s.irqEn := by unfold dropOutDraws; split <;> rfl
@[simp] theorem dropOutDraws_inLen (off : Nat) : (s.dropOutDraws off).inLen = s.inLen := by unfold dropOutDraws; split <;> rfl
@[simp] theorem dropOutDraws_outLen (off : Nat) : (s.dropOutDraws off).outLen = s.outLen := by unfold dropOutDraws; split <;> rfl
@[simp] theorem dropOutDraws_genLen (off : Nat) : (s.dropOutDraws off).genLen = s.genLen := by unfold dropOutDraws; split <;> rfl
@[simp] theorem dropOutDraws_discrepancy (off : Nat) : (s.dropOutDraws off).discrepancy = s.discrepancy := by unfold dropOutDraws; split <;> rfl
@[simp] theorem dropOutDraws_candLen (off : Nat) : (s.dropOutDraws off).candLen = s.candLen := by unfold dropOutDraws; split <;> rfl
@[simp] theorem dropOutDraws_cand0 (off : Nat) : (s.dropOutDraws off).cand0 = s.cand0 := by unfold dropOutDraws; split <;> rfl
@[simp] theorem dropOutDraws_cand1 (off : Nat) : (s.dropOutDraws off).cand1 = s.cand1 := by unfold dropOutDraws; split <;> rfl
@[simp] theorem dropOutDraws_tstepLo (off : Nat) : (s.dropOutDraws off).tstepLo = s.tstepLo := by unfold dropOutDraws; split <;> rfl
@[simp] theorem dropOutDraws_tstepHi (off : Nat) : (s.dropOutDraws off).tstepHi = s.tstepHi := by unfold dropOutDraws; split <;> rfl
@[simp] theorem dropOutDraws_stepUsedLo (off : Nat) : (s.dropOutDraws off).stepUsedLo = s.stepUsedLo := by unfold dropOutDraws; split <;> rfl
@[simp] theorem dropOutDraws_stepUsedHi (off : Nat) : (s.dropOutDraws off).stepUsedHi = s.stepUsedHi := by unfold dropOutDraws; split <;> rfl
@[simp] theorem dropOutDraws_inBuf (off : Nat) : (s.dropOutDraws off).inBuf = s.inBuf := by unfold dropOutDraws; split <;> rfl
@[simp] theorem dropOutDraws_outBuf (off : Nat) : (s.dropOutDraws off).outBuf = s.outBuf := by unfold dropOutDraws; split <;> rfl
@[simp] theorem dropOutDraws_latchedCmd (off : Nat) : (s.dropOutDraws off).latchedCmd = s.latchedCmd := by unfold dropOutDraws; split <;> rfl
@[simp] theorem dropOutDraws_tBase (off : Nat) : (s.dropOutDraws off).tBase = s.tBase := by unfold dropOutDraws; split <;> rfl
@[simp] theorem dropOutDraws_key (off : Nat) : (s.dropOutDraws off).key = s.key := by unfold dropOutDraws; split <;> rfl
@[simp] theorem dropOutDraws_winI (off : Nat) : (s.dropOutDraws off).winI = s.winI := by unfold dropOutDraws; split <;> rfl
@[simp] theorem dropOutDraws_hmacReq (off : Nat) : (s.dropOutDraws off).hmacReq = s.hmacReq := by unfold dropOutDraws; split <;> rfl
@[simp] theorem dropOutDraws_rngReq (off : Nat) : (s.dropOutDraws off).rngReq = s.rngReq := by unfold dropOutDraws; split <;> rfl
@[simp] theorem dropOutDraws_rst (off : Nat) : (s.dropOutDraws off).rst = s.rst := by unfold dropOutDraws; split <;> rfl
@[simp] theorem dropOutDraws_unsupported (off : Nat) : (s.dropOutDraws off).unsupported = s.unsupported := by unfold dropOutDraws; split <;> rfl
@[simp] theorem dropOutDraws_params (off : Nat) : (s.dropOutDraws off).params = s.params := by unfold dropOutDraws; split <;> rfl
@[simp] theorem dropOutDraws_busRsp (off : Nat) : (s.dropOutDraws off).busRsp = s.busRsp := by unfold dropOutDraws; split <;> rfl
@[simp] theorem dropOutDraws_genI (off : Nat) : (s.dropOutDraws off).genI = s.genI := by unfold dropOutDraws; split <;> rfl
@[simp] theorem dropOutDraws_hmacSent (off : Nat) : (s.dropOutDraws off).hmacSent = s.hmacSent := by unfold dropOutDraws; split <;> rfl
@[simp] theorem dropOutDraws_rngSent (off : Nat) : (s.dropOutDraws off).rngSent = s.rngSent := by unfold dropOutDraws; split <;> rfl
@[simp] theorem dropOutDraws_events (off : Nat) : (s.dropOutDraws off).events = s.events := by unfold dropOutDraws; split <;> rfl
@[simp] theorem dropOutDraws_clockFeed (off : Nat) : (s.dropOutDraws off).clockFeed = s.clockFeed := by unfold dropOutDraws; split <;> rfl
@[simp] theorem dropOutDraws_rngFeed (off : Nat) : (s.dropOutDraws off).rngFeed = s.rngFeed := by unfold dropOutDraws; split <;> rfl
@[simp] theorem dropOutDraws_hmacLeft (off : Nat) : (s.dropOutDraws off).hmacLeft = s.hmacLeft := by unfold dropOutDraws; split <;> rfl
@[simp] theorem dropOutDraws_rngLeft (off : Nat) : (s.dropOutDraws off).rngLeft = s.rngLeft := by unfold dropOutDraws; split <;> rfl
@[simp] theorem dropOutDraws_clockDraws (off : Nat) : (s.dropOutDraws off).clockDraws = s.clockDraws := by unfold dropOutDraws; split <;> rfl
@[simp] theorem dropOutDraws_rngDraws (off : Nat) : (s.dropOutDraws off).rngDraws = s.rngDraws := by unfold dropOutDraws; split <;> rfl
@[simp] theorem dropOutDraws_resets (off : Nat) : (s.dropOutDraws off).resets = s.resets := by unfold dropOutDraws; split <;> rfl

/-! `writeInByte` -/
@[simp] theorem writeInByte_phase (i : Nat) (b : Byte) : (s.writeInByte i b).phase = s.phase := by unfold writeInByte; split <;> rfl
@[simp] theorem writeInByte_done (i : Nat) (b : Byte) : (s.writeInByte i b).done = s.done := by unfold writeInByte; split <;> rfl
@[simp] theorem writeInByte_result (i : Nat) (b : Byte) : (s.writeInByte i b).result = s.result := by unfold writeInByte; split <;> rfl
@[simp] theorem writeInByte_err (i : Nat) (b : Byte) : (s.writeInByte i b).err = s.err := by unfold writeInByte; split <;> rfl
@[simp] theorem writeInByte_irqEn (i : Nat) (b : Byte) : (s.writeInByte i b).irqEn = s.irqEn := by unfold writeInByte; split <;> rfl
@[simp] theorem writeInByte_inLen (i : Nat) (b : Byte) : (s.writeInByte i b).inLen = s.inLen := by unfold writeInByte; split <;> rfl
@[simp] theorem writeInByte_outLen (i : Nat) (b : Byte) : (s.writeInByte i b).outLen = s.outLen := by unfold writeInByte; split <;> rfl
@[simp] theorem writeInByte_genLen (i : Nat) (b : Byte) : (s.writeInByte i b).genLen = s.genLen := by unfold writeInByte; split <;> rfl
@[simp] theorem writeInByte_discrepancy (i : Nat) (b : Byte) : (s.writeInByte i b).discrepancy = s.discrepancy := by unfold writeInByte; split <;> rfl
@[simp] theorem writeInByte_candLen (i : Nat) (b : Byte) : (s.writeInByte i b).candLen = s.candLen := by unfold writeInByte; split <;> rfl
@[simp] theorem writeInByte_cand0 (i : Nat) (b : Byte) : (s.writeInByte i b).cand0 = s.cand0 := by unfold writeInByte; split <;> rfl
@[simp] theorem writeInByte_cand1 (i : Nat) (b : Byte) : (s.writeInByte i b).cand1 = s.cand1 := by unfold writeInByte; split <;> rfl
@[simp] theorem writeInByte_tstepLo (i : Nat) (b : Byte) : (s.writeInByte i b).tstepLo = s.tstepLo := by unfold writeInByte; split <;> rfl
@[simp] theorem writeInByte_tstepHi (i : Nat) (b : Byte) : (s.writeInByte i b).tstepHi = s.tstepHi := by unfold writeInByte; split <;> rfl
@[simp] theorem writeInByte_stepUsedLo (i : Nat) (b : Byte) : (s.writeInByte i b).stepUsedLo = s.stepUsedLo := by unfold writeInByte; split <;> rfl
@[simp] theorem writeInByte_stepUsedHi (i : Nat) (b : Byte) : (s.writeInByte i b).stepUsedHi = s.stepUsedHi := by unfold writeInByte; split <;> rfl
@[simp] theorem writeInByte_outBuf (i : Nat) (b : Byte) : (s.writeInByte i b).outBuf = s.outBuf := by unfold writeInByte; split <;> rfl
@[simp] theorem writeInByte_latchedCmd (i : Nat) (b : Byte) : (s.writeInByte i b).latchedCmd = s.latchedCmd := by unfold writeInByte; split <;> rfl
@[simp] theorem writeInByte_tBase (i : Nat) (b : Byte) : (s.writeInByte i b).tBase = s.tBase := by unfold writeInByte; split <;> rfl
@[simp] theorem writeInByte_key (i : Nat) (b : Byte) : (s.writeInByte i b).key = s.key := by unfold writeInByte; split <;> rfl
@[simp] theorem writeInByte_winI (i : Nat) (b : Byte) : (s.writeInByte i b).winI = s.winI := by unfold writeInByte; split <;> rfl
@[simp] theorem writeInByte_hmacReq (i : Nat) (b : Byte) : (s.writeInByte i b).hmacReq = s.hmacReq := by unfold writeInByte; split <;> rfl
@[simp] theorem writeInByte_rngReq (i : Nat) (b : Byte) : (s.writeInByte i b).rngReq = s.rngReq := by unfold writeInByte; split <;> rfl
@[simp] theorem writeInByte_rst (i : Nat) (b : Byte) : (s.writeInByte i b).rst = s.rst := by unfold writeInByte; split <;> rfl
@[simp] theorem writeInByte_unsupported (i : Nat) (b : Byte) : (s.writeInByte i b).unsupported = s.unsupported := by unfold writeInByte; split <;> rfl
@[simp] theorem writeInByte_params (i : Nat) (b : Byte) : (s.writeInByte i b).params = s.params := by unfold writeInByte; split <;> rfl
@[simp] theorem writeInByte_busRsp (i : Nat) (b : Byte) : (s.writeInByte i b).busRsp = s.busRsp := by unfold writeInByte; split <;> rfl
@[simp] theorem writeInByte_genI (i : Nat) (b : Byte) : (s.writeInByte i b).genI = s.genI := by unfold writeInByte; split <;> rfl
@[simp] theorem writeInByte_hmacSent (i : Nat) (b : Byte) : (s.writeInByte i b).hmacSent = s.hmacSent := by unfold writeInByte; split <;> rfl
@[simp] theorem writeInByte_rngSent (i : Nat) (b : Byte) : (s.writeInByte i b).rngSent = s.rngSent := by unfold writeInByte; split <;> rfl
@[simp] theorem writeInByte_events (i : Nat) (b : Byte) : (s.writeInByte i b).events = s.events := by unfold writeInByte; split <;> rfl
@[simp] theorem writeInByte_clockFeed (i : Nat) (b : Byte) : (s.writeInByte i b).clockFeed = s.clockFeed := by unfold writeInByte; split <;> rfl
@[simp] theorem writeInByte_rngFeed (i : Nat) (b : Byte) : (s.writeInByte i b).rngFeed = s.rngFeed := by unfold writeInByte; split <;> rfl
@[simp] theorem writeInByte_hmacLeft (i : Nat) (b : Byte) : (s.writeInByte i b).hmacLeft = s.hmacLeft := by unfold writeInByte; split <;> rfl
@[simp] theorem writeInByte_rngLeft (i : Nat) (b : Byte) : (s.writeInByte i b).rngLeft = s.rngLeft := by unfold writeInByte; split <;> rfl
@[simp] theorem writeInByte_clockDraws (i : Nat) (b : Byte) : (s.writeInByte i b).clockDraws = s.clockDraws := by unfold writeInByte; split <;> rfl
@[simp] theorem writeInByte_rngDraws (i : Nat) (b : Byte) : (s.writeInByte i b).rngDraws = s.rngDraws := by unfold writeInByte; split <;> rfl
@[simp] theorem writeInByte_outDraws (i : Nat) (b : Byte) : (s.writeInByte i b).outDraws = s.outDraws := by unfold writeInByte; split <;> rfl
@[simp] theorem writeInByte_resets (i : Nat) (b : Byte) : (s.writeInByte i b).resets = s.resets := by unfold writeInByte; split <;> rfl

end Sys2Proof.Machine.State
end

