-- ==== Sys2Proof/Laws/Ops.lean ====
section
/-! SUPPORT. One lemma for each shared operation that says once everything it can do, and the frames of the two loops. -/

namespace Sys2Proof

open Machine

/-! ## Frames compose -/

theorem SameOperands.refl (s : State) : SameOperands s s := by constructor <;> rfl

theorem SameOperands.trans {s t u : State} (h : SameOperands s t) (k : SameOperands t u) : SameOperands s u := by
  cases h; cases k; constructor <;> (first | (simp only [*]))

theorem SameRunning.refl (s : State) : SameRunning s s := ⟨.refl s, rfl, rfl⟩

theorem SameRunning.trans {s t u : State} (h : SameRunning s t) (k : SameRunning t u) : SameRunning s u :=
  ⟨h.toSameOperands.trans k.toSameOperands, k.latchedCmd.trans h.latchedCmd, k.tBase.trans h.tBase⟩

theorem SameHmac.refl (s : State) : SameHmac s s := by constructor <;> rfl

theorem SameRng.refl (s : State) : SameRng s s := by constructor <;> rfl

theorem SameRng.trans {s t u : State} (h : SameRng s t) (k : SameRng t u) : SameRng s u := by
  cases h; cases k; constructor <;> (first | (simp only [*]))

theorem SameHmac.trans {s t u : State} (h : SameHmac s t) (k : SameHmac t u) : SameHmac s u := by
  cases h; cases k; constructor <;> (first | (simp only [*]))

namespace Machine

/-! ## Completion -/

theorem finish_sameOperands (s : State) (e : Err) (r : Bool) (n : Nat) : SameOperands s (s.finish e r n) := by
  constructor <;> rfl

theorem finish_sameHmac (s : State) (e : Err) (r : Bool) (n : Nat) : SameHmac s (s.finish e r n) := by
  constructor <;> rfl

theorem finish_sameRng (s : State) (e : Err) (r : Bool) (n : Nat) : SameRng s (s.finish e r n) := by
  constructor <;> rfl

/-- A completion keeps nothing of the command (R18). -/
theorem finish_forgotten (s : State) (e : Err) (r : Bool) (n : Nat) : Forgotten (s.finish e r n) := by
  constructor <;> rfl

/-- `finish` leaves exactly these flags (R133). -/
theorem finish_completed (s : State) (e : Err) (r : Bool) {n : Nat} (h : n < 2 ^ 32) :
    Completed (s.finish e r n) e r n := by
  constructor
  · rfl
  · rfl
  · rfl
  · rfl
  · rw [State.finish_outLen, BitVec.toNat_ofNat, Nat.mod_eq_of_lt h]

theorem raise_completed (s : State) (e : Err) : Completed (s.raise e) e false 0 :=
  finish_completed s e false (by decide)

theorem writeOut_written (s : State) (r : List Byte) : OutWritten s (s.writeOut r) r := by
  constructor
  · intro i h
    simp [memGet_memSetFrom, h]
  · intro i h
    simp only [State.writeOut_outBuf, memGet_memSetFrom]
    rw [if_neg (by omega)]

/-! ## The ports -/

/-- What sending an HMAC-SHA1 request can do: nothing while it is in flight, else it is in flight and counted. -/
theorem sendHmac_cases (s : State) (t : TimeStep) :
    (s.hmacReq ≠ none ∧ s.sendHmac t = s) ∨
      (s.hmacReq = none ∧ s.sendHmac t = { s with hmacReq := some ⟨s.key, t⟩, hmacSent := ⟨s.key, t⟩ :: s.hmacSent }) := by
  cases h : s.hmacReq <;> simp [State.sendHmac, h]

/-- Sending is idempotent: the port takes one request at a time (R111). -/
theorem sendHmac_sendHmac (s : State) (x y : TimeStep) : (s.sendHmac x).sendHmac y = s.sendHmac x := by
  cases h : s.hmacReq <;> simp [State.sendHmac, h]

/-- What asking the HMAC-SHA1 core can do: wait while it is silent, else the digest of KEY and the step. -/
theorem askHmac_cases (s : State) (t : TimeStep) :
    (s.hmacLeft = some 0 ∧ s.askHmac t = (none, s.sendHmac t)) ∨
      (s.hmacLeft ≠ some 0 ∧
        s.askHmac t = (some (hmacSha1 s.params.hmac s.key (beBytes 8 t.toNat)), (s.sendHmac t).hmacAnswered)) := by
  by_cases h : s.hmacLeft = some 0
  · exact .inl ⟨h, by simp [State.askHmac, h]⟩
  · exact .inr ⟨h, by simp [State.askHmac, h, Config.counterBytes]⟩

theorem sendRng_cases (s : State) :
    (s.rngReq = true ∧ s.sendRng = s) ∨
      (s.rngReq = false ∧ s.sendRng = { s with rngReq := true, rngSent := s.rngSent + 1 }) := by
  cases h : s.rngReq <;> simp [State.sendRng, h]

/-- Sending is idempotent: the port takes one request at a time (R118). -/
theorem sendRng_sendRng (s : State) : s.sendRng.sendRng = s.sendRng := by
  cases h : s.rngReq <;> simp [State.sendRng, h]

/-- What asking the RNG can do: wait while it is silent, else its next answer. -/
theorem askRng_cases (s : State) :
    (s.rngLeft = some 0 ∧ s.askRng = (none, s.sendRng)) ∨
      (s.rngLeft ≠ some 0 ∧ s.askRng = (some s.rngNext, s.sendRng.rngAnswered)) := by
  by_cases h : s.rngLeft = some 0
  · exact .inl ⟨h, by simp [State.askRng, h]⟩
  · exact .inr ⟨h, by simp [State.askRng, h]⟩

theorem sendHmac_sameRunning (s : State) (t : TimeStep) : SameRunning s (s.sendHmac t) :=
  ⟨by constructor <;> simp, by simp, by simp⟩

theorem sendHmac_sameRng (s : State) (t : TimeStep) : SameRng s (s.sendHmac t) := by
  constructor <;> simp

theorem hmacAnswered_sameRunning (s : State) : SameRunning s s.hmacAnswered :=
  ⟨by constructor <;> rfl, rfl, rfl⟩

theorem hmacAnswered_sameRng (s : State) : SameRng s s.hmacAnswered := by constructor <;> rfl

theorem sendRng_sameRunning (s : State) : SameRunning s s.sendRng :=
  ⟨by constructor <;> simp, by simp, by simp⟩

theorem sendRng_sameHmac (s : State) : SameHmac s s.sendRng := by constructor <;> simp

theorem rngAnswered_sameRunning (s : State) : SameRunning s s.rngAnswered :=
  ⟨by constructor <;> rfl, rfl, rfl⟩

theorem rngAnswered_sameHmac (s : State) : SameHmac s s.rngAnswered := by constructor <;> rfl

theorem rngNth_zero (s : State) : s.rngNth 0 = s.rngNext := by
  unfold State.rngNth State.rngNext
  cases s.rngFeed <;> rfl

/-- Taking an answer moves the answers up by one. -/
theorem rngNth_shift (s t : State) (h : t.rngFeed = s.rngFeed.tail) (h' : t.rngDraws = s.rngDraws + 1) (k : Nat) :
    t.rngNth k = s.rngNth (k + 1) := by
  unfold State.rngNth
  rw [h, h', Nat.add_assoc, Nat.add_comm 1 k]
  cases s.rngFeed <;> simp

/-- What the end of COMPUTE can do: wait with its request in flight, or complete with the code of T_BASE (R99 to R102). -/
theorem computeWithKey_cases (s : State) :
    (s.hmacLeft = some 0 ∧ computeWithKey s = s.sendHmac s.tBase) ∨
      (s.hmacLeft ≠ some 0 ∧
        computeWithKey s =
          ((s.sendHmac s.tBase).hmacAnswered.writeOut (totpCode s.params.hmac s.key s.tBase)).finish .none false 6) := by
  unfold computeWithKey
  rcases askHmac_cases s s.tBase with ⟨h, h'⟩ | ⟨h, h'⟩ <;> rw [h']
  · exact .inl ⟨h, rfl⟩
  · exact .inr ⟨h, rfl⟩

/-- What accept can do: latch the word, and for COMPUTE and VERIFY within capacity resolve the time step (R95, R132). -/
theorem accept_cases (s : State) (w : Word) :
    s.accept w = s.latch w ∨
      ∃ tsel, s.overCap = false ∧ (decodeWord w = .ok (.compute tsel) ∨ decodeWord w = .ok (.verify tsel)) ∧
        s.accept w = (s.latch w).resolveStep tsel := by
  unfold State.accept
  cases h : decodeWord w with
  | error r => simp
  | ok i => cases i <;> simp <;> by_cases hc : s.overCap = true <;> simp [hc]

/-- A register stands at its offset. -/
theorem regAt_regOffset (r : Reg) : regAt (regOffset r) = some r := by cases r <;> decide

theorem windowOffset_reg (p : Params) (r : Reg) : windowOffset p (p.pBase + regOffset r) = some (regOffset r) := by
  unfold windowOffset
  have : regOffset r < 0x4000 := by cases r <;> decide
  rw [if_pos (by omega)]
  congr 1
  omega

/-- A supported register write on the bus is the register's own write (R48, R55). -/
theorem busWrite_reg (s : State) (r : Reg) (v : Word) :
    s.busWrite (regOffset r) 4 v = (s.writeReg r v).respond 0 false := by
  have h1 : writeSupported (regOffset r) 4 = true := by cases r <;> decide
  have h2 : regionOf (regOffset r) = .registers := by cases r <;> decide
  simp [State.busWrite, State.writeEffect, h1, h2, regAt_regOffset]

/-- A host's register write at the head of the tape, one step. -/
theorem step_writeEvent (s : State) (r : Reg) (v : Word) (rest : List Event) (hr : s.rst = false)
    (he : s.events = writeEvent s.params r v :: rest) :
    step s = .next ((s.dropEvent.writeReg r v).respond 0 false) := by
  unfold step
  rw [he]
  simp only [writeEvent, HostLine.event, takeEvent, State.dropEvent_rst, hr, Bool.false_eq_true, if_false, hostAccess,
    State.dropEvent_params]
  rw [windowOffset_reg]
  simp [busWrite_reg]

/-- The core's turn at the head of the tape, one step. -/
theorem step_coreTurn (s : State) (rest : List Event) (he : s.events = .coreTurn :: rest) :
    step s = coreTurn s.dropEvent := by
  simp [step, he, takeEvent]

/-! ## The loops -/

/-- What a turn of the VERIFY loop never touches, and that it ends in a completion or in a wait with the command as it was. -/
theorem verifyLoop_frame (n : Nat) (s : State) :
    SameOperands s (verifyLoop n s) ∧ SameRng s (verifyLoop n s) ∧ (verifyLoop n s).outBuf = s.outBuf ∧
      ((∃ u r, verifyLoop n s = State.finish u .none r 0) ∨
        (SameRunning s (verifyLoop n s) ∧ (verifyLoop n s).key = s.key ∧ (verifyLoop n s).phase = s.phase ∧
          (verifyLoop n s).genI = s.genI)) := by
  induction n generalizing s with
  | zero => exact ⟨finish_sameOperands .., finish_sameRng .., rfl, .inl ⟨s, false, rfl⟩⟩
  | succ n ih =>
    rw [verifyLoop]
    rcases askHmac_cases s (windowStep s.tBase s.disc s.winI) with ⟨-, h⟩ | ⟨-, h⟩ <;> rw [h]
    · exact ⟨(sendHmac_sameRunning ..).toSameOperands, sendHmac_sameRng .., by simp,
        .inr ⟨sendHmac_sameRunning .., by simp, by simp, by simp⟩⟩
    · have ho := (sendHmac_sameRunning s (windowStep s.tBase s.disc s.winI)).trans (hmacAnswered_sameRunning _)
      have hr := (sendHmac_sameRng s (windowStep s.tBase s.disc s.winI)).trans (hmacAnswered_sameRng _)
      dsimp only
      split
      · exact ⟨ho.toSameOperands.trans (finish_sameOperands ..), hr.trans (finish_sameRng ..), by simp, .inl ⟨_, true, rfl⟩⟩
      · obtain ⟨a, b, c, d⟩ := ih ((s.sendHmac (windowStep s.tBase s.disc s.winI)).hmacAnswered).nextOffset
        have hn : SameRunning ((s.sendHmac (windowStep s.tBase s.disc s.winI)).hmacAnswered)
            ((s.sendHmac (windowStep s.tBase s.disc s.winI)).hmacAnswered).nextOffset := by
          refine ⟨?_, rfl, rfl⟩; constructor <;> rfl
        refine ⟨(ho.trans hn).toSameOperands.trans a, hr.trans (SameRng.trans ?_ b), by simp [c], ?_⟩
        · constructor <;> rfl
        · rcases d with d | ⟨d1, d2, d3, d4⟩
          · exact .inl d
          · exact .inr ⟨(ho.trans hn).trans d1, by simp [d2], by simp [d3], by simp [d4]⟩

/-- What a turn of the GENSECRET loop never touches, and that it ends in a completion or in a wait with the command as it
was. -/
theorem genLoop_frame (n : Nat) (s : State) :
    SameOperands s (genLoop n s) ∧ SameHmac s (genLoop n s) ∧
      ((∃ u e k, genLoop n s = State.finish u e false k) ∨
        (SameRunning s (genLoop n s) ∧ (genLoop n s).key = s.key ∧ (genLoop n s).phase = s.phase ∧
          (genLoop n s).winI = s.winI)) := by
  induction n generalizing s with
  | zero => exact ⟨finish_sameOperands .., finish_sameHmac .., .inl ⟨s, _, _, rfl⟩⟩
  | succ n ih =>
    rw [genLoop]
    have ho := (sendRng_sameRunning s).trans (rngAnswered_sameRunning _)
    have hh := (sendRng_sameHmac s).trans (rngAnswered_sameHmac _)
    rcases askRng_cases s with ⟨-, h⟩ | ⟨-, h⟩ <;> rw [h]
    · exact ⟨(sendRng_sameRunning s).toSameOperands, sendRng_sameHmac s, .inr ⟨sendRng_sameRunning s, by simp, by simp, by simp⟩⟩
    · cases s.rngNext with
      | unavailable =>
        exact ⟨ho.toSameOperands.trans (finish_sameOperands ..), hh.trans (finish_sameHmac ..), .inl ⟨_, _, _, rfl⟩⟩
      | byte b =>
        obtain ⟨a, c, d⟩ := ih ((s.sendRng.rngAnswered).putSymbol b)
        have hn : SameRunning s.sendRng.rngAnswered ((s.sendRng.rngAnswered).putSymbol b) := by
          refine ⟨?_, rfl, rfl⟩; constructor <;> rfl
        refine ⟨(ho.trans hn).toSameOperands.trans a, hh.trans (SameHmac.trans (by constructor <;> rfl) c), ?_⟩
        rcases d with d | ⟨d1, d2, d3, d4⟩
        · exact .inl d
        · exact .inr ⟨(ho.trans hn).trans d1, by simp [d2], by simp [d3], by simp [d4]⟩

end Machine

end Sys2Proof
end

