-- ==== Sys2Proof/Laws/Bus.lean ====
section
/-! SUPPORT. The laws of the bus: regions, supported shapes, lanes, and what a write to IN_BUF does to each byte. -/

namespace Sys2Proof.Machine

theorem regionOf_registers {off : Nat} (h : off < 0x1000) : regionOf off = .registers := by
  unfold regionOf; rw [if_pos h]

theorem regionOf_inWindow {off : Nat} (h : 0x1000 ≤ off) (h' : off < 0x2000) : regionOf off = .inWindow := by
  unfold regionOf; rw [if_neg (by omega), if_pos h']

theorem regionOf_outWindow {off : Nat} (h : 0x2000 ≤ off) (h' : off < 0x3000) : regionOf off = .outWindow := by
  unfold regionOf; rw [if_neg (by omega), if_neg (by omega), if_pos h']

theorem regionOf_reserved {off : Nat} (h : 0x3000 ≤ off) : regionOf off = .reserved := by
  unfold regionOf; rw [if_neg (by omega), if_neg (by omega), if_neg (by omega)]

/-- The shapes of R49. -/
theorem naturallyAligned_iff (off n : Nat) :
    naturallyAligned off n = true ↔ n = 1 ∨ (n = 2 ∧ off % 2 = 0) ∨ (n = 4 ∧ off % 4 = 0) := by
  unfold naturallyAligned
  simp only [Bool.and_eq_true, Bool.or_eq_true, beq_iff_eq]
  constructor
  · rintro ⟨(h | h) | h, h2⟩ <;> subst h <;> simp_all
  · rintro (h | ⟨h, h2⟩ | ⟨h, h2⟩) <;> subst h <;> simp_all [Nat.mod_one]

/-- No access of no bytes is supported. -/
theorem naturallyAligned_pos {off n : Nat} (h : naturallyAligned off n = true) : 0 < n := by
  rcases (naturallyAligned_iff off n).1 h with h | ⟨h, -⟩ | ⟨h, -⟩ <;> omega

theorem respond_inByte (s : State) (d : Word) (e : Bool) (j : Nat) : (s.respond d e).inByte j = s.inByte j := rfl

theorem respond_readReg (s : State) (d : Word) (e : Bool) (r : Reg) : (s.respond d e).readReg r = s.readReg r := by
  cases r <;> rfl

theorem dropOutDraws_readReg (s : State) (off : Nat) (r : Reg) : (s.dropOutDraws off).readReg r = s.readReg r := by
  unfold State.dropOutDraws; split <;> cases r <;> rfl

theorem writeInByte_readReg (s : State) (i : Nat) (b : Byte) (r : Reg) : (s.writeInByte i b).readReg r = s.readReg r := by
  unfold State.writeInByte; split <;> cases r <;> rfl

theorem inByte_writeInByte (s : State) (i j : Nat) (b : Byte) :
    (s.writeInByte i b).inByte j = if j = i ∧ i < s.params.inCap then b else s.inByte j := by
  unfold State.inByte
  by_cases h : i < s.params.inCap
  · simp [State.writeInByte, h, memGet_memSet]; split <;> simp_all
  · simp [State.writeInByte, h]

@[simp] theorem writeInLanes_params (s : State) (i : Nat) (v : Word) (n : Nat) :
    (s.writeInLanes i v n).params = s.params := by
  induction n with
  | zero => rfl
  | succ n ih => rw [State.writeInLanes, State.writeInByte_params, ih]

theorem writeInLanes_readReg (s : State) (i : Nat) (v : Word) (n : Nat) (r : Reg) :
    (s.writeInLanes i v n).readReg r = s.readReg r := by
  induction n with
  | zero => rfl
  | succ n ih => rw [State.writeInLanes, writeInByte_readReg, ih]

/-- A write to IN_BUF leaves everything but IN_BUF. -/
theorem writeInLanes_eq (s : State) (i : Nat) (v : Word) (n : Nat) :
    s.writeInLanes i v n = { s with inBuf := (s.writeInLanes i v n).inBuf } := by
  induction n with
  | zero => rfl
  | succ n ih =>
    rw [State.writeInLanes, State.writeInByte]
    split
    · rw [ih]
    · exact ih

/-- A write to IN_BUF gives each byte in its range that exists its lane, and no other byte anything (R49, R51, R53). -/
theorem inByte_writeInLanes (s : State) (i : Nat) (v : Word) (n j : Nat) :
    (s.writeInLanes i v n).inByte j =
      if i ≤ j ∧ j < i + n ∧ j < s.params.inCap then laneByte v (j - i) else s.inByte j := by
  induction n with
  | zero => simp [State.writeInLanes]; omega
  | succ n ih =>
    rw [State.writeInLanes, inByte_writeInByte, ih, writeInLanes_params]
    by_cases h : j = i + n ∧ i + n < s.params.inCap
    · rw [if_pos h, if_pos (by omega), show j - i = n by omega]
    · rw [if_neg h]
      by_cases h2 : i ≤ j ∧ j < i + n ∧ j < s.params.inCap
      · rw [if_pos h2, if_pos (by omega)]
      · rw [if_neg h2, if_neg (by omega)]

/-- A write to IN_BUF keeps its canonical form, and its bound. -/
theorem writeInLanes_wf {s : State} (h : Memory.wf s.inBuf) (hb : ∀ c ∈ s.inBuf, c.1 < s.params.inCap) (i : Nat) (v : Word)
    (n : Nat) :
    Memory.wf (s.writeInLanes i v n).inBuf ∧ ∀ c ∈ (s.writeInLanes i v n).inBuf, c.1 < s.params.inCap := by
  induction n with
  | zero => exact ⟨h, hb⟩
  | succ n ih =>
    rw [State.writeInLanes, State.writeInByte]
    split
    · next hlt =>
      rw [writeInLanes_params] at hlt
      exact ⟨memSet_wf ih.1 _ _, memSet_bound ih.2 hlt _⟩
    · exact ih

theorem laneByte_eq (v : Word) (k : Nat) : laneByte v k = v.extractLsb' (8 * k) 8 := by
  apply BitVec.eq_of_toNat_eq
  simp [laneByte, BitVec.extractLsb']

/-- Bit `i` of a word made of lanes is bit `i % 8` of lane `i / 8` (R51). -/
theorem laneWord_getLsbD (l : List Byte) (i : Nat) (h : i < 32) :
    (laneWord l).getLsbD i = (l.getD (i / 8) 0).getLsbD (i % 8) := by
  induction l generalizing i with
  | nil => simp [laneWord]
  | cons b l ih =>
    rw [laneWord]
    simp only [BitVec.getLsbD_or, BitVec.getLsbD_shiftLeft, BitVec.getLsbD_setWidth]
    by_cases h8 : i < 8
    · simp [h8, h, Nat.div_eq_of_lt h8, Nat.mod_eq_of_lt h8]
    · have e : i / 8 = (i - 8) / 8 + 1 := by omega
      rw [ih (i - 8) (by omega), e]
      simp [h8, h, show i % 8 = (i - 8) % 8 by omega]
      intro hh
      exact absurd (BitVec.lt_of_getLsbD hh) (by omega)

/-- A supported read of existing IN_BUF bytes returns their lanes (R49, R51). -/
theorem busRead_inBuf (t : State) (off n : Nat) (h1 : 0x1000 ≤ off) (h2 : off + n ≤ 0x1000 + t.params.inCap)
    (hcap : t.params.inCap ≤ 2048) (hs : naturallyAligned off n = true) :
    (t.busRead off n).busRsp =
      some ⟨laneWord ((List.range n).map fun k => t.inByte (off - 0x1000 + k)), false⟩ := by
  have hn := naturallyAligned_pos hs
  have hr := regionOf_inWindow h1 (by omega : off < 0x2000)
  have hs' : readSupported off n = true := by unfold readSupported; rw [hr]; exact hs
  simp only [State.busRead, hs', if_true, State.respond_busRsp, State.readData, hr]
  congr 3
  refine List.map_congr_left fun k hk => ?_
  rw [List.mem_range] at hk
  simp only [State.windowByte, regionOf_inWindow (off := off + k) (by omega) (by omega)]
  rw [if_pos (by omega), show off + k - 0x1000 = off - 0x1000 + k by omega]

/-- R51: byte lane `k` of a word put together from lanes is the `k`-th byte. -/
theorem laneWord_lane (l : List Byte) (k : Nat) (h : k < 4) : (laneWord l).extractLsb' (8 * k) 8 = l.getD k 0 := by
  apply BitVec.eq_of_getLsbD_eq
  intro i hi
  rw [BitVec.getLsbD_extractLsb', laneWord_getLsbD _ _ (by omega)]
  rw [show (8 * k + i) / 8 = k by omega, show (8 * k + i) % 8 = i by omega]
  simp [hi]

/-- R49 to R51: a supported read outside the registers answers the window's bytes, lane by lane. -/
theorem busRead_lanes (s : State) (off n : Nat) (hr : regionOf off ≠ .registers) (h : readSupported off n = true) :
    (s.busRead off n).busRsp = some ⟨laneWord ((List.range n).map fun k => s.windowByte (off + k) k), false⟩ := by
  simp only [State.busRead, h, if_true, State.respond_busRsp, State.readData]
  cases h : regionOf off <;> simp_all

/-- R47, R53: a write at or past P_IN_CAP is ignored. -/
theorem writeInLanes_past (s : State) (i : Nat) (v : Word) (n : Nat) (h : s.params.inCap ≤ i) : s.writeInLanes i v n = s := by
  induction n with
  | zero => rfl
  | succ n ih => rw [State.writeInLanes, ih, State.writeInByte, if_neg (by omega)]

end Sys2Proof.Machine
end

