-- ==== Sys2Proof/Laws/Loops.lean ====
section
/-! SUPPORT. What the loops of VERIFY and GENSECRET do: one turn of each, and a run of turns that does not end it. -/

namespace Sys2Proof

open Machine

/-! ## What equal operands decide -/

theorem SameOperands.disc {s t : State} (h : SameOperands s t) : t.disc = s.disc := by
  unfold State.disc; rw [h.discrepancy]

theorem SameOperands.cand {s t : State} (h : SameOperands s t) : t.cand = s.cand := by
  unfold State.cand; rw [h.cand0, h.cand1]

theorem SameOperands.stepUsed {s t : State} (h : SameOperands s t) : t.stepUsed = s.stepUsed := by
  unfold State.stepUsed; rw [h.stepUsedLo, h.stepUsedHi]

theorem SameOperands.text {s t : State} (h : SameOperands s t) : t.text = s.text := by
  have hb : ∀ i, t.inByte i = s.inByte i := fun i => by unfold State.inByte; rw [h.inBuf, h.resets]
  unfold State.text
  rw [h.inLen]
  exact List.map_congr_left fun i _ => hb i

theorem SameOperands.overCap {s t : State} (h : SameOperands s t) : t.overCap = s.overCap := by
  unfold State.overCap; rw [h.inLen, h.params]

theorem SameOperands.decodedText {s t : State} (h : SameOperands s t) : t.decodedText = s.decodedText := by
  unfold State.decodedText; rw [h.text, h.params]

theorem SameRunning.windowStep {s t : State} (h : SameRunning s t) (i : Nat) :
    windowStep t.tBase t.disc i = windowStep s.tBase s.disc i := by
  rw [h.tBase, h.toSameOperands.disc]

theorem SameRunning.windowCode {s t : State} (h : SameRunning s t) (k : List Byte) (i : Nat) :
    windowCode t k i = windowCode s k i := by
  unfold Sys2Proof.windowCode; rw [h.windowStep, h.params]

/-- An HMAC-SHA1 core without a limit answers every number of requests. -/
theorem HmacAnswers.of_none {s : State} (h : s.hmacLeft = none) (n : Nat) : HmacAnswers s n := by
  intro k hk; rw [h] at hk; cases hk

/-- An RNG without a limit answers every number of requests. -/
theorem RngAnswers.of_none {s : State} (h : s.rngLeft = none) (n : Nat) : RngAnswers s n := by
  intro k hk; rw [h] at hk; cases hk

namespace Machine

/-! ## VERIFY -/

/-- VERIFY of a good candidate length and a secret that decodes runs the window from where it stands (R105 to R107). -/
theorem execVerify_runs {s : State} {k : List Byte} (hc : s.overCap = false) (h6 : s.candLen = 6)
    (hk : s.decodedText = some k) :
    execVerify s = .next (verifyLoop (s.windowSize - s.winStart) (s.startWindow k)) := by
  simp [execVerify, hc, h6, hk]

/-- The state after one digest of the window was answered. -/
def State.windowAnswered (s : State) : State := (s.sendHmac (windowStep s.tBase s.disc s.winI)).hmacAnswered

theorem windowAnswered_sameRunning (s : State) : SameRunning s s.windowAnswered :=
  (sendHmac_sameRunning s _).trans (hmacAnswered_sameRunning _)

theorem nextOffset_sameRunning (s : State) : SameRunning s s.nextOffset :=
  ⟨by constructor <;> rfl, rfl, rfl⟩

theorem startWindow_sameRunning (s : State) (k : List Byte) : SameRunning s (s.startWindow k) :=
  ⟨by constructor <;> rfl, rfl, rfl⟩

/-- One turn of the window: wait while the HMAC-SHA1 core is silent, else end at a match, else go on (R107, R108, R123). -/
theorem verifyLoop_succ (n : Nat) (s : State) :
    verifyLoop (n + 1) s =
      if s.hmacLeft = some 0 then s.sendHmac (windowStep s.tBase s.disc s.winI)
      else if ctEqual (windowCode s s.key s.winI) s.cand then s.windowAnswered.finish .none true 0
      else verifyLoop n s.windowAnswered.nextOffset := by
  rw [verifyLoop]
  have hc := (windowAnswered_sameRunning s).cand
  unfold State.windowAnswered at *
  rcases askHmac_cases s (windowStep s.tBase s.disc s.winI) with ⟨h, h'⟩ | ⟨h, h'⟩ <;> rw [h']
  · rw [if_pos h]
  · rw [if_neg h]
    dsimp only
    rw [hc]
    rfl

/-- The offsets that do not match are passed over, with one request each. -/
theorem verifyLoop_miss (n : Nat) (s : State) (m : Nat) (hh : s.hmacReq = none) (ha : HmacAnswers s n)
    (hw : ∀ i, i < n → ctEqual (windowCode s s.key (s.winI + i)) s.cand = false) :
    ∃ t, verifyLoop (n + m) s = verifyLoop m t ∧ SameRunning s t ∧ t.key = s.key ∧ t.winI = s.winI + n ∧
      t.hmacReq = none ∧ t.hmacLeft = s.hmacLeft.map (· - n) ∧
      t.hmacSent =
        ((List.range n).map fun i => HmacRequest.mk s.key (windowStep s.tBase s.disc (s.winI + i))).reverse
          ++ s.hmacSent := by
  induction n generalizing s with
  | zero => exact ⟨s, by simp, .refl s, rfl, rfl, hh, by simp, by simp⟩
  | succ n ih =>
    have hne : s.hmacLeft ≠ some 0 := by
      intro h; have := ha 0 h; omega
    have h0 : ctEqual (windowCode s s.key s.winI) s.cand = false := hw 0 (by omega)
    rw [Nat.add_right_comm, verifyLoop_succ, if_neg hne, h0]
    have hso := (windowAnswered_sameRunning s).trans (nextOffset_sameRunning _)
    have hk : s.windowAnswered.nextOffset.key = s.key := by simp [State.windowAnswered]
    have hi : s.windowAnswered.nextOffset.winI = s.winI + 1 := by simp [State.windowAnswered]
    have hl : s.windowAnswered.nextOffset.hmacLeft = s.hmacLeft.map (· - 1) := by simp [State.windowAnswered]
    have hs : s.windowAnswered.nextOffset.hmacSent = ⟨s.key, windowStep s.tBase s.disc s.winI⟩ :: s.hmacSent := by
      simp [State.windowAnswered, State.sendHmac, hh]
    obtain ⟨t, e, h1, h2, h3, h4, h5, h6⟩ := ih s.windowAnswered.nextOffset rfl
      (fun x hx => by
        rw [hl, Option.map_eq_some_iff] at hx
        obtain ⟨a, h, rfl⟩ := hx
        have := ha a h
        omega)
      (fun i hi' => by
        rw [hso.windowCode, hso.cand, hk, hi, Nat.add_assoc, Nat.add_comm 1 i]
        exact hw (i + 1) (by omega))
    refine ⟨t, e, hso.trans h1, by rw [h2, hk], by rw [h3, hi]; omega, h4, ?_, ?_⟩
    · rw [h5, hl, Option.map_map]
      congr 1
      funext x
      simp only [Function.comp_apply]
      omega
    · rw [h6, hs, List.range_succ_eq_map]
      simp only [hso.windowStep, hk, hi]
      simp [List.map_map, Function.comp_def, Nat.add_assoc, Nat.add_comm 1]

/-! ## GENSECRET -/

theorem startGen_sameRunning (s : State) : SameRunning s s.startGen :=
  ⟨by constructor <;> rfl, rfl, rfl⟩

theorem startGen_sameHmac (s : State) : SameHmac s s.startGen := by constructor <;> rfl

/-- GENSECRET of a legal length runs the loop from where it stands (R91, R94). -/
theorem execGensecret_runs {s : State} (h : s.genLenOk = true) :
    execGensecret s = .next (genLoop (s.genLen.toNat - s.genStart) s.startGen) := by
  simp [execGensecret, h]

/-- One turn of the loop: wait while the RNG is silent, else stop at UNAVAILABLE, else write the symbol and go on. -/
theorem genLoop_succ (n : Nat) (s : State) :
    genLoop (n + 1) s =
      if s.rngLeft = some 0 then s.sendRng
      else match s.rngNext with
        | .unavailable => s.sendRng.rngAnswered.raise .noSecureRandom
        | .byte b => genLoop n (s.sendRng.rngAnswered.putSymbol b) := by
  rw [genLoop]
  rcases askRng_cases s with ⟨h, h'⟩ | ⟨h, h'⟩ <;> rw [h']
  · rw [if_pos h]
  · rw [if_neg h]
    cases s.rngNext <;> rfl

/-- The loop writes only the bytes that are left. -/
theorem genLoop_outBuf (n : Nat) (s : State) (a : Nat) (h : a < s.genI ∨ s.genI + n ≤ a) :
    memGet (genLoop n s).outBuf a = memGet s.outBuf a := by
  induction n generalizing s with
  | zero => rfl
  | succ n ih =>
    rw [genLoop_succ]
    split
    · simp
    · cases s.rngNext with
      | unavailable => simp
      | byte b =>
        dsimp only
        rw [ih _ (by simp; omega)]
        simp
        exact memGet_memSet_of_ne _ _ (by omega)

/-- While the RNG answers with bytes the loop writes their symbols, with one request each (R92 to R94). -/
theorem genLoop_bytes (n : Nat) (s : State) (rnd : List Byte) (m : Nat) (hr : s.rngReq = false) (hl : rnd.length = n)
    (ha : RngAnswers s n) (hb : ∀ k (h : k < rnd.length), s.rngNth k = .byte rnd[k]) :
    ∃ t, genLoop (n + m) s = genLoop m t ∧ t.rngReq = false ∧ t.rngSent = s.rngSent + n ∧ t.genI = s.genI + n ∧
      t.outBuf = memSetFrom s.outBuf s.genI (rnd.map maskSymbol) ∧ (∀ k, t.rngNth k = s.rngNth (n + k)) ∧
      t.rngLeft = s.rngLeft.map (· - n) := by
  induction n generalizing s rnd with
  | zero =>
    obtain rfl := List.length_eq_zero_iff.1 hl
    exact ⟨s, by simp, hr, by simp, by simp, by simp [memSetFrom], by simp, by simp⟩
  | succ n ih =>
    cases rnd with
    | nil => simp at hl
    | cons x rnd =>
      have hne : s.rngLeft ≠ some 0 := by
        intro h; have := ha 0 h; omega
      have h0 := hb 0 (by simp)
      rw [rngNth_zero] at h0
      rw [Nat.add_right_comm, genLoop_succ, if_neg hne, h0]
      simp only [List.getElem_cons_zero]
      have hsend : s.sendRng = { s with rngReq := true, rngSent := s.rngSent + 1 } := by simp [State.sendRng, hr]
      have hleft : ((s.sendRng.rngAnswered).putSymbol x).rngLeft = s.rngLeft.map (· - 1) := by simp
      have hsh : ∀ k, ((s.sendRng.rngAnswered).putSymbol x).rngNth k = s.rngNth (k + 1) := fun k =>
        rngNth_shift _ _ (by simp) (by simp) k
      obtain ⟨t, e, h1, h2, h3, h4, h5, h6⟩ := ih ((s.sendRng.rngAnswered).putSymbol x) rnd rfl (by simpa using hl)
        (fun k hk => by
          rw [hleft, Option.map_eq_some_iff] at hk
          obtain ⟨a, h, rfl⟩ := hk
          have := ha a h
          omega)
        (fun k hk => by rw [hsh, hb _ (by simpa using hk)]; simp)
      refine ⟨t, e, h1, ?_, ?_, ?_, ?_, ?_⟩
      · rw [h2]; simp [hsend]; omega
      · rw [h3]; simp; omega
      · rw [h4]; simp [memSetFrom]
      · intro k; rw [h5, hsh]; congr 1; omega
      · rw [h6, hleft, Option.map_map]
        congr 1
        funext y
        simp only [Function.comp_apply]
        omega

end Machine

end Sys2Proof
end

