-- ==== Sys2Proof/Laws/PerInstr.lean ====
section
/-! SUPPORT. What holds of each command as syntax (spec/30_encoding.md R67 to R73), one lemma per constructor. -/

namespace Sys2Proof.Laws

/-- The fields of a command's word: it is well formed, OPCODE is the command's and a legal one, TSEL is its TSEL, the reserved
fields are 0, and the masked word is the opcode (R67, R68, R72). -/
def WordFields.Statement (i : Instr) : Prop :=
  i.wellFormed = true ∧ opcodeField (encode i) = opcodeOf i ∧ tselField (encode i) = tselOf i ∧
    reservedLowField (encode i) = 0 ∧ reservedHighField (encode i) = 0 ∧ 1 ≤ (opcodeOf i).toNat ∧ (opcodeOf i).toNat ≤ 5 ∧
    encode i &&& 0xFFFFFEFF = (opcodeOf i).setWidth 32

theorem WordFields.decode : ∀ t : Bool, WordFields.Statement (.decode t) := by
  unfold WordFields.Statement; decide

theorem WordFields.encode : ∀ t : Bool, WordFields.Statement (.encode t) := by
  unfold WordFields.Statement; decide

theorem WordFields.gensecret : ∀ t : Bool, WordFields.Statement (.gensecret t) := by
  unfold WordFields.Statement; decide

theorem WordFields.compute : ∀ t : Bool, WordFields.Statement (.compute t) := by
  unfold WordFields.Statement; decide

theorem WordFields.verify : ∀ t : Bool, WordFields.Statement (.verify t) := by
  unfold WordFields.Statement; decide

end Sys2Proof.Laws
end

