-- ==== Sys2Proof/Tests/Slice0.lean ====
section
/-! SUPPORT. Tests on small states, and for each statement with hypotheses a state that meets them. Expected values come from
spec/95_test_vectors.md and from the rules cited, never from the model. -/

namespace Sys2Proof.Tests

open Machine

/-! ## Helpers -/

/-- The ASCII bytes of these characters. -/
def asc (s : List Char) : List Byte := s.map fun c => BitVec.ofNat 8 c.toNat

/-- The reset state with these bytes in IN_BUF and their number in IN_LEN. -/
def withText (t : List Byte) : State :=
  { State.reset with inBuf := memSetFrom [] 0 t, inLen := BitVec.ofNat 32 t.length }

/-- `s` with a step in TSTEP. -/
def atStep (s : State) (t : TimeStep) : State :=
  { s with tstepLo := t.extractLsb' 0 32, tstepHi := t.extractLsb' 32 32 }

/-- `s` with the candidate "287082" and a discrepancy. -/
def withCand (s : State) (d : BitVec 8) : State :=
  { s with candLen := 6, cand0 := 0x30373832, cand1 := 0x3238, discrepancy := d }

/-- The command of a word, accepted and run to its completion. -/
def ran (s : State) (w : Word) : State :=
  match coreTurn (s.accept w) with
  | .next t => t
  | .fault _ => s
  | .refused _ => s

/-- The state after a step, where there is one. -/
def stepped (s : State) : State :=
  match step s with
  | .next t => t
  | .fault _ => s
  | .refused _ => s

/-- The secret "GEZDGNBVGY3TQOJQGEZDGNBVGY3TQOJQ", of key K20. -/
def secret20 : List Byte :=
  asc ['G', 'E', 'Z', 'D', 'G', 'N', 'B', 'V', 'G', 'Y', '3', 'T', 'Q', 'O', 'J', 'Q',
    'G', 'E', 'Z', 'D', 'G', 'N', 'B', 'V', 'G', 'Y', '3', 'T', 'Q', 'O', 'J', 'Q']

/-- K20, "12345678901234567890". -/
def key20 : List Byte :=
  asc ['1', '2', '3', '4', '5', '6', '7', '8', '9', '0', '1', '2', '3', '4', '5', '6', '7', '8', '9', '0']

/-- The RNG answers of the example of R94. -/
def rngExample : List Byte :=
  [0x00, 0x1F, 0x20, 0xFF, 0xE0, 0x3F, 0x41, 0x80, 0x9A, 0x7B, 0x55, 0xAA, 0x0F, 0xF0, 0x33, 0xCC]

/-- "MY=====", five pads: malformed (R79). -/
def malformed : List Byte := asc ['M', 'Y', '=', '=', '=', '=', '=']

/-! ## Well-formedness (R7): a term for each check, which the check refuses -/

theorem test_params_default_ok : Config.defaultParams.wellFormed = true := by decide

theorem test_params_base_unaligned : (Params.mk 0x2000 256 .zeroFillFive .reference).wellFormed = false := by decide

theorem test_params_cap_low : (Params.mk 0 127 .zeroFillFive .reference).wellFormed = false := by decide

theorem test_params_cap_high : (Params.mk 0 2049 .zeroFillFive .reference).wellFormed = false := by decide

theorem test_params_bounds_ok :
    (Params.mk 0x4000 128 .rfc4648Discard .external).wellFormed = true ∧
      (Params.mk 0 2048 .zeroFillFive .reference).wellFormed = true := by decide

/-- Every command is well formed (R73): no term is refused. -/
theorem test_instr_wellFormed : ∀ t : Bool, (Instr.decode t).wellFormed = true ∧ (Instr.encode t).wellFormed = true ∧
    (Instr.gensecret t).wellFormed = true ∧ (Instr.compute t).wellFormed = true ∧ (Instr.verify t).wellFormed = true := by
  decide

/-- R7: the capacities at the default and at the ends of the range. -/
theorem test_capacities : Config.defaultParams.outCap = 416 ∧ Config.defaultParams.keyCap = 160 ∧
    (Params.mk 0 2048 .zeroFillFive .reference).outCap = 3280 := by decide

/-! ## Decoding: words written bit by bit from the layout of R67 -/

theorem test_decode_decode : decodeWord 0b00000000000000000000000_0_0000_0001#32 = .ok (.decode false) := by decide
theorem test_decode_decode_t : decodeWord 0b00000000000000000000000_1_0000_0001#32 = .ok (.decode true) := by decide
theorem test_decode_encode : decodeWord 0b00000000000000000000000_0_0000_0010#32 = .ok (.encode false) := by decide
theorem test_decode_encode_t : decodeWord 0b00000000000000000000000_1_0000_0010#32 = .ok (.encode true) := by decide
theorem test_decode_gensecret : decodeWord 0b00000000000000000000000_0_0000_0011#32 = .ok (.gensecret false) := by decide
theorem test_decode_gensecret_t : decodeWord 0b00000000000000000000000_1_0000_0011#32 = .ok (.gensecret true) := by decide
theorem test_decode_compute : decodeWord 0b00000000000000000000000_0_0000_0100#32 = .ok (.compute false) := by decide
theorem test_decode_compute_t : decodeWord 0b00000000000000000000000_1_0000_0100#32 = .ok (.compute true) := by decide
theorem test_decode_verify : decodeWord 0b00000000000000000000000_0_0000_0101#32 = .ok (.verify false) := by decide
theorem test_decode_verify_t : decodeWord 0b00000000000000000000000_1_0000_0101#32 = .ok (.verify true) := by decide

/-- 95_test_vectors.md 3.1: the illegal words, each with its ground (R71). -/
theorem test_decode_illegal :
    decodeWord 0x00000000 = .error (.illegalOpcode 0) ∧ decodeWord 0x00000006 = .error (.illegalOpcode 6) ∧
      decodeWord 0x0000000F = .error (.illegalOpcode 15) ∧ decodeWord 0x00000100 = .error (.illegalOpcode 0) ∧
      decodeWord 0x00000011 = .error (.reservedLow 1) ∧ decodeWord 0x00000081 = .error (.reservedLow 8) ∧
      decodeWord 0x00000201 = .error (.reservedHigh 1) ∧ decodeWord 0x80000001 = .error (.reservedHigh 0x400000) := by
  decide

/-- R51, R67: the word's bytes lie lowest first, and no other number of bytes is a word. -/
theorem test_decode_bytes : decodeBytes [0x04, 0x01, 0x00, 0x00] = .ok (.compute true) ∧
    decodeBytes [0x04, 0x01, 0x00] = .error (.badLength 3) ∧ decodeBytes [0, 0, 1, 4] ≠ .ok (.compute true) := by decide

theorem test_decode_table_word : decodeTableWord 32 0x104 = some (.compute true) ∧ decodeTableWord 8 0x04 = some (.compute false) ∧
    decodeTableWord 16 0x0105 = some (.verify true) ∧ decodeTableWord 32 0x6 = none := by decide

/-- The first step after reset with a command placed runs it (R149: VERIFY right after reset is false at once). -/
theorem test_first_step : (stepped (State.reset.withFetchWord 32 0x105)).statusWord = 2 ∧
    (stepped (State.reset.withFetchWord 32 0x1)).statusWord = 2 ∧
    (stepped (State.reset.withFetchWord 32 0x6)).statusWord = 0x42 := by decide

/-! ## DECODE and ENCODE (95_test_vectors.md 2.1, 3.2) -/

/-- R85's example, "MZXW6YTB". -/
theorem test_decode_fooba :
    let t := ran (withText (asc ['M', 'Z', 'X', 'W', '6', 'Y', 'T', 'B'])) 0x1
    t.output = [0x66, 0x6F, 0x6F, 0x62, 0x61] ∧ t.statusWord = 2 := by decide

/-- 2.1: "MY======" zero-fills, and a lower-case letter is an error (R78). -/
theorem test_decode_partial :
    (ran (withText (asc ['M', 'Y', '=', '=', '=', '=', '=', '='])) 0x101).output = [0x66, 0, 0, 0, 0] ∧
      (ran (withText (asc ['m', 'y', '=', '=', '=', '=', '=', '='])) 0x1).statusWord = 0x32 := by decide

/-- 2.1: "foobar". -/
theorem test_encode_foobar :
    (ran (withText (asc ['f', 'o', 'o', 'b', 'a', 'r'])) 0x2).output =
      asc ['M', 'Z', 'X', 'W', '6', 'Y', 'T', 'B', 'O', 'I', '=', '=', '=', '=', '=', '='] := by decide

/-- R128: one byte more than P_IN_CAP is CAPACITY. -/
theorem test_encode_capacity : (ran { State.reset with inLen := 257 } 0x2).statusWord = 0x52 := by decide

/-! ## GENSECRET (R94, 95_test_vectors.md 3.4) -/

theorem test_gensecret_example :
    let t := ran { State.reset with rngFeed := rngExample.map .byte } 0x3
    t.output = asc ['A', '7', 'A', '7', 'A', '7', 'B', 'A', '2', '3', 'V', 'K', 'P', 'Q', 'T', 'M'] ∧ t.rngSent = 16 := by
  decide

/-- Length 15 fails before any request; an UNAVAILABLE as sixth answer ends the command after six requests. -/
theorem test_gensecret_errors :
    (ran { State.reset with genLen := 15 } 0x3).statusWord = 0x12 ∧ (ran { State.reset with genLen := 15 } 0x3).rngSent = 0 ∧
      (ran { State.reset with rngFeed := List.replicate 5 (.byte 0) ++ [.unavailable] } 0x3).statusWord = 0x22 ∧
      (ran { State.reset with rngFeed := List.replicate 5 (.byte 0) ++ [.unavailable] } 0x3).rngSent = 6 := by decide

/-! ## COMPUTE (95_test_vectors.md 2.2 to 2.5) -/

/-- 2.5: SHA-1 of "abc". -/
theorem test_sha1_abc : beUint (sha1 (asc ['a', 'b', 'c'])) = 0xa9993e364706816aba3e25717850c26c9cd0d89d := by decide +kernel

/-- 2.5: RFC 2202 case 2, "Jefe". -/
theorem test_hmac_jefe :
    beUint (hmacReference (asc ['J', 'e', 'f', 'e'])
      (asc ['w', 'h', 'a', 't', ' ', 'd', 'o', ' ', 'y', 'a', ' ', 'w', 'a', 'n', 't', ' ', 'f', 'o', 'r', ' ',
        'n', 'o', 't', 'h', 'i', 'n', 'g', '?'])) = 0xeffcdf6ae5eb2fa2d27416d5f184df9c259a7c79 := by decide +kernel

/-- 2.4: the digest of RFC 4226 5.4. -/
theorem test_truncation :
    truncateDigest (beBytes 20 0x1f8698690e02ca16618550ef7f19da8e945b555a) = 1357872921 ∧
      codeOfDigest (beBytes 20 0x1f8698690e02ca16618550ef7f19da8e945b555a) = asc ['8', '7', '2', '9', '2', '1'] := by decide

/-- R102's example: step 1 gives "287082". -/
theorem test_compute_step1 :
    (ran (atStep (withText secret20) 1) 0x104).output = asc ['2', '8', '7', '0', '8', '2'] := by decide +kernel

/-- 2.3: the wall clock at 59 is step 1, and STEP_USED shows it. -/
theorem test_compute_clock :
    (ran { withText secret20 with clockFeed := [59] } 0x4).stepUsed = 1 ∧
      ({ withText secret20 with clockFeed := [1111111109] }.accept 0x4).tBase = 0x23523EC := by decide +kernel

/-! ## VERIFY (95_test_vectors.md 3.7) -/

/-- R110's example: "287082" with d = 1 at step 2 matches at the first request. -/
theorem test_verify_true :
    (ran (atStep (withCand (withText secret20) 1) 2) 0x105).statusWord = 6 ∧
      (ran (atStep (withCand (withText secret20) 1) 2) 0x105).hmacSent = [⟨key20, 1⟩] := by decide +kernel

/-- The same candidate at step 2 with d = 0 is false; a malformed secret looks the same and sends no request (R106, R139). -/
theorem test_verify_false :
    (ran (atStep (withCand (withText secret20) 0) 2) 0x105).statusWord = 2 ∧
      (ran (atStep (withCand (withText malformed) 0) 2) 0x105).statusWord = 2 ∧
      (ran (atStep (withCand (withText malformed) 0) 2) 0x105).hmacSent = [] := by decide +kernel

/-- R107: T_BASE = 0, d = 1 tries 2^64 - 1, 0 and 1. -/
theorem test_window_wraps : windowStep 0 1 0 = 0xFFFFFFFFFFFFFFFF ∧ windowStep 0 1 1 = 0 ∧ windowStep 0 1 2 = 1 := by decide

/-! ## The bus -/

/-- R51: the lanes of IN_BUF; R52: a misaligned read reads 0 with an error response and is recorded. -/
theorem test_bus_lanes :
    let s := State.reset.busWrite 0x1000 4 0x44332211
    (s.busRead 0x1002 2).busRsp = some ⟨0x4433, false⟩ ∧ (s.busRead 0x1003 1).busRsp = some ⟨0x44, false⟩ ∧
      (s.busRead 0x1001 2).busRsp = some ⟨0, true⟩ ∧ (s.busRead 0x1001 2).unsupported = true := by decide

/-- R48, R53: a byte read of STATUS is unsupported; reserved offsets and bytes past P_IN_CAP read 0 without error. -/
theorem test_bus_reserved :
    (State.reset.busRead 0x004 1).busRsp = some ⟨0, true⟩ ∧ (State.reset.busRead 0x03C 4).busRsp = some ⟨0, false⟩ ∧
      (State.reset.busRead 0x1100 1).busRsp = some ⟨0, false⟩ ∧ (State.reset.busRead 0x3000 2).busRsp = some ⟨0, false⟩ := by
  decide

/-- R50, R53: a write to the OUT_BUF window is ignored and is not unsupported; past P_IN_CAP a write is ignored. -/
theorem test_bus_ignored :
    State.reset.busWrite 0x2001 4 0x12345678 = { State.reset with busRsp := some ⟨0, false⟩ } ∧
      State.reset.busWrite 0x1100 4 5 = { State.reset with busRsp := some ⟨0, false⟩ } := by decide

/-- R21: reserved bits of DISCREPANCY and CAND1 read 0; R37: CAPS. -/
theorem test_bus_registers :
    ((State.reset.busWrite 0x018 4 0x1FF).busRead 0x018 4).busRsp = some ⟨0xFF, false⟩ ∧
      ((State.reset.busWrite 0x024 4 0xFFFFFFFF).busRead 0x024 4).busRsp = some ⟨0xFFFF, false⟩ ∧
      (State.reset.busRead 0x038 4).busRsp = some ⟨0x01A00100, false⟩ := by decide

/-- R46, log entry 16: an access outside the window faults, one at its last word does not. -/
theorem test_outside_window :
    hostAccess (.read 0x4000 4) State.reset = .fault .outsideWindow ∧
      hostAccess (.read 0x3FFC 4) State.reset = .next { State.reset with busRsp := some ⟨0, false⟩ } := ⟨rfl, rfl⟩

/-- R57, R26, R136: while BUSY an IN_LEN write is ignored; at completion `irq` rises with IRQ_EN and a write of 1 clears DONE. -/
theorem test_busy_and_irq :
    let s := { State.reset with irqEn := true }.accept 0x1
    (s.busWrite 0x00C 4 9).inLen = 0 ∧ s.statusWord = 1 ∧ s.irq = false ∧
      (ran { State.reset with irqEn := true } 0x1).irq = true ∧
      ((ran { State.reset with irqEn := true } 0x1).writeReg .status 2).irq = false := by decide

/-- R148: `rst` while BUSY. -/
theorem test_reset_while_busy :
    let t := stepped { State.reset.accept 0x1 with events := [.rst true] }
    t.phase = .idle ∧ t.done = false ∧ t.rst = true ∧ t.genLen = 16 := by decide

/-- R74, R76: `generateSecret` writes GEN_LEN, then CMD, then polls. -/
theorem test_assemble :
    assemble Config.defaultParams 0 (.generateSecret none) =
      .ok [.write .genLen 16, .cmd (.gensecret false), .wait 0] ∧
      HostLine.event Config.defaultParams (.cmd (.verify true)) = .access (.write 0 4 0x105) := by decide

/-- Log entry 20: a polling host sees DONE after the core's turn. -/
theorem test_wait :
    let s := { State.reset.accept 0x1 with events := [.wait 0] }
    (stepped s).events = [.coreTurn, .wait 0] ∧ (stepped (stepped (stepped s))).events = [] ∧
      (stepped (stepped (stepped s))).busRsp = some ⟨2, false⟩ := by decide

/-! ## Witnesses: a state that meets the hypotheses of each statement, and of each of its clauses -/

/-- A BUSY state: DECODE accepted. -/
def busyDecode : State := (withText (asc ['M', 'Y'])).accept 0x1

/-- A COMPUTE that waits for its digest, the request in flight. -/
def waiting : State := stepped { (atStep (withText secret20) 1).accept 0x104 with hmacLeft := some 0 }

/-- R18, log entry 21: after a VERIFY that matched nothing hidden is left, and while it ran KEY was K20. -/
theorem test_nothing_kept :
    let t := ran (atStep (withCand (withText secret20) 1) 2) 0x105
    t.result = true ∧ t.key = [] ∧ t.tBase = 0 ∧ t.winI = 0 ∧ t.latchedCmd = 0 ∧ t.stepUsed = 2 ∧ waiting.key = key20 := by
  decide +kernel

theorem test_witness_DecoderIsTheMaskedChain :
    (0x101 : Word) &&& 0xFFFFFEFF = 1 ∧ (0x2 : Word) &&& 0xFFFFFEFF = 2 ∧ (0x103 : Word) &&& 0xFFFFFEFF = 3 ∧
      (0x4 : Word) &&& 0xFFFFFEFF = 4 ∧ (0x105 : Word) &&& 0xFFFFFEFF = 5 ∧ (0x106 : Word) &&& 0xFFFFFEFF = 6 := by decide

theorem test_witness_StepRunsAcceptedCommand :
    busyDecode.rst = false ∧ busyDecode.phase = .busy ∧ decodeWord busyDecode.latchedCmd = .ok (.decode false) ∧
      busyDecode.events = [] ∧ { busyDecode with events := [.coreTurn] }.events = Event.coreTurn :: [] := by decide

/-- Two IDLE states that differ in what a command left behind alone. -/
theorem test_witness_AcceptLatchesAndClears :
    let u := { State.reset with key := [1], tBase := 5, winI := 2, outLen := 3, done := true }
    State.reset.phase = .idle ∧ u.phase = .idle ∧ SameOperands State.reset u ∧ u.hmacLeft = State.reset.hmacLeft ∧
      u.rngLeft = State.reset.rngLeft ∧ u.rngFeed = State.reset.rngFeed ∧ u.rngDraws = State.reset.rngDraws :=
  ⟨rfl, rfl, by constructor <;> rfl, rfl, rfl, rfl, rfl⟩

/-- Both clauses at the boundary of P_IN_CAP = 256, and words that are neither COMPUTE nor VERIFY. -/
theorem test_witness_AcceptResolvesTimeStep :
    (let s := { State.reset with inLen := 256 }
     let u := { State.reset with inLen := 257 }
     s.phase = .idle ∧ s.inLen.toNat ≤ s.params.inCap ∧ u.phase = .idle ∧ u.params.inCap < u.inLen.toNat) ∧
      (∀ b, decodeWord 0x103 ≠ .ok (.compute b)) ∧ (∀ b, decodeWord 0x103 ≠ .ok (.verify b)) ∧
      (∀ b, decodeWord 0x6 ≠ .ok (.compute b)) ∧ ∀ b, decodeWord 0x6 ≠ .ok (.verify b) := by decide

theorem test_witness_IllegalWordCompletes :
    let s := { State.reset with events := [writeEvent State.reset.params .cmd 0x6, .coreTurn] }
    s.phase = .idle ∧ s.rst = false ∧ decodeWord 0x6 = .error (.illegalOpcode 6) ∧
      s.events = writeEvent s.params .cmd 0x6 :: .coreTurn :: [] := by decide

/-- A body that completes, and one that waits on. -/
theorem test_witness_CommandsKeepOperands :
    (∃ t, exec (.decode false) busyDecode = .next t ∧ busyDecode.phase = .busy ∧ t.phase = .idle) ∧
      ∃ t, exec (.compute true) waiting = .next t ∧ waiting.phase = .busy ∧ t.phase = .busy :=
  ⟨⟨_, rfl, by decide, by decide⟩, _, rfl, by decide, by decide⟩

theorem test_witness_CodecFrame : busyDecode.params.wellFormed = true ∧ (∃ t, exec (.decode false) busyDecode = .next t) ∧
    ∃ t, exec (.encode true) busyDecode = .next t := ⟨by decide, ⟨_, rfl⟩, ⟨_, rfl⟩⟩

/-- A GENSECRET that completes, and one that waits for a silent RNG. -/
theorem test_witness_GensecretFrame : (∃ t, exec (.gensecret false) (State.reset.accept 0x3) = .next t) ∧
    ∃ t, exec (.gensecret false) { State.reset.accept 0x3 with rngLeft := some 0 } = .next t ∧ t.phase = .busy :=
  ⟨⟨_, rfl⟩, _, rfl, by decide⟩

theorem test_witness_ComputeAndVerifyFrame : (∃ t, exec (.compute true) (State.reset.accept 0x104) = .next t) ∧
    (∃ t, exec (.verify true) (State.reset.accept 0x105) = .next t) ∧
    (∃ t, exec (.compute true) waiting = .next t ∧ t.phase = .busy) ∧
    ∃ t, exec (.verify true) { (atStep (withCand (withText secret20) 0) 1).accept 0x105 with hmacLeft := some 0 } = .next t ∧
      t.phase = .busy := ⟨⟨_, rfl⟩, ⟨_, rfl⟩, ⟨_, rfl, by decide⟩, _, rfl, by decide⟩

theorem test_witness_DecodeWritesDecodedBytes :
    let s := withText (asc ['M', 'Z', 'X', 'W', '6', 'Y', 'T', 'B'])
    s.inLen.toNat ≤ s.params.inCap ∧ base32Decode s.params.partialChunk s.text = some [0x66, 0x6F, 0x6F, 0x62, 0x61] := by
  decide

/-- R85's example in the layout's two clauses: "MZXW6YTB" is "fooba", and 12, 25, 23, 22, 30, 24, 19, 1 are its symbols. -/
theorem test_witness_DecodeLayout :
    let v := fun j => [12, 25, 23, 22, 30, 24, 19, 1].getD j 0
    let c := asc ['M', 'Z', 'X', 'W', '6', 'Y', 'T', 'B']
    (∀ j, j < 8 → v j < 32) ∧ (∀ j, j < 1 → v j < 32) ∧ (List.range 8).map (fun j => symbol (v j)) = c ∧ c.length = 8 ∧
      base32Decode .zeroFillFive c = some [0x66, 0x6F, 0x6F, 0x62, 0x61] ∧
      digitsValue 32 8 v = 0x666F6F6261 ∧ ∀ b ∈ c, 0x32 ≤ b.toNat ∧ b.toNat ≤ 0x37 ∨ 0x41 ≤ b.toNat ∧ b.toNat ≤ 0x5A := by
  decide

theorem test_witness_MalformedTextRaisesDecodeError :
    (withText malformed).inLen.toNat ≤ (withText malformed).params.inCap ∧
      base32Decode (withText malformed).params.partialChunk (withText malformed).text = none := by decide

theorem test_witness_EncodeWritesEncoding :
    State.reset.params.wellFormed = true ∧ State.reset.inLen.toNat ≤ State.reset.params.inCap ∧
      1 ≤ (asc ['f']).length ∧ (asc ['f', 'o', 'o', 'b', 'a']).length = 5 ∧ (asc ['f', 'o', 'o', 'b', 'a']).length ≤ 5 := by decide

theorem test_witness_OverCapacityCompletes :
    let s := { State.reset with inLen := 257 }
    s.params.inCap < s.inLen.toNat := by decide

theorem test_witness_SymbolTableIsAlphabet :
    symValue 0x41 = some 0 ∧ symValue 0x5A = some 25 ∧ symValue 0x32 = some 26 ∧ symValue 0x37 = some 31 ∧
      symValue 0x3D = none ∧ symValue 0x61 = none ∧ symValue 0x38 = none := by decide

theorem test_witness_DecodeAcceptsExactlyPaddedText :
    (∃ r, base32Decode .zeroFillFive (asc ['M', 'Y', '=', '=', '=', '=', '=', '=']) = some r) ∧
      base32Decode .zeroFillFive malformed = none := ⟨⟨[0x66, 0, 0, 0, 0], by decide⟩, by decide⟩

theorem test_witness_Base32Lengths : base32Decode .zeroFillFive (asc ['M', 'Y']) = some [0x66, 0, 0, 0, 0] := by decide

theorem test_witness_Base32RoundTrip : (asc ['f', 'o', 'o', 'b', 'a']).length % 5 = 0 := by decide

/-- Both sides of the range, at its edges. -/
theorem test_witness_GensecretRejectsLength :
    { State.reset with genLen := 15 }.genLen.toNat < 16 ∧ 128 < { State.reset with genLen := 129 }.genLen.toNat := by decide

theorem test_witness_GensecretWritesMaskedSymbols :
    let s := { State.reset with rngFeed := rngExample.map .byte }
    16 ≤ s.genLen.toNat ∧ s.genLen.toNat ≤ 128 ∧ s.rngReq = false ∧ rngExample.length = s.genLen.toNat ∧
      RngAnswers s s.genLen.toNat ∧ ∀ k (h : k < rngExample.length), s.rngNth k = .byte rngExample[k] :=
  ⟨by decide, by decide, by decide, by decide, RngAnswers.of_none rfl _, by decide⟩

theorem test_witness_GensecretStopsAtUnavailable :
    let s := { State.reset with rngFeed := [.byte 0, .unavailable], rngLeft := some 2 }
    16 ≤ s.genLen.toNat ∧ s.genLen.toNat ≤ 128 ∧ s.rngReq = false ∧ 1 < s.genLen.toNat ∧ RngAnswers s 2 ∧
      (∀ k, k < 1 → ∃ x, s.rngNth k = .byte x) ∧ s.rngNth 1 = .unavailable :=
  ⟨by decide, by decide, by decide, by decide, fun _ h => by cases h; decide,
    fun k h => ⟨0, by obtain rfl : k = 0 := by omega
                      decide⟩, by decide⟩

theorem test_witness_TruncationReadsFourBytes : (beBytes 20 0x1f8698690e02ca16618550ef7f19da8e945b555a).length = 20 := by decide

/-- With no request in flight, and resumed with one in flight, the core answering again. -/
theorem test_witness_ComputeWritesTotpCode :
    let s := atStep (withText secret20) 1
    let u := { waiting with hmacLeft := none }
    s.inLen.toNat ≤ s.params.inCap ∧ base32Decode s.params.partialChunk s.text = some key20 ∧ s.hmacReq = none ∧
      HmacAnswers s 1 ∧ u.inLen.toNat ≤ u.params.inCap ∧ base32Decode u.params.partialChunk u.text = some key20 ∧
      u.hmacReq ≠ none ∧ HmacAnswers u 1 :=
  ⟨by decide, by decide, by decide, HmacAnswers.of_none rfl _, by decide, by decide, by decide, HmacAnswers.of_none rfl _⟩

theorem test_witness_HostCommandComputesTotp :
    let s := { atStep (withText secret20) 1 with
      events := [writeEvent State.reset.params .cmd (encode (.compute true)), .coreTurn] }
    s.phase = .idle ∧ s.rst = false ∧ s.events = writeEvent s.params .cmd (encode (.compute true)) :: .coreTurn :: [] ∧
      s.inLen.toNat ≤ s.params.inCap ∧ base32Decode s.params.partialChunk s.text = some key20 ∧ HmacAnswers s 1 :=
  ⟨by decide, by decide, by decide, by decide, by decide, HmacAnswers.of_none rfl _⟩

theorem test_witness_WindowStepWraps : 255 ≤ 255 ∧ 510 ≤ 2 * 255 ∧ 0 ≤ 2 * 0 := by decide

theorem test_witness_VerifyRejectsLength :
    let s := { State.reset with candLen := 7 }
    s.inLen.toNat ≤ s.params.inCap ∧ s.candLen ≠ 6 := by decide

theorem test_witness_VerifyDecodeFailureIsNonMatch :
    let s := withCand (withText malformed) 1
    s.inLen.toNat ≤ s.params.inCap ∧ s.candLen = 6 ∧ base32Decode s.params.partialChunk s.text = none := by decide

/-- "287082" is the code of step 1: at T_BASE = 1 with d = 1 it is index 1, after a miss at step 0 ("755224"). -/
theorem test_witness_VerifyFirstMatchEndsWindow :
    let s := { withCand (withText secret20) 1 with tBase := 1 }
    s.inLen.toNat ≤ s.params.inCap ∧ s.candLen = 6 ∧ base32Decode s.params.partialChunk s.text = some key20 ∧
      s.hmacReq = none ∧ 1 ≤ 2 * s.disc ∧ HmacAnswers s 2 ∧ windowCode s key20 1 = s.cand ∧
      ∀ i, i < 1 → windowCode s key20 i ≠ s.cand :=
  ⟨by decide, by decide, by decide, by decide, by decide, HmacAnswers.of_none rfl _, by decide +kernel, by decide +kernel⟩

theorem test_witness_VerifyNoMatchTriesWholeWindow :
    let s := { withCand (withText secret20) 0 with tBase := 2 }
    s.inLen.toNat ≤ s.params.inCap ∧ s.candLen = 6 ∧ base32Decode s.params.partialChunk s.text = some key20 ∧
      s.hmacReq = none ∧ HmacAnswers s (2 * s.disc + 1) ∧ ∀ i, i ≤ 2 * s.disc → windowCode s key20 i ≠ s.cand :=
  ⟨by decide, by decide, by decide, by decide, HmacAnswers.of_none rfl _, by decide +kernel⟩

/-- At the edge of the window: k = d = 1, the code of step 1 at T_BASE = 2. -/
theorem test_witness_VerifyAcceptsCodesInWindow :
    let s := { withCand (withText secret20) 1 with tBase := 2 }
    s.inLen.toNat ≤ s.params.inCap ∧ s.candLen = 6 ∧ base32Decode s.params.partialChunk s.text = some key20 ∧
      s.hmacReq = none ∧ HmacAnswers s (2 * s.disc + 1) ∧ -(s.disc : Int) ≤ 1 ∧ (1 : Int) ≤ (s.disc : Int) ∧
      s.tBase = 1 + BitVec.ofInt 64 1 ∧ s.cand = totpCode s.params.hmac key20 1 :=
  ⟨by decide, by decide, by decide, by decide, HmacAnswers.of_none rfl _, by decide, by decide, by decide, by decide +kernel⟩

theorem test_witness_VerifyMasksMalformedSecret :
    let s := withCand (withText malformed) 0
    let u := { withCand (withText secret20) 0 with tBase := 2 }
    s.inLen.toNat ≤ s.params.inCap ∧ u.inLen.toNat ≤ u.params.inCap ∧ s.candLen = 6 ∧ u.candLen = 6 ∧
      s.stepUsed = u.stepUsed ∧ s.irqEn = u.irqEn ∧ base32Decode s.params.partialChunk s.text = none ∧
      base32Decode u.params.partialChunk u.text = some key20 ∧ u.hmacReq = none ∧ HmacAnswers u (2 * u.disc + 1) ∧
      ∀ i, i ≤ 2 * u.disc → windowCode u key20 i ≠ u.cand :=
  ⟨by decide, by decide, by decide, by decide, by decide, by decide, by decide, by decide, by decide,
    HmacAnswers.of_none rfl _, by decide +kernel⟩

theorem test_witness_TrailingZerosKeepDigest : key20.length + 44 ≤ 64 := by decide

theorem test_witness_SilentHmacStaysBusy :
    let s := { (atStep (withText secret20) 1).accept 0x104 with hmacLeft := some 0 }
    let v := { (withCand (withText secret20) 255).accept 0x105 with hmacLeft := some 0 }
    let g := { State.reset.accept 0x3 with rngLeft := some 0 }
    (s.phase = .busy ∧ s.inLen.toNat ≤ s.params.inCap ∧ base32Decode s.params.partialChunk s.text = some key20 ∧
      s.hmacReq = none ∧ s.hmacLeft = some 0) ∧
    (v.phase = .busy ∧ v.inLen.toNat ≤ v.params.inCap ∧ v.candLen = 6 ∧
      base32Decode v.params.partialChunk v.text = some key20 ∧ v.hmacReq = none ∧ v.hmacLeft = some 0) ∧
    g.phase = .busy ∧ 16 ≤ g.genLen.toNat ∧ g.genLen.toNat ≤ 128 ∧ g.rngReq = false ∧ g.rngLeft = some 0 := by decide

/-- The wait happens, with no answer at all: of COMPUTE, and of VERIFY in a window of one offset. -/
theorem test_witness_HmacSilenceIsTransparent :
    let c := { (atStep (withText secret20) 1).accept 0x104 with hmacLeft := some 0 }
    let s := { (atStep (withCand (withText secret20) 0) 1).accept 0x105 with hmacLeft := some 0 }
    (c.phase = .busy ∧ c.hmacReq = none ∧ c.hmacLeft = some 0 ∧
      ∃ t, exec (.compute true) c = .next t ∧ t.phase = .busy) ∧
    s.phase = .busy ∧ s.hmacReq = none ∧ s.hmacLeft = some 0 ∧
      ∃ t, exec (.verify true) s = .next t ∧ t.phase = .busy :=
  ⟨⟨by decide, by decide, by decide, _, rfl, by decide⟩, by decide, by decide, by decide, _, rfl, by decide⟩

/-- The wait happens: after one answer. -/
theorem test_witness_RngSilenceIsTransparent :
    let s := { State.reset.accept 0x3 with rngFeed := rngExample.map .byte, rngLeft := some 1 }
    s.phase = .busy ∧ s.rngReq = false ∧ s.rngLeft = some 1 ∧
      ∃ t, exec (.gensecret false) s = .next t ∧ t.phase = .busy := ⟨by decide, by decide, by decide, _, rfl, by decide⟩

theorem test_witness_AnsweredCommandCompletes :
    busyDecode.phase = .busy ∧ busyDecode.rst = false ∧ busyDecode.events = [] ∧ busyDecode.hmacLeft = none ∧
      busyDecode.rngLeft = none := by decide

theorem test_witness_UnsupportedAccessHasNoEffect :
    readSupported 0x006 4 = false ∧ writeSupported 0x000 2 = false ∧ readSupported 0x1000 8 = false := by decide

/-- Each clause at the ends of its range of offsets; the last two where an access straddles P_IN_CAP = 130. -/
theorem test_witness_SupportedAccessShapes :
    let s := { State.reset with params := ⟨0, 130, .zeroFillFive, .reference⟩ }
    readSupported 0xFFC 4 = true ∧ readSupported 0xFFE 4 = false ∧ readSupported 0x1FFF 1 = true ∧
      writeSupported 0x1FFE 2 = true ∧ writeSupported 0x1FFC 4 = true ∧ writeSupported 0x1FFF 2 = false ∧
      readSupported 0x2000 4 = true ∧ readSupported 0x2FFF 1 = true ∧ readSupported 0x2FFF 2 = false ∧
      writeSupported (0x1000 + 128) 4 = true ∧ s.phase = .idle ∧ s.params.inCap = 130 ∧
      readSupported (0x1000 + 128) 4 = true := by decide

/-- Each reserved range at its ends. -/
theorem test_witness_ReservedOffsetsReadZero :
    readSupported 0x03C 4 = true ∧ readSupported 0xFFC 4 = true ∧ readSupported 0x3000 1 = true ∧
      writeSupported 0x3FFF 1 = true ∧ writeSupported 0x3FFC 4 = true ∧
      0x1000 + State.reset.params.inCap ≤ 0x1100 ∧ readSupported 0x1100 4 = true ∧ writeSupported 0x1FFF 1 = true ∧
      0x2000 + State.reset.params.outCap ≤ 0x21A0 ∧ readSupported 0x21A0 4 = true ∧ writeSupported 0x2FFF 1 = true := by
  decide

/-- The clause on a BUSY core's CTRL and the frame of a write hold in either phase, the others while IDLE. -/
theorem test_witness_RegistersReadBack : State.reset.phase = .idle ∧ busyDecode.phase = .busy ∧
    Reg.ctrl ≠ .cmd ∧ Reg.ctrl ≠ .status ∧ Reg.status ≠ .ctrl := by decide

theorem test_witness_StatusWriteClearsDoneOnly :
    (0x2 : Word).getLsbD 1 = true ∧ { State.reset with done := true }.done = true := by decide

theorem test_witness_CapsShowsCapacities :
    State.reset.params.wellFormed = true ∧ State.reset.params = Config.defaultParams := by decide

theorem test_witness_BusyWritesAreIgnored :
    busyDecode.phase = .busy ∧ writeSupported 0x000 4 = true ∧ writeSupported 0x02C 4 = true ∧
      writeSupported 0x1000 4 = true ∧ writeSupported 0x1FFF 1 = true := by decide

/-- The last word of IN_BUF, the last defined word of OUT_BUF, and a read that ends at P_OUT_CAP = 416. -/
theorem test_witness_InBufLanesAreLittleEndian :
    let s := { State.reset with outLen := 8, outBuf := memSetFrom [] 0 [1, 2, 3, 4, 5, 6, 7, 8] }
    (State.reset.phase = .idle ∧ 252 % 4 = 0 ∧ 252 + 4 ≤ State.reset.params.inCap ∧
      State.reset.params.wellFormed = true) ∧
    (s.phase = .idle ∧ s.err = .none ∧ 4 % 4 = 0 ∧ 4 + 4 ≤ s.outLen.toNat ∧ 4 + 4 ≤ s.params.outCap ∧
      s.params.wellFormed = true ∧ memGet s.outBuf 4 = some 5 ∧ memGet s.outBuf 5 = some 6 ∧
      memGet s.outBuf 6 = some 7 ∧ memGet s.outBuf 7 = some 8) ∧
    readSupported (0x2000 + 416) 4 = true ∧ s.params.outCap ≤ 416 + 0 ∧ readSupported (0x2000 + 4) 4 = true := by decide

theorem test_witness_InBufWriteFrame : writeSupported 0x1000 1 = true ∧ writeSupported 0x1FFC 4 = true ∧
    0x2000 ≤ 0x2FFF ∧ 0x2FFF < 0x3000 ∧ 7 < 8 := by decide

/-- Two states that differ in the hidden KEY. -/
theorem test_witness_HiddenStateIsInvisible : SameVisible State.reset { State.reset with key := [1], tBase := 5, winI := 2 } := by
  constructor <;> first | rfl | (intro i _; rfl)

theorem test_witness_OnlyHostOrResetChangesOperands :
    let s := { busyDecode with events := [.coreTurn] }
    (∃ t, step s = .next t) ∧ (∀ a n v, s.events.head? ≠ some (.access (.write a n v))) ∧
      ∀ l, s.events.head? ≠ some (.rst l) := ⟨⟨_, rfl⟩, by intros; simp, by intros; simp⟩

theorem test_witness_WritesShorthandFillsInBuf :
    let s := { State.reset with events := programEvents State.reset.params (writesIn malformed) }
    s.phase = .idle ∧ s.rst = false ∧ s.params.wellFormed = true ∧ malformed.length ≤ s.params.inCap ∧
      s.events = programEvents s.params (writesIn malformed) := by decide

/-- Each form at the edge of what has an encoding, on both sides. -/
theorem test_witness_AssemblerRefusesUnencodable :
    checkDiscrepancy 255 = .ok 255 ∧ checkDiscrepancy 256 = .error (.discrepancyOutOfRange 256) ∧
      checkDiscrepancy (-1) = .error (.discrepancyOutOfRange (-1)) ∧ checkLength 0 = .ok 0 ∧
      checkLength (2 ^ 32) = .error (.lengthOutOfRange (2 ^ 32)) ∧ checkStep (2 ^ 64 - 1) = .ok 0xFFFFFFFFFFFFFFFF ∧
      checkStep (2 ^ 64) = .error (.stepOutOfRange (2 ^ 64)) ∧
      checkString Config.defaultParams (List.replicate 256 0) = .ok () ∧
      checkString Config.defaultParams (List.replicate 257 0) = .error (.stringTooLong 257) ∧
      checkCandidate [0x31, 0x32] = .ok () := by decide +kernel

theorem test_witness_IrqIsALevel :
    (0x2 : Word).getLsbD 1 = true ∧ State.reset.phase = .idle ∧
      { State.reset with done := true, irqEn := true }.irq = true := by decide

/-- From BUSY and from IDLE, asserted and released, and a level 0 that was 0. -/
theorem test_witness_ResetAbandonsCommand :
    ({ busyDecode with events := [.rst true] }.events = .rst true :: [] ∧ busyDecode.phase = .busy) ∧
      ({ State.reset with rst := true, events := [.rst false] }.events = .rst false :: [] ∧
        { State.reset with rst := true }.rst = true) ∧
      { State.reset with events := [.rst false] }.events = .rst false :: [] ∧ State.reset.rst = false := by decide

/-- The invariants hold of a BUSY state, and its step, which completes DECODE, answers a next state. -/
theorem test_witness_StepKeepsInv : Inv busyDecode ∧ ∃ t, step busyDecode = .next t ∧ t.done = true :=
  ⟨by constructor <;> first | decide | exact fun h => absurd h (by decide), _, rfl, by decide⟩

theorem test_witness_StepKeepsPortInv :
    PortInv waiting ∧ waiting.hmacReq = some ⟨key20, 1⟩ ∧ ∃ t, step waiting = .next t := by
  have hd : decodeWord waiting.latchedCmd = .ok (.compute true) := by decide
  refine ⟨?_, by decide, _, rfl⟩
  constructor
  · decide
  · decide
  · exact fun _ => .inl ⟨true, hd⟩
  · decide
  · exact fun _ _ _ => by decide
  · intro _ b h; rw [hd] at h; cases h
  · decide
  · decide
  · decide
  · decide
  · decide
  · decide

end Sys2Proof.Tests
end

section
/-! SUPPORT. The registers of spec/10_state.md: the write to STATUS (R26), CAPS (R37) and the values after reset (R44). -/

namespace Sys2Proof

/-! ## The capacities of well-formed parameters (R7) -/

theorem Params.wellFormed_iff (p : Params) :
    p.wellFormed = true ↔ p.pBase % 0x4000 = 0 ∧ 128 ≤ p.inCap ∧ p.inCap ≤ 2048 := by
  simp [Params.wellFormed, Params.baseAligned, Params.capInRange]

theorem Params.inCap_le_of_wellFormed {p : Params} (h : p.wellFormed = true) : p.inCap ≤ 2048 := by
  obtain ⟨-, -, hmax⟩ := p.wellFormed_iff.1 h
  exact hmax

/-- The largest P_OUT_CAP is that of P_IN_CAP = 2048. -/
theorem Params.outCap_le_of_wellFormed {p : Params} (h : p.wellFormed = true) : p.outCap ≤ 3280 := by
  have hin := Params.inCap_le_of_wellFormed h
  unfold Params.outCap
  omega

namespace Machine

/-! ## CAPS (R37) -/

/-- The two halves of CAPS do not overlap as long as each capacity fits its 16 bits. -/
theorem capsWord_toNat {p : Params} (hout : p.outCap < 65536) (hin : p.inCap < 65536) :
    (capsWord p).toNat = p.outCap * 65536 + p.inCap := by
  rw [capsWord, BitVec.toNat_append, BitVec.toNat_ofNat, BitVec.toNat_ofNat, Nat.mod_eq_of_lt hout, Nat.mod_eq_of_lt hin,
    ← Nat.shiftLeft_add_eq_or_of_lt hin, Nat.shiftLeft_eq]

theorem capsWord_default : capsWord Config.defaultParams = 0x01A00100 := by decide

/-- Settles O46: both capacities of well-formed parameters fit the halves of CAPS. -/
theorem capsShowsCapacities : Obligations.CapsShowsCapacities := by
  refine ⟨fun s hwf => ?_, fun s hdef => ?_⟩
  · have hin := Params.inCap_le_of_wellFormed hwf
    have hout := Params.outCap_le_of_wellFormed hwf
    exact capsWord_toNat (by omega) (by omega)
  · rw [State.readReg, hdef, capsWord_default]

/-! ## STATUS (R25, R26) -/

theorem writeReg_status_clears {s : State} {v : Word} (hbit : v.getLsbD 1 = true) (hdone : s.done = true) :
    s.writeReg .status v = s.clearDone := by
  simp [State.writeReg, hbit, hdone]

theorem writeReg_status_keeps {s : State} {v : Word} (h : ¬(v.getLsbD 1 = true ∧ s.done = true)) :
    s.writeReg .status v = s := by
  rw [State.writeReg, if_neg (by rwa [Bool.and_eq_true])]

/-- Settles O45, by whether the written bit 1 and DONE are both 1; the phase plays no part. -/
theorem statusWriteClearsDoneOnly : Obligations.StatusWriteClearsDoneOnly := by
  intro s v
  split
  · next h => exact writeReg_status_clears h.1 h.2
  · next h => exact writeReg_status_keeps h

/-! ## The values after reset (R44) -/

/-- STATUS reads 0 in an IDLE core that shows no completion, no result and no error (R25). -/
theorem statusWord_eq_zero {s : State} (hphase : s.phase = .idle) (hdone : s.done = false) (hresult : s.result = false)
    (herr : s.err = .none) : s.statusWord = 0 := by
  simp [State.statusWord, State.busy, hphase, hdone, hresult, herr, errCode]

theorem ctrlWord_eq_zero {s : State} (hirq : s.irqEn = false) : s.ctrlWord = 0 := by
  simp [State.ctrlWord, hirq]

theorem irq_eq_false_of_not_done {s : State} (hdone : s.done = false) : s.irq = false := by
  simp [State.irq, hdone]

/-- Settles O56: STATUS, CTRL, CAPS and `irq` are made of several fields, the other registers are one field each. -/
theorem resetRegisterValues : Obligations.ResetRegisterValues := by
  have hstatus : State.reset.readReg .status = 0 := statusWord_eq_zero rfl rfl rfl rfl
  have hctrl : State.reset.readReg .ctrl = 0 := ctrlWord_eq_zero rfl
  have hcaps : State.reset.readReg .caps = 0x01A00100 := capsWord_default
  have hirq : State.reset.irq = false := irq_eq_false_of_not_done rfl
  exact ⟨hstatus, hctrl, rfl, rfl, rfl, rfl, rfl, rfl, rfl, rfl, rfl, rfl, rfl, hcaps, rfl, rfl, rfl, hirq⟩

end Machine

end Sys2Proof
end

section
/-! SUPPORT. The CMD word and its commands: the decoder's answers by fields, by encoding and by masked word (spec/30_encoding.md R67 to R73). -/

namespace Sys2Proof

/-! ## The fields of a word (R67) -/

/-- The four fields cover the word, so no bit is dropped. -/
theorem append_fields (w : Word) :
    reservedHighField w ++ BitVec.ofBool (tselField w) ++ reservedLowField w ++ opcodeField w = w := by
  have htsel : BitVec.ofBool (tselField w) = w.extractLsb' 8 1 := by
    rw [tselField, BitVec.getLsbD_eq_extractLsb']
    generalize w.extractLsb' 8 1 = b
    revert b
    decide
  rw [htsel, reservedHighField, reservedLowField, opcodeField,
    BitVec.extractLsb'_append_extractLsb'_eq_extractLsb' (show 9 = 8 + 1 from rfl),
    BitVec.extractLsb'_append_extractLsb'_eq_extractLsb' (show 8 = 4 + 4 from rfl),
    BitVec.extractLsb'_append_extractLsb'_eq_extractLsb' (show 4 = 0 + 4 from rfl)]
  exact BitVec.extractLsb'_eq_self

theorem wordFields (i : Instr) : Laws.WordFields.Statement i := by
  cases i with
  | decode t => exact Laws.WordFields.decode t
  | encode t => exact Laws.WordFields.encode t
  | gensecret t => exact Laws.WordFields.gensecret t
  | compute t => exact Laws.WordFields.compute t
  | verify t => exact Laws.WordFields.verify t

/-- A word is a command's exactly when its reserved fields are 0 and OPCODE and TSEL are the command's. -/
theorem eq_encode_iff (w : Word) (i : Instr) :
    w = encode i ↔
      reservedLowField w = 0 ∧ reservedHighField w = 0 ∧ opcodeField w = opcodeOf i ∧ tselField w = tselOf i := by
  constructor
  · rintro rfl
    obtain ⟨-, hop, htsel, hlow, hhigh, -, -, -⟩ := wordFields i
    exact ⟨hlow, hhigh, hop, htsel⟩
  · rintro ⟨hlow, hhigh, hop, htsel⟩
    rw [← append_fields w, hlow, hhigh, hop, htsel, encode]

/-! ## The decoder's answers (R68, R71, R73) -/

theorem opcodeMap_opcodeOf (i : Instr) : opcodeMap (opcodeOf i) (tselOf i) = .ok i := by
  cases i <;> rfl

theorem opcodeMap_eq_ok_iff (op : BitVec 4) (tsel : Bool) (i : Instr) :
    opcodeMap op tsel = .ok i ↔ op = opcodeOf i ∧ tsel = tselOf i := by
  constructor
  · intro h
    unfold opcodeMap at h
    split_ifs at h with h1 h2 h3 h4 h5 <;> cases h <;> exact ⟨‹_›, rfl⟩
  · rintro ⟨rfl, rfl⟩
    exact opcodeMap_opcodeOf i

theorem decodeWord_eq_ok_iff_fields (w : Word) (i : Instr) :
    decodeWord w = .ok i ↔
      reservedLowField w = 0 ∧ reservedHighField w = 0 ∧ opcodeField w = opcodeOf i ∧ tselField w = tselOf i := by
  unfold decodeWord
  split_ifs with hlow hhigh
  · exact iff_of_false (by simp) fun h => hlow h.1
  · exact iff_of_false (by simp) fun h => hhigh h.2.1
  · rw [opcodeMap_eq_ok_iff]
    simp only [not_not.1 hlow, not_not.1 hhigh, true_and]

theorem decodeWord_eq_ok_iff (w : Word) (i : Instr) : decodeWord w = .ok i ↔ w = encode i := by
  rw [decodeWord_eq_ok_iff_fields, eq_encode_iff]

@[simp] theorem decodeWord_encode (i : Instr) : decodeWord (encode i) = .ok i :=
  (decodeWord_eq_ok_iff _ i).2 rfl

/-! ## The bytes of a word (R51) -/

theorem wordOfBytes_extractLsb' (w : Word) :
    wordOfBytes (w.extractLsb' 0 8) (w.extractLsb' 8 8) (w.extractLsb' 16 8) (w.extractLsb' 24 8) = w := by
  rw [wordOfBytes, BitVec.extractLsb'_append_extractLsb'_eq_extractLsb' (show 24 = 16 + 8 from rfl),
    BitVec.extractLsb'_append_extractLsb'_eq_extractLsb' (show 16 = 8 + 8 from rfl),
    BitVec.extractLsb'_append_extractLsb'_eq_extractLsb' (show 8 = 0 + 8 from rfl)]
  exact BitVec.extractLsb'_eq_self

theorem decodeBytes_bytesOfWord (w : Word) : decodeBytes (bytesOfWord w) = decodeWord w := by
  rw [bytesOfWord, decodeBytes, wordOfBytes_extractLsb']

theorem decodeBytes_encodeBytes (i : Instr) : decodeBytes (encodeBytes i) = .ok i := by
  rw [encodeBytes, decodeBytes_bytesOfWord, decodeWord_encode]

/-! ## The ten legal words (R73) -/

/-- Five opcodes, each with both values of TSEL (R68, R69). -/
theorem exists_instr_iff (P : Instr → Prop) :
    (∃ i, P i) ↔ P (.decode false) ∨ P (.decode true) ∨ P (.encode false) ∨ P (.encode true) ∨ P (.gensecret false) ∨
      P (.gensecret true) ∨ P (.compute false) ∨ P (.compute true) ∨ P (.verify false) ∨ P (.verify true) := by
  constructor
  · rintro ⟨i, h⟩
    obtain ⟨_ | _⟩ | ⟨_ | _⟩ | ⟨_ | _⟩ | ⟨_ | _⟩ | ⟨_ | _⟩ := i <;> simp [h]
  · rintro (h | h | h | h | h | h | h | h | h | h) <;> exact ⟨_, h⟩

/-- Settles O2: a word is determined by its fields, and the decoder reads each of them. -/
theorem legalWordsAreExactlyTheEncodings : Obligations.LegalWordsAreExactlyTheEncodings := by
  refine ⟨decodeWord_eq_ok_iff, decodeBytes_encodeBytes, by decide, fun w => ?_⟩
  simp only [decodeWord_eq_ok_iff, exists_instr_iff, List.mem_cons, List.not_mem_nil, or_false]
  -- The ten encodings are the ten listed words by evaluation.
  exact Iff.rfl

/-! ## The masked word (R72) -/

/-- The mask keeps every bit but bit 8. -/
theorem getLsbD_mask : ∀ k : Fin 32, (0xFFFFFEFF : Word).getLsbD k = decide (k ≠ 8) := by decide

/-- A word is its masked word and its bit 8. -/
theorem eq_of_masked_eq {w v : Word} (hmask : w &&& 0xFFFFFEFF = v &&& 0xFFFFFEFF) (hbit : tselField w = tselField v) :
    w = v := by
  refine BitVec.eq_of_getLsbD_eq fun k hk => ?_
  by_cases h8 : k = 8
  · subst h8
    exact hbit
  · have hkeep : (0xFFFFFEFF : Word).getLsbD k = true := by
      rw [getLsbD_mask ⟨k, hk⟩]
      exact decide_eq_true fun h => h8 (congrArg Fin.val h)
    have := congrArg (·.getLsbD k) hmask
    simpa only [BitVec.getLsbD_and, hkeep, Bool.and_true] using this

theorem decodeWord_eq_ok_iff_masked (w : Word) (i : Instr) :
    decodeWord w = .ok i ↔ w &&& 0xFFFFFEFF = (opcodeOf i).setWidth 32 ∧ tselField w = tselOf i := by
  obtain ⟨-, -, htsel, -, -, -, -, hmask⟩ := wordFields i
  rw [decodeWord_eq_ok_iff, ← htsel, ← hmask]
  exact ⟨fun h => h ▸ ⟨rfl, rfl⟩, fun ⟨hm, ht⟩ => eq_of_masked_eq hm ht⟩

/-- A word whose masked word is no command's opcode is rejected. -/
theorem decodeWord_error_of_masked_ne {w : Word} (h : ∀ i, w &&& 0xFFFFFEFF ≠ (opcodeOf i).setWidth 32) :
    ∃ r, decodeWord w = .error r := by
  cases hd : decodeWord w with
  | error r => exact ⟨r, rfl⟩
  | ok i => exact absurd ((decodeWord_eq_ok_iff_masked w i).1 hd).1 (h i)

/-- Settles O1: each link of the chain is the masked form of one command. -/
theorem decoderIsTheMaskedChain : Obligations.DecoderIsTheMaskedChain := by
  intro w
  split_ifs with h1 h2 h3 h4 h5
  · exact (decodeWord_eq_ok_iff_masked w _).2 ⟨h1, rfl⟩
  · exact (decodeWord_eq_ok_iff_masked w _).2 ⟨h2, rfl⟩
  · exact (decodeWord_eq_ok_iff_masked w _).2 ⟨h3, rfl⟩
  · exact (decodeWord_eq_ok_iff_masked w _).2 ⟨h4, rfl⟩
  · exact (decodeWord_eq_ok_iff_masked w _).2 ⟨h5, rfl⟩
  · refine decodeWord_error_of_masked_ne fun i => ?_
    cases i with
    | decode t => exact h1
    | encode t => exact h2
    | gensecret t => exact h3
    | compute t => exact h4
    | verify t => exact h5

end Sys2Proof
end

section
/-! SUPPORT. The codec of spec/40_base32.md: its symbol table (R77, R78), the text it accepts (R79 to R81), the lengths of its results (R88) and its round trip (R89, R90). -/

namespace Sys2Proof.Machine

/-! ## The symbol table (R77, R78) -/

theorem symbol_toNat_letter : ∀ v, v < 26 → (symbol v).toNat = 0x41 + v := by decide

theorem symbol_toNat_digit : ∀ v, 26 ≤ v → v < 32 → (symbol v).toNat = 0x32 + (v - 26) := by decide

theorem symbol_of_symValue {b : Byte} {v : Nat} (h : symValue b = some v) : symbol v = b := by
  refine BitVec.eq_of_toNat_eq ?_
  unfold symValue at h
  split_ifs at h with hletter hdigit
  · obtain rfl := Option.some.inj h
    rw [symbol_toNat_letter _ (by omega)]
    omega
  · obtain rfl := Option.some.inj h
    rw [symbol_toNat_digit _ (by omega) (by omega)]
    omega

theorem symValue_eq_some_iff (b : Byte) (v : Nat) : symValue b = some v ↔ v < 32 ∧ symbol v = b :=
  ⟨fun h => ⟨symValue_lt h, symbol_of_symValue h⟩, fun ⟨hv, hb⟩ => hb ▸ symValue_symbol v hv⟩

theorem symValue_eq_none_iff (b : Byte) : symValue b = none ↔ ¬ IsDataSymbol b := by
  unfold symValue IsDataSymbol
  split_ifs with hletter hdigit
  · simp [hletter]
  · simp [hdigit]
  · simp [hletter, hdigit]

theorem isDataSymbol_iff_isSome (b : Byte) : IsDataSymbol b ↔ (symValue b).isSome = true := by
  rw [Option.isSome_iff_ne_none, Ne, symValue_eq_none_iff, not_not]

/-- The test of R81. -/
theorem any_symValue_isNone_iff (t : List Byte) :
    (t.any fun b => (symValue b).isNone) = true ↔ ¬ ∀ b ∈ t, IsDataSymbol b := by
  simp only [List.any_eq_true, Option.isNone_iff_eq_none, symValue_eq_none_iff, not_forall, exists_prop]

/-- Settles O17: the table is evaluated at its 32 indices, and the lookup inverts it. -/
theorem symbolTableIsAlphabet : Obligations.SymbolTableIsAlphabet :=
  ⟨symbol_toNat_letter, symbol_toNat_digit, symValue_eq_some_iff, symValue_eq_none_iff⟩

/-! ## The text that decodes (R79 to R81, R84) -/

/-- `s` is the data symbols `t` and one run of pad symbols of a legal length. -/
def PaddedText (s t : List Byte) : Prop :=
  (∀ b ∈ t, IsDataSymbol b) ∧ ∃ n ∈ Config.validPadCounts, s = t ++ List.replicate n padByte

theorem padCount_eq_zero {t : List Byte} (h : ∀ b ∈ t, IsDataSymbol b) : padCount t = 0 := by
  refine List.count_eq_zero.2 fun hpad => ?_
  exact (symValue_eq_none_iff padByte).1 symValue_pad (h padByte hpad)

theorem padCount_append_pads {t : List Byte} (h : ∀ b ∈ t, IsDataSymbol b) (n : Nat) :
    padCount (t ++ List.replicate n padByte) = n := by
  have ht : t.count padByte = 0 := padCount_eq_zero h
  rw [padCount, List.count_append, ht, List.count_replicate_self, Nat.zero_add]

/-- The `N` of R79 and the text of R81 make up the whole input. -/
theorem PaddedText.length_sub_count {s t : List Byte} (h : PaddedText s t) : s.length - s.count 0x3D = t.length := by
  obtain ⟨ht, n, -, rfl⟩ := h
  have hpads : (t ++ List.replicate n padByte).count 0x3D = n := padCount_append_pads ht n
  rw [hpads, List.length_append, List.length_replicate, Nat.add_sub_cancel]

@[simp] theorem decodeChunks_nil (p : PartialChunk) : decodeChunks p [] = [] := by
  rw [decodeChunks_eq, chunked_nil 8 (by decide)]

theorem slice_to_end (s : List Byte) (i : Nat) : slice s i s.length = s.drop i :=
  List.take_of_length_le (List.length_drop).le

theorem base32Decode_of_paddedText {s t : List Byte} (p : PartialChunk) (h : PaddedText s t) :
    base32Decode p s = some (decodeChunks p t) := by
  obtain ⟨ht, n, hn, rfl⟩ := h
  have htext : slice (t ++ List.replicate n padByte) 0 t.length = t := by rw [slice_zero, List.take_left]
  have hpads : slice (t ++ List.replicate n padByte) t.length (t.length + n) = List.replicate n padByte := by
    simp [slice]
  unfold base32Decode
  simp only [padCount_append_pads ht, List.length_append, List.length_replicate, Nat.add_sub_cancel, htext, hpads,
    hn, not_true, ne_eq, if_false]
  split_ifs with hempty hinvalid
  · obtain rfl : t = [] := List.length_eq_zero_iff.1 (by omega)
    rw [decodeChunks_nil]
  · exact absurd ht ((any_symValue_isNone_iff t).1 hinvalid)
  · rfl

theorem exists_paddedText_of_base32Decode {p : PartialChunk} {s r : List Byte} (h : base32Decode p s = some r) :
    ∃ t, PaddedText s t ∧ r = decodeChunks p t := by
  unfold base32Decode at h
  simp only at h
  split_ifs at h with hempty hcount htail hvalid
  · obtain rfl := List.length_eq_zero_iff.1 hempty
    exact ⟨[], ⟨by simp, 0, by decide, rfl⟩, by simpa using h.symm⟩
  · rw [any_symValue_isNone_iff, not_not] at hvalid
    refine ⟨_, ⟨hvalid, padCount s, hcount, ?_⟩, (Option.some.inj h).symm⟩
    rw [← not_not.1 htail, slice_zero, slice_to_end, List.take_append_drop]

/-- Which text decodes does not depend on P_PARTIAL_CHUNK; what it decodes to does. -/
theorem base32Decode_eq_some_iff (p : PartialChunk) (s r : List Byte) :
    base32Decode p s = some r ↔ ∃ t, PaddedText s t ∧ r = decodeChunks p t :=
  ⟨exists_paddedText_of_base32Decode, fun ⟨_, ht, hr⟩ => hr ▸ base32Decode_of_paddedText p ht⟩

/-- Settles O18: the text of R81 and the pad count of R79 are the witnesses. -/
theorem decodeAcceptsExactlyPaddedText : Obligations.DecodeAcceptsExactlyPaddedText := by
  intro p s
  constructor
  · rintro ⟨r, hr⟩
    obtain ⟨t, ⟨ht, n, hn, hs⟩, -⟩ := (base32Decode_eq_some_iff p s r).1 hr
    exact ⟨t, n, hn, hs, ht⟩
  · rintro ⟨t, n, hn, hs, ht⟩
    exact ⟨_, base32Decode_of_paddedText p ⟨ht, n, hn, hs⟩⟩

/-! ## Chunk by chunk -/

theorem chunked_append (k : Nat) (hk : 0 < k) (f : List Byte → List Byte) {c : List Byte} (hc : c.length = k)
    (l : List Byte) : chunked k f (c ++ l) = f c ++ chunked k f l := by
  subst hc
  rw [chunked_step _ hk f _ (by simp [List.ne_nil_of_length_pos hk]), List.take_left, List.drop_left]

theorem chunked_of_length_le (k : Nat) (hk : 0 < k) (f : List Byte → List Byte) {l : List Byte} (hl : l ≠ [])
    (hle : l.length ≤ k) : chunked k f l = f l := by
  rw [chunked_step k hk f l hl, List.take_of_length_le hle, List.drop_of_length_le hle, chunked_nil k hk, List.append_nil]

/-- Induction over the chunks of `k` of a sequence: the last one is partial or empty, the others are full. -/
theorem chunk_induction (k : Nat) (hk : 0 < k) {motive : List Byte → Prop} (nil : motive [])
    (last : ∀ c, c ≠ [] → c.length < k → motive c)
    (full : ∀ c l, c.length = k → motive l → motive (c ++ l)) (l : List Byte) : motive l := by
  by_cases hlt : l.length < k
  · by_cases hl : l = []
    · exact hl ▸ nil
    · exact last l hl hlt
  · have hrest := chunk_induction k hk nil last full (l.drop k)
    have := full (l.take k) (l.drop k) (by simp; omega) hrest
    rwa [List.take_append_drop] at this
termination_by l.length
decreasing_by simp; omega

theorem decodeChunks_append (p : PartialChunk) {c : List Byte} (hc : c.length = 8) (t : List Byte) :
    decodeChunks p (c ++ t) = chunkBytes p c ++ decodeChunks p t :=
  chunked_append 8 (by decide) _ hc t

theorem decodeChunks_of_length_le (p : PartialChunk) {t : List Byte} (ht : t ≠ []) (hle : t.length ≤ 8) :
    decodeChunks p t = chunkBytes p t :=
  chunked_of_length_le 8 (by decide) _ ht hle

/-! ## RFC4648_DISCARD against ZERO_FILL_FIVE (R90) -/

theorem chunkBytes_discard (c : List Byte) :
    chunkBytes .rfc4648Discard c = (chunkBytes .zeroFillFive c).take (5 * c.length / 8) := rfl

/-- A full chunk has no byte to discard, so only the last chunk's bytes are cut. -/
theorem decodeChunks_discard (t : List Byte) :
    decodeChunks .rfc4648Discard t = (decodeChunks .zeroFillFive t).take (5 * t.length / 8) := by
  induction t using chunk_induction 8 (by decide) with
  | nil => simp
  | last c hc hlt =>
    rw [decodeChunks_of_length_le _ hc hlt.le, decodeChunks_of_length_le _ hc hlt.le, chunkBytes_discard]
  | full c t hc ih =>
    have hfive : (chunkBytes .zeroFillFive c).length = 5 := chunkBytes_length .zeroFillFive c
    have hcut : 5 * (c ++ t).length / 8 = (chunkBytes .zeroFillFive c).length + 5 * t.length / 8 := by
      rw [hfive, List.length_append, hc]
      omega
    rw [decodeChunks_append _ hc, decodeChunks_append _ hc, ih, hcut, List.take_length_add_append, chunkBytes_discard,
      List.take_of_length_le (by rw [hfive, hc])]

theorem base32Decode_discard (s : List Byte) :
    base32Decode .rfc4648Discard s =
      (base32Decode .zeroFillFive s).map fun r => r.take (5 * (s.length - s.count 0x3D) / 8) := by
  by_cases h : ∃ t, PaddedText s t
  · obtain ⟨t, ht⟩ := h
    rw [base32Decode_of_paddedText _ ht, base32Decode_of_paddedText _ ht, ht.length_sub_count, decodeChunks_discard,
      Option.map_some]
  · have hnone : ∀ p, base32Decode p s = none := fun p => Option.eq_none_iff_forall_ne_some.2 fun r hr =>
      h ((exists_paddedText_of_base32Decode hr).imp fun _ => And.left)
    rw [hnone, hnone, Option.map_none]

/-! ## The encoding is padded text (R86) -/

/-- The data symbols of an encoding, without its padding. -/
def encodeText (b : List Byte) : List Byte := chunked 5 groupText b

/-- The number of pad symbols in the encoding of `m` bytes. -/
def encodePads (m : Nat) : Nat := [0, 6, 4, 3, 1].getD (m % 5) 0

theorem encodePads_mem (m : Nat) : encodePads m ∈ Config.validPadCounts := by
  have hm : m % 5 < 5 := Nat.mod_lt _ (by decide)
  unfold encodePads
  generalize m % 5 = r at hm
  revert r
  decide

theorem encodePads_of_lt : ∀ m, m < 5 → 0 < m → encodePads m = 8 - groupSyms m := by decide

@[simp] theorem encodePads_five_add (m : Nat) : encodePads (5 + m) = encodePads m := by simp [encodePads]

theorem groupText_length_full {g : List Byte} (hg : g.length = 5) : (groupText g).length = 8 := by
  rw [groupText_length, hg]
  rfl

theorem encodeGroup_full {g : List Byte} (hg : g.length = 5) : encodeGroup g = groupText g := by
  have hsyms : groupSyms g.length = 8 := hg ▸ rfl
  rw [encodeGroup_eq, hsyms, Nat.sub_self, List.replicate_zero, List.append_nil]

@[simp] theorem encodeText_nil : encodeText [] = [] := chunked_nil 5 (by decide) _

theorem encodeText_append {g : List Byte} (hg : g.length = 5) (b : List Byte) :
    encodeText (g ++ b) = groupText g ++ encodeText b :=
  chunked_append 5 (by decide) _ hg b

theorem encodeText_of_length_le {g : List Byte} (hg : g ≠ []) (hle : g.length ≤ 5) : encodeText g = groupText g :=
  chunked_of_length_le 5 (by decide) _ hg hle

theorem base32Encode_append {g : List Byte} (hg : g.length = 5) (b : List Byte) :
    base32Encode (g ++ b) = encodeGroup g ++ base32Encode b :=
  chunked_append 5 (by decide) _ hg b

/-- Only the last group is padded, and only when it is not full. -/
theorem base32Encode_eq_text_pads (b : List Byte) :
    base32Encode b = encodeText b ++ List.replicate (encodePads b.length) padByte := by
  induction b using chunk_induction 5 (by decide) with
  | nil => rfl
  | last g hg hlt =>
    rw [base32Encode_eq, chunked_of_length_le 5 (by decide) _ hg hlt.le, encodeText_of_length_le hg hlt.le,
      encodePads_of_lt _ hlt (List.length_pos_iff.2 hg), encodeGroup_eq]
  | full g b hg ih =>
    rw [base32Encode_append hg, encodeText_append hg, encodeGroup_full hg, ih, List.length_append, hg,
      encodePads_five_add, List.append_assoc]

theorem encodeText_isDataSymbol (b : List Byte) : ∀ x ∈ encodeText b, IsDataSymbol x := by
  intro x hx
  obtain ⟨i, -, hx⟩ := List.mem_flatMap.1 hx
  exact (isDataSymbol_iff_isSome x).2 (groupText_valid _ x hx).1

theorem base32Encode_paddedText (b : List Byte) : PaddedText (base32Encode b) (encodeText b) :=
  ⟨encodeText_isDataSymbol b, _, encodePads_mem b.length, base32Encode_eq_text_pads b⟩

/-! ## The round trip (R89, R90) -/

/-- The number of zero bytes that decoding the encoding of `m` bytes adds to them. -/
def zeroFill : PartialChunk → Nat → Nat
  | .zeroFillFive, m => (5 - m % 5) % 5
  | .rfc4648Discard, _ => 0

@[simp] theorem zeroFill_five (p : PartialChunk) : zeroFill p 5 = 0 := by cases p <;> rfl

@[simp] theorem zeroFill_five_add (p : PartialChunk) (m : Nat) : zeroFill p (5 + m) = zeroFill p m := by
  cases p <;> simp [zeroFill]

theorem chunkBytes_groupText_fill (p : PartialChunk) {g : List Byte} (hg : g ≠ []) (hle : g.length ≤ 5) :
    chunkBytes p (groupText g) = g ++ List.replicate (zeroFill p g.length) 0 := by
  have hpos : 1 ≤ g.length := List.length_pos_iff.2 hg
  cases p with
  | zeroFillFive =>
    have hfill : zeroFill .zeroFillFive g.length = 5 - g.length := by
      rw [zeroFill]
      omega
    rw [chunkBytes_groupText g hpos hle, hfill]
  | rfc4648Discard => rw [chunkBytes_groupText_discard g hpos hle, zeroFill, List.replicate_zero, List.append_nil]

theorem groupSyms_pos : ∀ r, r ≤ 5 → 0 < r → 0 < groupSyms r := by decide

theorem groupText_ne_nil {g : List Byte} (hg : g ≠ []) (hle : g.length ≤ 5) : groupText g ≠ [] := by
  refine List.ne_nil_of_length_pos ?_
  rw [groupText_length]
  exact groupSyms_pos _ hle (List.length_pos_iff.2 hg)

/-- A full group comes back as it was; zeros follow the last one. -/
theorem decodeChunks_encodeText (p : PartialChunk) (b : List Byte) :
    decodeChunks p (encodeText b) = b ++ List.replicate (zeroFill p b.length) 0 := by
  induction b using chunk_induction 5 (by decide) with
  | nil => cases p <;> rfl
  | last g hg hlt =>
    have hsyms : (groupText g).length ≤ 8 := groupText_length g ▸ groupSyms_le g.length
    rw [encodeText_of_length_le hg hlt.le, decodeChunks_of_length_le p (groupText_ne_nil hg hlt.le) hsyms,
      chunkBytes_groupText_fill p hg hlt.le]
  | full g b hg ih =>
    have hne : g ≠ [] := List.ne_nil_of_length_pos (by omega)
    have hfull : chunkBytes p (groupText g) = g := by
      rw [chunkBytes_groupText_fill p hne hg.le, hg, zeroFill_five, List.replicate_zero, List.append_nil]
    rw [encodeText_append hg, decodeChunks_append p (groupText_length_full hg), hfull, ih, List.length_append, hg,
      zeroFill_five_add, List.append_assoc]

theorem base32Decode_base32Encode (p : PartialChunk) (b : List Byte) :
    base32Decode p (base32Encode b) = some (b ++ List.replicate (zeroFill p b.length) 0) := by
  rw [base32Decode_of_paddedText p (base32Encode_paddedText b), decodeChunks_encodeText]

/-- Settles O20: one round trip for both values of P_PARTIAL_CHUNK, and the cut of the last chunk under RFC4648_DISCARD. -/
theorem base32RoundTrip : Obligations.Base32RoundTrip := by
  refine ⟨fun b => ⟨base32Decode_base32Encode .zeroFillFive b, fun hdvd => ?_, ?_⟩, base32Decode_discard, rfl⟩
  · simp [base32Decode_base32Encode, zeroFill, hdvd]
  · simp [base32Decode_base32Encode, zeroFill]

/-! ## The lengths of decoded text (R88) -/

theorem decodeChunks_length (t : List Byte) : (decodeChunks .zeroFillFive t).length = 5 * ((t.length + 7) / 8) := by
  simp [decodeChunks, ceilDiv, List.length_flatMap, chunkBytes_length, Nat.mul_comm]

/-- Settles O19: the fill completes the last group to five bytes, and every chunk gives five. -/
theorem base32Lengths : Obligations.Base32Lengths := by
  refine ⟨fun b => ⟨_, base32Decode_base32Encode .zeroFillFive b, ?_⟩, fun s r hr => ?_⟩
  · rw [List.length_append, List.length_replicate, zeroFill]
    omega
  · obtain ⟨t, ht, rfl⟩ := exists_paddedText_of_base32Decode hr
    rw [ht.length_sub_count, decodeChunks_length]
    exact ⟨rfl, Nat.mul_mod_right 5 _⟩

end Sys2Proof.Machine
end

section
/-! SUPPORT. The TOTP engine: the bytes that dynamic truncation reads and the digits of a code (spec/42_totp_engine.md R100, R101). -/

namespace Sys2Proof.Machine

/-! ## Dynamic truncation (R100) -/

theorem toNat_and_low_nibble (b : Byte) : (b &&& 0x0F).toNat = b.toNat % 16 := by
  rw [BitVec.toNat_and]
  exact Nat.and_two_pow_sub_one_eq_mod b.toNat 4

theorem and_truncMask (n : Nat) : n &&& Config.truncMask = n % 2147483648 :=
  Nat.and_two_pow_sub_one_eq_mod n 31

theorem slice_four {α : Type} (s : List α) (i : Nat) (h : i + 3 < s.length) :
    slice s i (i + 4) = [s[i], s[i + 1], s[i + 2], s[i + 3]] := by
  rw [slice, List.drop_eq_getElem_cons (by omega), List.drop_eq_getElem_cons (by omega),
    List.drop_eq_getElem_cons (by omega), List.drop_eq_getElem_cons h, Nat.add_sub_cancel_left]
  rfl

theorem beUint_four (b0 b1 b2 b3 : Byte) :
    beUint [b0, b1, b2, b3] = b0.toNat * 16777216 + b1.toNat * 65536 + b2.toNat * 256 + b3.toNat := by
  simp only [beUint, List.foldl_cons, List.foldl_nil]
  omega

theorem truncateDigest_eq (d : List Byte) :
    truncateDigest d =
      beUint (slice d ((d.getD 19 0).toNat % 16) ((d.getD 19 0).toNat % 16 + 4)) % 2147483648 := by
  rw [truncateDigest, toNat_and_low_nibble, and_truncMask]

/-- Settles O24: the offset is at most 15, so the slice is four bytes of the digest below its last. -/
theorem truncationReadsFourBytes : Obligations.TruncationReadsFourBytes := by
  intro d hlen
  have hoff : (d.getD 19 0).toNat % 16 + 3 ≤ 18 := by omega
  rw [truncateDigest_eq, slice_four d _ (by omega), beUint_four]
  exact ⟨_, _, _, _, _, rfl, hoff, List.getElem?_eq_getElem _, List.getElem?_eq_getElem _, List.getElem?_eq_getElem _,
    List.getElem?_eq_getElem _, rfl⟩

/-! ## The digits of a code (R101) -/

@[simp] theorem renderCode_length (c : Nat) : (renderCode c).length = 6 := by
  rw [renderCode, List.length_map, List.length_range, Config.codeDigits]

/-- A digit's byte does not wrap. -/
theorem toNat_asciiDigit (n : Nat) : (BitVec.ofNat 8 (0x30 + n % 10)).toNat = 0x30 + n % 10 := by
  rw [BitVec.toNat_ofNat]
  omega

theorem renderCode_ascii {c : Nat} {b : Byte} (hb : b ∈ renderCode c) : 0x30 ≤ b.toNat ∧ b.toNat ≤ 0x39 := by
  obtain ⟨i, -, rfl⟩ := List.mem_map.1 hb
  rw [toNat_asciiDigit]
  omega

/-- Read back in base 10, the six digits are the number. -/
theorem renderCode_decimal {c : Nat} (hc : c < 1000000) :
    (renderCode c).foldl (fun n b => n * 10 + (b.toNat - 0x30)) 0 = c := by
  have hdigits : List.range Config.codeDigits = [0, 1, 2, 3, 4, 5] := rfl
  simp only [renderCode, hdigits, List.map_cons, List.map_nil, List.foldl_cons, List.foldl_nil, toNat_asciiDigit]
  omega

/-- Settles O25: of the HMAC's digest only its truncated value matters, and six digits hold it modulo 10^6. -/
theorem codeIsSixDecimalDigits : Obligations.CodeIsSixDecimalDigits :=
  fun _ _ _ => ⟨renderCode_length _, fun _ hb => renderCode_ascii hb, renderCode_decimal (Nat.mod_lt _ (by decide))⟩

end Sys2Proof.Machine
end

section
/-! SUPPORT. The interrupt output of spec/60_exceptions.md: the level of `irq` after a completion, an accept and the writes to STATUS and CTRL (R136, R137). -/

namespace Sys2Proof.Machine

theorem irq_eq_true_iff (s : State) : s.irq = true ↔ s.done = true ∧ s.irqEn = true := by
  rw [State.irq, Bool.and_eq_true]

/-- Every command's completion goes through `finish`, a failure's too (R133). -/
theorem finish_irq (s : State) (e : Err) (r : Bool) (n : Nat) : (s.finish e r n).irq = s.irqEn := by
  rw [State.irq, State.finish_done, State.finish_irqEn, Bool.true_and]

theorem writeReg_status_done {v : Word} (hbit : v.getLsbD 1 = true) (s : State) :
    (s.writeReg .status v).done = false := by
  by_cases hdone : s.done = true
  · rw [writeReg_status_clears hbit hdone, State.clearDone_done]
  · rw [writeReg_status_keeps fun h => hdone h.2, Bool.eq_false_of_not_eq_true hdone]

/-- The time step comes either from the operand or from a wall-clock sample; DONE is touched by neither. -/
theorem resolveStep_done (s : State) (tsel : Bool) : (s.resolveStep tsel).done = s.done := by
  cases tsel <;> rfl

theorem accept_done (s : State) (w : Word) : (s.accept w).done = false := by
  obtain hlatch | ⟨tsel, -, -, hresolve⟩ := accept_cases s w
  · rw [hlatch, State.latch_done]
  · rw [hresolve, resolveStep_done, State.latch_done]

theorem writeReg_cmd_of_idle {s : State} (hidle : s.phase = .idle) (w : Word) : s.writeReg .cmd w = s.accept w := by
  simp [State.writeReg, State.busy, hidle]

/-- CTRL is written in either phase, and only IRQ_EN changes (R27). -/
theorem writeReg_ctrl_irq (s : State) (v : Word) : (s.writeReg .ctrl v).irq = (s.done && v.getLsbD 0) := rfl

/-- Settles O55: `irq` is a function of DONE and IRQ_EN, so each clause says what the operation makes of these two. -/
theorem irqIsALevel : Obligations.IrqIsALevel := by
  intro s
  refine ⟨irq_eq_true_iff s, finish_irq s, fun v hbit => ?_, fun w hidle => ?_, writeReg_ctrl_irq s⟩
  · exact irq_eq_false_of_not_done (writeReg_status_done hbit s)
  · rw [writeReg_cmd_of_idle hidle]
    exact irq_eq_false_of_not_done (accept_done s w)

end Sys2Proof.Machine
end

section
/-! SUPPORT. How the body of each command ends: its answer case by case, the rule of the two loops, and what no body changes (spec/60_exceptions.md R127 to R134; the frames of R23 and R43). -/

namespace Sys2Proof.Machine

/-! ## One arm of `exec` a command -/

theorem exec_decode (b : Bool) (s : State) : exec (.decode b) s = execDecode s := rfl

theorem exec_encode (b : Bool) (s : State) : exec (.encode b) s = execEncode s := rfl

theorem exec_gensecret (b : Bool) (s : State) : exec (.gensecret b) s = execGensecret s := rfl

theorem exec_compute (b : Bool) (s : State) : exec (.compute b) s = execCompute s := rfl

theorem exec_verify (b : Bool) (s : State) : exec (.verify b) s = execVerify s := rfl

/-! ## The answers of the bodies -/

theorem overCap_eq_true_iff (s : State) : s.overCap = true ↔ s.params.inCap < s.inLen.toNat := by simp [State.overCap]

theorem overCap_eq_false_iff (s : State) : s.overCap = false ↔ s.inLen.toNat ≤ s.params.inCap := by simp [State.overCap]

theorem genLenOk_eq_true_iff (s : State) : s.genLenOk = true ↔ 16 ≤ s.genLen.toNat ∧ s.genLen.toNat ≤ 128 := by
  rw [State.genLenOk, Bool.and_eq_true, decide_eq_true_eq, decide_eq_true_eq]
  exact Iff.rfl

/-- Check 1 of R130: over capacity no other ground is looked at. -/
theorem exec_of_overCap {b : Bool} {i : Instr} {s : State}
    (hi : i = .decode b ∨ i = .encode b ∨ i = .compute b ∨ i = .verify b) (hc : s.overCap = true) :
    exec i s = .next (s.raise .capacity) := by
  rcases hi with rfl | rfl | rfl | rfl
  · simp [exec_decode, execDecode, hc]
  · simp [exec_encode, execEncode, hc]
  · simp [exec_compute, execCompute, hc]
  · simp [exec_verify, execVerify, hc]

theorem exec_of_malformed {b : Bool} {i : Instr} {s : State} (hi : i = .decode b ∨ i = .compute b)
    (hc : s.overCap = false) (hd : s.decodedText = none) : exec i s = .next (s.raise .decodeError) := by
  rcases hi with rfl | rfl
  · simp [exec_decode, execDecode, hc, hd]
  · simp [exec_compute, execCompute, hc, hd]

theorem execDecode_decoded {s : State} {r : List Byte} (hc : s.overCap = false) (hr : s.decodedText = some r) :
    execDecode s = .next ((s.writeOut r).finish .none false r.length) := by
  simp [execDecode, hc, hr]

theorem execEncode_encoded {s : State} (hc : s.overCap = false) :
    execEncode s = .next ((s.writeOut (base32Encode s.text)).finish .none false (base32Encode s.text).length) := by
  simp [execEncode, hc]

theorem execGensecret_badLength {s : State} (h : s.genLenOk = false) :
    execGensecret s = .next (s.raise .invalidLength) := by
  simp [execGensecret, h]

theorem execCompute_decoded {s : State} {k : List Byte} (hc : s.overCap = false) (hk : s.decodedText = some k) :
    execCompute s = .next (computeWithKey (s.setKey k)) := by
  simp [execCompute, hc, hk]

/-- A candidate that cannot match is a completion without error, whatever the secret (R105). -/
theorem execVerify_badLength {s : State} (hc : s.overCap = false) (h6 : s.candLen ≠ 6) :
    execVerify s = .next (s.finish .none false 0) := by
  rw [execVerify, if_neg (by simp [hc]), if_pos h6]

theorem execVerify_malformed {s : State} (hc : s.overCap = false) (h6 : s.candLen = 6) (hd : s.decodedText = none) :
    execVerify s = .next (s.finish .none false 0) := by
  simp [execVerify, hc, h6, hd]

/-- No body faults and none is refused. -/
theorem exec_total (i : Instr) (s : State) : ∃ t, exec i s = .next t := by
  cases i with
  | decode b =>
    rw [exec_decode, execDecode]
    split
    · exact ⟨_, rfl⟩
    · split <;> exact ⟨_, rfl⟩
  | encode b =>
    rw [exec_encode, execEncode]
    split <;> exact ⟨_, rfl⟩
  | gensecret b =>
    rw [exec_gensecret, execGensecret]
    split <;> exact ⟨_, rfl⟩
  | compute b =>
    rw [exec_compute, execCompute]
    split
    · exact ⟨_, rfl⟩
    · split <;> exact ⟨_, rfl⟩
  | verify b =>
    rw [exec_verify, execVerify]
    split
    · exact ⟨_, rfl⟩
    · split
      · exact ⟨_, rfl⟩
      · split <;> exact ⟨_, rfl⟩

/-! ## The bodies read backwards

A completion without a result is `raise`, with the error NONE for VERIFY's two early non-matches. -/

theorem execDecode_cases {s t : State} (h : execDecode s = .next t) :
    (∃ r, s.overCap = false ∧ s.decodedText = some r ∧ t = (s.writeOut r).finish .none false r.length) ∨
      ∃ e, t = s.raise e := by
  unfold execDecode at h
  split at h
  · exact .inr ⟨_, (Host.Outcome.next.inj h).symm⟩
  · next hc =>
    split at h
    · exact .inr ⟨_, (Host.Outcome.next.inj h).symm⟩
    · next r hr => exact .inl ⟨r, Bool.eq_false_of_not_eq_true hc, hr, (Host.Outcome.next.inj h).symm⟩

theorem execEncode_cases {s t : State} (h : execEncode s = .next t) :
    (s.overCap = false ∧ t = (s.writeOut (base32Encode s.text)).finish .none false (base32Encode s.text).length) ∨
      ∃ e, t = s.raise e := by
  unfold execEncode at h
  split at h
  · exact .inr ⟨_, (Host.Outcome.next.inj h).symm⟩
  · next hc => exact .inl ⟨Bool.eq_false_of_not_eq_true hc, (Host.Outcome.next.inj h).symm⟩

theorem execGensecret_cases {s t : State} (h : execGensecret s = .next t) :
    (s.genLenOk = true ∧ t = genLoop (s.genLen.toNat - s.genStart) s.startGen) ∨
      (s.genLenOk = false ∧ ∃ e, t = s.raise e) := by
  unfold execGensecret at h
  split at h
  · next hok => exact .inl ⟨hok, (Host.Outcome.next.inj h).symm⟩
  · next hok => exact .inr ⟨Bool.eq_false_of_not_eq_true hok, _, (Host.Outcome.next.inj h).symm⟩

theorem execCompute_cases {s t : State} (h : execCompute s = .next t) :
    (∃ k, s.overCap = false ∧ s.decodedText = some k ∧ t = computeWithKey (s.setKey k)) ∨
      ((s.overCap = true ∨ s.decodedText = none) ∧ ∃ e, t = s.raise e) := by
  unfold execCompute at h
  split at h
  · next hc => exact .inr ⟨.inl hc, _, (Host.Outcome.next.inj h).symm⟩
  · next hc =>
    split at h
    · next hd => exact .inr ⟨.inr hd, _, (Host.Outcome.next.inj h).symm⟩
    · next k hk => exact .inl ⟨k, Bool.eq_false_of_not_eq_true hc, hk, (Host.Outcome.next.inj h).symm⟩

theorem execVerify_cases {s t : State} (h : execVerify s = .next t) :
    (∃ k, s.overCap = false ∧ s.candLen = 6 ∧ s.decodedText = some k ∧
        t = verifyLoop (s.windowSize - s.winStart) (s.startWindow k)) ∨
      ((s.overCap = true ∨ s.candLen ≠ 6 ∨ s.decodedText = none) ∧ ∃ e, t = s.raise e) := by
  unfold execVerify at h
  split at h
  · next hc => exact .inr ⟨.inl hc, _, (Host.Outcome.next.inj h).symm⟩
  · next hc =>
    split at h
    · next h6 => exact .inr ⟨.inr (.inl h6), .none, (Host.Outcome.next.inj h).symm⟩
    · next h6 =>
      split at h
      · next hd => exact .inr ⟨.inr (.inr hd), .none, (Host.Outcome.next.inj h).symm⟩
      · next k hk =>
        exact .inl ⟨k, Bool.eq_false_of_not_eq_true hc, not_not.1 h6, hk, (Host.Outcome.next.inj h).symm⟩

/-! ## One request at a time (R111, R118) -/

theorem sendHmac_of_free {s : State} (h : s.hmacReq = none) (t : TimeStep) :
    s.sendHmac t = { s with hmacReq := some ⟨s.key, t⟩, hmacSent := ⟨s.key, t⟩ :: s.hmacSent } := by
  simp [State.sendHmac, h]

theorem sendHmac_of_inFlight {s : State} (h : s.hmacReq ≠ none) (t : TimeStep) : s.sendHmac t = s := by
  rw [State.sendHmac, if_pos (Option.isSome_iff_ne_none.2 h)]

theorem sendRng_of_free {s : State} (h : s.rngReq = false) : s.sendRng = { s with rngReq := true, rngSent := s.rngSent + 1 } := by
  simp [State.sendRng, h]

theorem sendRng_of_inFlight {s : State} (h : s.rngReq = true) : s.sendRng = s := by simp [State.sendRng, h]

theorem sendHmac_hmacReq_ne_none (s : State) (t : TimeStep) : (s.sendHmac t).hmacReq ≠ none := by
  obtain ⟨hreq, h⟩ | ⟨-, h⟩ := sendHmac_cases s t <;> rw [h]
  · exact hreq
  · simp

/-! ## The rules of the loops

`P n u` is kept by each turn that goes on, `n` the number of turns left; the loop ends in one of three ways from a state
where it holds. -/

theorem verifyLoop_rule {P : Nat → State → Prop}
    (hpass : ∀ n u, P (n + 1) u → P n u.windowAnswered.nextOffset) {n : Nat} {s : State} (h : P n s) :
    (∃ u, P 0 u ∧ verifyLoop n s = u.finish .none false 0) ∨
      (∃ m u, P (m + 1) u ∧ u.hmacLeft = some 0 ∧ verifyLoop n s = u.sendHmac (windowStep u.tBase u.disc u.winI)) ∨
      ∃ m u, P (m + 1) u ∧ verifyLoop n s = u.windowAnswered.finish .none true 0 := by
  induction n generalizing s with
  | zero => exact .inl ⟨s, h, rfl⟩
  | succ n ih =>
    rw [verifyLoop_succ]
    split
    · next hsilent => exact .inr (.inl ⟨n, s, h, hsilent, rfl⟩)
    · split
      · exact .inr (.inr ⟨n, s, h, rfl⟩)
      · exact ih (hpass n s h)

theorem genLoop_rule {P : Nat → State → Prop}
    (hpass : ∀ n u b, P (n + 1) u → P n (u.sendRng.rngAnswered.putSymbol b)) {n : Nat} {s : State} (h : P n s) :
    (∃ u, P 0 u ∧ genLoop n s = u.finish .none false u.genI) ∨
      (∃ m u, P (m + 1) u ∧ u.rngLeft = some 0 ∧ genLoop n s = u.sendRng) ∨
      ∃ m u, P (m + 1) u ∧ genLoop n s = u.sendRng.rngAnswered.raise .noSecureRandom := by
  induction n generalizing s with
  | zero => exact .inl ⟨s, h, rfl⟩
  | succ n ih =>
    rw [genLoop_succ]
    split
    · next hsilent => exact .inr (.inl ⟨n, s, h, hsilent, rfl⟩)
    · cases s.rngNext with
      | unavailable => exact .inr (.inr ⟨n, s, h, rfl⟩)
      | byte b => exact ih (hpass n s b h)

/-! ## The frame of every body (R23, R43, R133) -/

/-- The command completed, or it is still what it was; the operands are as before either way. -/
def EndsOrWaits (s t : State) : Prop :=
  SameOperands s t ∧ ((∃ u e r n, t = State.finish u e r n) ∨ (SameRunning s t ∧ t.phase = s.phase))

theorem EndsOrWaits.of_finish {s u : State} (h : SameOperands s u) (e : Err) (r : Bool) (n : Nat) :
    EndsOrWaits s (u.finish e r n) :=
  ⟨h.trans (finish_sameOperands u e r n), .inl ⟨u, e, r, n, rfl⟩⟩

theorem EndsOrWaits.of_running {s t : State} (h : SameRunning s t) (hphase : t.phase = s.phase) : EndsOrWaits s t :=
  ⟨h.toSameOperands, .inr ⟨h, hphase⟩⟩

/-- A body may begin by setting hidden registers of its own. -/
theorem EndsOrWaits.after {s u t : State} (h : SameRunning s u) (hphase : u.phase = s.phase) (k : EndsOrWaits u t) :
    EndsOrWaits s t :=
  ⟨h.toSameOperands.trans k.1, k.2.imp_right fun ⟨hr, hp⟩ => ⟨h.trans hr, hp.trans hphase⟩⟩

theorem writeOut_sameOperands (s : State) (r : List Byte) : SameOperands s (s.writeOut r) := by constructor <;> rfl

theorem setKey_sameRunning (s : State) (k : List Byte) : SameRunning s (s.setKey k) :=
  ⟨by constructor <;> rfl, rfl, rfl⟩

theorem computeWithKey_endsOrWaits (s : State) : EndsOrWaits s (computeWithKey s) := by
  have hsend := sendHmac_sameRunning s s.tBase
  rcases computeWithKey_cases s with ⟨-, h⟩ | ⟨-, h⟩ <;> rw [h]
  · exact .of_running hsend (State.sendHmac_phase s _)
  · exact .of_finish ((hsend.trans (hmacAnswered_sameRunning _)).toSameOperands.trans (writeOut_sameOperands _ _)) ..

theorem verifyLoop_endsOrWaits (n : Nat) (s : State) : EndsOrWaits s (verifyLoop n s) := by
  obtain ⟨hops, -, -, ⟨u, r, h⟩ | ⟨hrun, -, hphase, -⟩⟩ := verifyLoop_frame n s
  · exact ⟨hops, .inl ⟨u, .none, r, 0, h⟩⟩
  · exact .of_running hrun hphase

theorem genLoop_endsOrWaits (n : Nat) (s : State) : EndsOrWaits s (genLoop n s) := by
  obtain ⟨hops, -, ⟨u, e, k, h⟩ | ⟨hrun, -, hphase, -⟩⟩ := genLoop_frame n s
  · exact ⟨hops, .inl ⟨u, e, false, k, h⟩⟩
  · exact .of_running hrun hphase

theorem raise_endsOrWaits (s : State) (e : Err) : EndsOrWaits s (s.raise e) := .of_finish (.refl s) e false 0

theorem exec_endsOrWaits {i : Instr} {s t : State} (h : exec i s = .next t) : EndsOrWaits s t := by
  cases i with
  | decode b =>
    obtain ⟨r, -, -, rfl⟩ | ⟨e, rfl⟩ := execDecode_cases h
    · exact .of_finish (writeOut_sameOperands s r) ..
    · exact raise_endsOrWaits s e
  | encode b =>
    obtain ⟨-, rfl⟩ | ⟨e, rfl⟩ := execEncode_cases h
    · exact .of_finish (writeOut_sameOperands s _) ..
    · exact raise_endsOrWaits s e
  | gensecret b =>
    obtain ⟨-, rfl⟩ | ⟨-, e, rfl⟩ := execGensecret_cases h
    · exact (genLoop_endsOrWaits _ _).after (startGen_sameRunning s) rfl
    · exact raise_endsOrWaits s e
  | compute b =>
    obtain ⟨k, -, -, rfl⟩ | ⟨-, e, rfl⟩ := execCompute_cases h
    · exact (computeWithKey_endsOrWaits _).after (setKey_sameRunning s k) rfl
    · exact raise_endsOrWaits s e
  | verify b =>
    obtain ⟨k, -, -, -, rfl⟩ | ⟨-, e, rfl⟩ := execVerify_cases h
    · exact (verifyLoop_endsOrWaits _ _).after (startWindow_sameRunning s k) rfl
    · exact raise_endsOrWaits s e

theorem exec_sameOperands {i : Instr} {s t : State} (h : exec i s = .next t) : SameOperands s t := by
  obtain ⟨hops, -⟩ := exec_endsOrWaits h
  exact hops

/-- Settles O9: every body ends in `finish`, which forgets the command, or waits with it as it was. -/
theorem commandsKeepOperands : Obligations.CommandsKeepOperands := by
  refine ⟨fun i s t h => ?_, fun s => ⟨finish_sameOperands .., finish_forgotten ..⟩⟩
  obtain ⟨hops, ⟨u, e, r, n, rfl⟩ | ⟨hrun, hphase⟩⟩ := exec_endsOrWaits h
  · exact ⟨hops, fun _ => .inr ⟨rfl, finish_forgotten ..⟩⟩
  · exact ⟨hops, fun hbusy => .inl ⟨hphase.trans hbusy, hrun⟩⟩

/-! ## The frames of OUT_BUF and the ports -/

theorem writeOut_frame (s : State) {r : List Byte} {a : Nat} (ha : r.length ≤ a) :
    memGet (s.writeOut r).outBuf a = memGet s.outBuf a := by
  obtain ⟨-, houtside⟩ := writeOut_written s r
  exact houtside a ha

/-- Settles O11: the loop's own frame, from the byte it starts at. -/
theorem gensecretFrame : Obligations.GensecretFrame := by
  intro b s t h
  obtain ⟨-, rfl⟩ | ⟨-, e, rfl⟩ := execGensecret_cases h
  · have hbuf (a : Nat) := genLoop_outBuf (s.genLen.toNat - s.genStart) s.startGen a
    obtain ⟨-, hhmac, hend⟩ := genLoop_frame (s.genLen.toNat - s.genStart) s.startGen
    refine ⟨(startGen_sameHmac s).trans hhmac, fun hbusy => ?_, fun a ha => hbuf a ?_⟩
    · obtain ⟨u, e, k, hfin⟩ | ⟨-, hkey, -, hwin⟩ := hend
      · rw [hfin] at hbusy; cases hbusy
      · exact ⟨hkey, hwin⟩
    · rw [State.startGen_genI]; omega
  · exact ⟨finish_sameHmac .., by simp, fun a _ => rfl⟩

theorem setKey_sameRng (s : State) (k : List Byte) : SameRng s (s.setKey k) := by constructor <;> rfl

theorem writeOut_sameRng (s : State) (r : List Byte) : SameRng s (s.writeOut r) := by constructor <;> rfl

theorem startWindow_sameRng (s : State) (k : List Byte) : SameRng s (s.startWindow k) := by constructor <;> rfl

theorem totpCode_length (p : HmacPart) (k : List Byte) (t : TimeStep) : (totpCode p k t).length = 6 := renderCode_length _

theorem computeWithKey_frame (s : State) :
    SameRng s (computeWithKey s) ∧
      ((computeWithKey s).phase = .busy → (computeWithKey s).winI = s.winI ∧ (computeWithKey s).genI = s.genI) ∧
      ∀ a, 6 ≤ a → memGet (computeWithKey s).outBuf a = memGet s.outBuf a := by
  have hsend := sendHmac_sameRng s s.tBase
  rcases computeWithKey_cases s with ⟨-, h⟩ | ⟨-, h⟩ <;> rw [h]
  · exact ⟨hsend, by simp, by simp⟩
  · refine ⟨(hsend.trans (hmacAnswered_sameRng _)).trans ((writeOut_sameRng ..).trans (finish_sameRng ..)), by simp,
      fun a ha => ?_⟩
    rw [State.finish_outBuf, writeOut_frame _ (by rwa [totpCode_length])]
    simp

/-- VERIFY's window leaves OUT_LEN 0, or waits with a request in flight. -/
theorem verifyLoop_outLen (n : Nat) (s : State) :
    (verifyLoop n s).outLen = 0 ∨ ((verifyLoop n s).hmacReq ≠ none ∧ (verifyLoop n s).outLen = s.outLen) := by
  obtain ⟨u, -, h⟩ | ⟨m, u, hlen, -, h⟩ | ⟨m, u, -, h⟩ :=
    verifyLoop_rule (P := fun _ u => u.outLen = s.outLen) (by simp [State.windowAnswered]) (n := n) (s := s) rfl
      <;> rw [h]
  · exact .inl rfl
  · exact .inr ⟨sendHmac_hmacReq_ne_none u _, by simp [hlen]⟩
  · exact .inl rfl

/-- Settles O12: COMPUTE stores its six bytes at the end alone; of the window only the ports and WIN_I move. -/
theorem computeAndVerifyFrame : Obligations.ComputeAndVerifyFrame := by
  constructor
  · intro b s t h
    obtain ⟨k, -, -, rfl⟩ | ⟨-, e, rfl⟩ := execCompute_cases h
    · obtain ⟨hrng, hwait, hbuf⟩ := computeWithKey_frame (s.setKey k)
      exact ⟨(setKey_sameRng s k).trans hrng, hwait, hbuf⟩
    · exact ⟨finish_sameRng .., by simp, fun a _ => rfl⟩
  · intro b s t h
    obtain ⟨k, -, -, -, rfl⟩ | ⟨-, e, rfl⟩ := execVerify_cases h
    · obtain ⟨-, hrng, hbuf, hend⟩ := verifyLoop_frame (s.windowSize - s.winStart) (s.startWindow k)
      refine ⟨(startWindow_sameRng s k).trans hrng, fun hbusy => ?_, fun a => by rw [hbuf, State.startWindow_outBuf],
        verifyLoop_outLen _ _⟩
      obtain ⟨u, r, hfin⟩ | ⟨-, -, -, hgen⟩ := hend
      · rw [hfin] at hbusy; cases hbusy
      · exact hgen
    · exact ⟨finish_sameRng .., by simp, fun a => rfl, .inl rfl⟩

/-! ## Completions without a result -/

/-- Settles O14: both bodies raise before they write or ask. -/
theorem malformedTextRaisesDecodeError : Obligations.MalformedTextRaisesDecodeError := by
  intro b i s hi hcap hd
  have hexec := exec_of_malformed hi ((overCap_eq_false_iff s).2 hcap) hd
  exact ⟨_, hexec, raise_completed s _, finish_sameHmac .., finish_sameRng .., rfl, rfl⟩

/-- Settles O16: capacity is the first check of all four bodies. -/
theorem overCapacityCompletes : Obligations.OverCapacityCompletes := by
  intro b i s hi hcap
  have hexec := exec_of_overCap hi ((overCap_eq_true_iff s).2 hcap)
  exact ⟨_, hexec, raise_completed s _, finish_sameHmac .., finish_sameRng .., rfl⟩

/-- Settles O21: the length is checked before the loop. -/
theorem gensecretRejectsLength : Obligations.GensecretRejectsLength := by
  intro b s hlen
  have hbad : s.genLenOk = false := by
    rw [← Bool.not_eq_true, genLenOk_eq_true_iff]
    omega
  exact ⟨_, execGensecret_badLength hbad, raise_completed s _, finish_sameRng .., rfl⟩

/-- Settles O30: the candidate's length is checked before the secret. -/
theorem verifyRejectsLength : Obligations.VerifyRejectsLength := by
  intro b s hcap h6
  have hexec := execVerify_badLength ((overCap_eq_false_iff s).2 hcap) h6
  exact ⟨_, hexec, finish_completed s _ _ (by decide), finish_sameHmac .., rfl⟩

/-- Settles O31: a secret without a key never opens the window. -/
theorem verifyDecodeFailureIsNonMatch : Obligations.VerifyDecodeFailureIsNonMatch := by
  intro b s hcap h6 hd
  have hexec := execVerify_malformed ((overCap_eq_false_iff s).2 hcap) h6 hd
  exact ⟨_, hexec, finish_completed s _ _ (by decide), finish_sameHmac ..⟩

end Sys2Proof.Machine
end

section
/-! SUPPORT. What DECODE and ENCODE write, and the bit layout of a chunk and of a group (spec/40_base32.md R82 to R87). -/

namespace Sys2Proof.Machine

/-! ## The lengths of both results fit OUT_LEN -/

@[simp] theorem text_length (s : State) : s.text.length = s.inLen.toNat := by simp [State.text]

theorem decodeChunks_length_le (p : PartialChunk) (t : List Byte) :
    (decodeChunks p t).length ≤ 5 * ((t.length + 7) / 8) := by
  cases p with
  | zeroFillFive => exact (decodeChunks_length t).le
  | rfc4648Discard =>
    rw [decodeChunks_discard, List.length_take, decodeChunks_length]
    exact Nat.min_le_right _ _

theorem PaddedText.length_le {s t : List Byte} (h : PaddedText s t) : t.length ≤ s.length := by
  obtain ⟨-, n, -, rfl⟩ := h
  simp

/-- R88 as a bound, for both values of P_PARTIAL_CHUNK. -/
theorem base32Decode_length_le {p : PartialChunk} {s r : List Byte} (h : base32Decode p s = some r) :
    r.length ≤ 5 * ((s.length + 7) / 8) := by
  obtain ⟨t, ht, rfl⟩ := exists_paddedText_of_base32Decode h
  have hle := ht.length_le
  have hlen := decodeChunks_length_le p t
  omega

theorem decodedText_length_le {s : State} {r : List Byte} (h : s.decodedText = some r) :
    r.length ≤ 5 * ((s.inLen.toNat + 7) / 8) := by
  have hlen := base32Decode_length_le h
  rwa [text_length] at hlen

theorem decodedText_length_lt {s : State} {r : List Byte} (h : s.decodedText = some r) : r.length < 2 ^ 32 := by
  have hlen := decodedText_length_le h
  have hin := s.inLen.isLt
  omega

theorem base32Encode_length (b : List Byte) : (base32Encode b).length = 8 * ((b.length + 4) / 5) := by
  simp [base32Encode, ceilDiv, List.length_flatMap, encodeGroup_length, Nat.mul_comm]

theorem encoded_length {s : State} : (base32Encode s.text).length = 8 * ((s.inLen.toNat + 4) / 5) := by
  rw [base32Encode_length, text_length]

theorem encoded_length_lt {s : State} (hwf : s.params.wellFormed = true) (hc : s.overCap = false) :
    (base32Encode s.text).length < 2 ^ 32 := by
  have hin := Params.inCap_le_of_wellFormed hwf
  have hlen := (overCap_eq_false_iff s).1 hc
  rw [encoded_length]
  omega

/-! ## The frame of both commands -/

/-- A result that OUT_LEN can hold, written and completed. -/
theorem writeOut_finish_frame (s : State) {r : List Byte} (hr : r.length < 2 ^ 32) :
    SameHmac s ((s.writeOut r).finish .none false r.length) ∧ SameRng s ((s.writeOut r).finish .none false r.length) ∧
      ∀ a, ((s.writeOut r).finish .none false r.length).outLen.toNat ≤ a →
        memGet ((s.writeOut r).finish .none false r.length).outBuf a = memGet s.outBuf a := by
  refine ⟨by constructor <;> rfl, by constructor <;> rfl, fun a ha => ?_⟩
  rw [(finish_completed (s.writeOut r) .none false hr).outLen] at ha
  exact writeOut_frame s ha

/-- Settles O10: both bodies write their whole result at the end, or raise. -/
theorem codecFrame : Obligations.CodecFrame := by
  intro b i s t hi hwf h
  have hresult : (∃ r : List Byte, r.length < 2 ^ 32 ∧ t = (s.writeOut r).finish .none false r.length) ∨
      ∃ e, t = s.raise e := by
    rcases hi with rfl | rfl
    · exact (execDecode_cases h).imp_left fun ⟨r, _, hr, ht⟩ => ⟨r, decodedText_length_lt hr, ht⟩
    · exact (execEncode_cases h).imp_left fun ⟨hc, ht⟩ => ⟨_, encoded_length_lt hwf hc, ht⟩
  obtain ⟨r, hr, rfl⟩ | ⟨e, rfl⟩ := hresult
  · obtain ⟨hhmac, hrng, hbuf⟩ := writeOut_finish_frame s hr
    exact ⟨rfl, hhmac, hrng, fun he => absurd rfl he, hbuf⟩
  · exact ⟨rfl, finish_sameHmac .., finish_sameRng .., fun _ a => rfl, fun a _ => rfl⟩

/-! ## DECODE (R82, R83, R85) -/

/-- Text of data symbols alone has no pads to strip. -/
theorem paddedText_self {t : List Byte} (h : ∀ b ∈ t, IsDataSymbol b) : PaddedText t t :=
  ⟨h, 0, by decide, by simp⟩

theorem isDataSymbol_symbol {v : Nat} (h : v < 32) : IsDataSymbol (symbol v) := by
  rw [isDataSymbol_iff_isSome, symValue_symbol v h]
  rfl

/-- One chunk of data symbols, as text of its own. -/
theorem base32Decode_chunk {c : List Byte} (hc : ∀ b ∈ c, IsDataSymbol b) (hne : c ≠ []) (hle : c.length ≤ 8) :
    base32Decode .zeroFillFive c = some (chunkBytes .zeroFillFive c) := by
  rw [base32Decode_of_paddedText _ (paddedText_self hc), decodeChunks_of_length_le _ hne hle]

/-- The five bytes of a chunk and its eight symbols are one 40-bit number (R82). -/
theorem chunkBytes_digits (c : List Byte) :
    digitsValue 256 5 (fun i => ((chunkBytes .zeroFillFive c).getD i 0).toNat) = digitsValue 32 8 (chunkSym c) := by
  have hlen : (chunkBytes .zeroFillFive c).length = 5 := chunkBytes_length .zeroFillFive c
  have hbytes : beUint (chunkBytes .zeroFillFive c) = (chunkAcc c).toNat := beUint_beBytes 5 _ (chunkAcc c).isLt
  rw [digitsValue_bytes _ hlen.le, hlen, Nat.sub_self, List.replicate_zero, List.append_nil, hbytes, chunkAcc_toNat,
    digitsValue_symbols]

theorem chunkSym_symbols {k : Nat} {v : Nat → Nat} (hv : ∀ j, j < k → v j < 32) (j : Nat) :
    chunkSym ((List.range k).map fun j => symbol (v j)) j = if j < k then v j else 0 := by
  unfold chunkSym
  split_ifs with hj
  · simp [hj, symValue_symbol _ (hv j hj)]
  · simp [hj]

/-- Data symbols in front of padded text lengthen the text and leave its pads. -/
theorem paddedText_append_iff {c : List Byte} (hc : ∀ b ∈ c, IsDataSymbol b) (t x : List Byte) :
    PaddedText (c ++ t) x ↔ ∃ y, x = c ++ y ∧ PaddedText t y := by
  constructor
  · rintro ⟨hx, n, hn, he⟩
    obtain ⟨y, rfl, rfl⟩ | ⟨p, rfl, hp⟩ := List.append_eq_append_iff.1 he
    · exact ⟨y, rfl, fun b hb => hx b (List.mem_append_right c hb), n, hn, rfl⟩
    · have hp0 : p = [] := List.eq_nil_iff_forall_not_mem.2 fun b hb => by
        have hpad : b = padByte := List.eq_of_mem_replicate (hp ▸ List.mem_append_left t hb)
        exact (symValue_eq_none_iff padByte).1 symValue_pad (hpad ▸ hc b (List.mem_append_right x hb))
      subst hp0
      exact ⟨[], by simp, by simp, n, hn, by simpa using hp.symm⟩
  · rintro ⟨y, rfl, hy, n, hn, rfl⟩
    exact ⟨by simpa [or_imp, forall_and] using ⟨hc, hy⟩, n, hn, by simp⟩

theorem base32Decode_chunk_append {c : List Byte} (hc : ∀ b ∈ c, IsDataSymbol b) (h8 : c.length = 8) (t : List Byte) :
    base32Decode .zeroFillFive (c ++ t) = (base32Decode .zeroFillFive t).map (chunkBytes .zeroFillFive c ++ ·) := by
  refine Option.ext fun q => ?_
  simp only [Option.map_eq_some_iff, base32Decode_eq_some_iff, paddedText_append_iff hc]
  constructor
  · rintro ⟨x, ⟨y, rfl, hy⟩, rfl⟩
    exact ⟨_, ⟨y, hy, rfl⟩, (decodeChunks_append _ h8 y).symm⟩
  · rintro ⟨_, ⟨y, hy, rfl⟩, rfl⟩
    exact ⟨_, ⟨y, rfl, hy⟩, (decodeChunks_append _ h8 y).symm⟩

/-- Settles O13: the accumulator of a chunk ties its bytes to its symbols, and a full chunk stands apart from what
follows. -/
theorem decodeWritesDecodedBytes : Obligations.DecodeWritesDecodedBytes := by
  refine ⟨fun b s r hcap hr => ?_, fun k v h1 h8 hv => ?_, fun c t r h8 hc hr => ?_⟩
  · refine ⟨_, execDecode_decoded ((overCap_eq_false_iff s).2 hcap) hr, finish_completed _ _ _ ?_, writeOut_written s r⟩
    exact decodedText_length_lt (s := s) hr
  · have hne : (List.range k).map (fun j => symbol (v j)) ≠ [] := List.ne_nil_of_length_pos (by simp; omega)
    have hdata : ∀ b ∈ (List.range k).map (fun j => symbol (v j)), IsDataSymbol b := by
      intro b hb
      obtain ⟨j, hj, rfl⟩ := List.mem_map.1 hb
      exact isDataSymbol_symbol (hv j (List.mem_range.1 hj))
    refine ⟨_, base32Decode_chunk hdata hne (by simpa using h8), chunkBytes_length .zeroFillFive _, ?_⟩
    rw [chunkBytes_digits]
    simp only [funext (chunkSym_symbols hv)]
  · rw [base32Decode_chunk hc (List.ne_nil_of_length_pos (by omega)) h8.le, Option.some.injEq] at hr
    rw [base32Decode_chunk_append hc h8, hr]

/-! ## ENCODE (R86, R87) -/

theorem groupSyms_eq : ∀ r, r ≤ 5 → groupSyms r = (8 * r + 4) / 5 := by decide

theorem base32Encode_group {g : List Byte} (hne : g ≠ []) (hle : g.length ≤ 5) : base32Encode g = encodeGroup g := by
  rw [base32Encode_eq, chunked_of_length_le 5 (by decide) _ hne hle]

/-- The symbols of a group and its bytes, zero-filled, are one 40-bit number (R86). -/
theorem groupSym_digits {g : List Byte} (h1 : 1 ≤ g.length) (h5 : g.length ≤ 5) :
    digitsValue 32 8 (fun j => if j < groupSyms g.length then groupSym g j else 0) =
      digitsValue 256 5 (fun i => (g.getD i 0).toNat) := by
  have hsyms : (fun j => if j < groupSyms g.length then groupSym g j else 0) = chunkSym (groupText g) :=
    funext fun j => (chunkSym_groupText g j).symm
  rw [hsyms, digitsValue_symbols, ← chunkAcc_toNat, chunkAcc_groupText g h1 h5, digitsValue_bytes g h5, groupAcc]

/-- Settles O15: a group's symbols are the base-32 digits of its number, and a full group stands apart from what
follows. -/
theorem encodeWritesEncoding : Obligations.EncodeWritesEncoding := by
  refine ⟨fun b s hwf hcap => ?_, fun g h1 h5 => ⟨groupSym g, groupSym_lt g, ?_, ?_⟩, fun g c hg => ?_⟩
  · have hc := (overCap_eq_false_iff s).2 hcap
    refine ⟨_, execEncode_encoded hc, ?_, writeOut_written s _⟩
    rw [← encoded_length]
    exact finish_completed _ _ _ (encoded_length_lt hwf hc)
  · rw [base32Encode_group (List.ne_nil_of_length_pos h1) h5, encodeGroup_eq, groupText, groupSyms_eq _ h5]
    rfl
  · rw [← groupSyms_eq _ h5, groupSym_digits h1 h5]
  · rw [base32Encode_append hg, base32Encode_group (List.ne_nil_of_length_pos (by omega)) hg.le]

end Sys2Proof.Machine
end

section
/-! SUPPORT. Accept, the core's turn and reset: what each makes of the whole state (spec/60_exceptions.md R124 to R133, spec/42_totp_engine.md R95, spec/70_reset_and_hazards.md R147, R148). -/

namespace Sys2Proof.Machine

/-- Settles O3: each word's fields are evaluated. -/
theorem specWordsDecode : Obligations.SpecWordsDecode := by
  unfold Obligations.SpecWordsDecode
  decide

/-! ## STATUS (R25, R124) -/

/-- Settles O8: STATUS is made of PHASE, DONE, RESULT and ERR, which have finitely many values. -/
theorem statusWordLayout : Obligations.StatusWordLayout := by
  intro s
  unfold State.statusWord State.busy
  cases s.phase <;> cases s.done <;> cases s.result <;> cases s.err <;> rfl

/-! ## Accept (R132) -/

/-- Accept is `latch`, but for the fields of the time step. -/
theorem accept_eq_latch_with (s : State) (w : Word) :
    ∃ t lo hi feed draws, s.accept w =
      { s.latch w with tBase := t, stepUsedLo := lo, stepUsedHi := hi, clockFeed := feed, clockDraws := draws } := by
  obtain h | ⟨tsel, -, -, h⟩ := accept_cases s w
  · exact ⟨_, _, _, _, _, h⟩
  · cases tsel <;> exact ⟨_, _, _, _, _, h⟩

@[simp] theorem accept_phase (s : State) (w : Word) : (s.accept w).phase = .busy := by
  obtain ⟨t, lo, hi, feed, draws, h⟩ := accept_eq_latch_with s w
  rw [h]; rfl

@[simp] theorem accept_latchedCmd (s : State) (w : Word) : (s.accept w).latchedCmd = w := by
  obtain ⟨t, lo, hi, feed, draws, h⟩ := accept_eq_latch_with s w
  rw [h]; rfl

@[simp] theorem accept_rst (s : State) (w : Word) : (s.accept w).rst = s.rst := by
  obtain ⟨t, lo, hi, feed, draws, h⟩ := accept_eq_latch_with s w
  rw [h]; rfl

@[simp] theorem accept_events (s : State) (w : Word) : (s.accept w).events = s.events := by
  obtain ⟨t, lo, hi, feed, draws, h⟩ := accept_eq_latch_with s w
  rw [h]; rfl

/-- No OUT_BUF byte is defined while BUSY (R39). -/
theorem outDefined_of_busy {s : State} (h : s.phase = .busy) (i : Nat) : s.outDefined i = false := by
  simp [State.outDefined, State.busy, h]

/-- Accept puts every field that is not an operand, STEP_USED or the outside's at a value of its own (R18). -/
theorem latch_congr {s u : State} (hops : SameOperands s u) (hhmac : u.hmacLeft = s.hmacLeft)
    (hrng : u.rngLeft = s.rngLeft) (hfeed : u.rngFeed = s.rngFeed) (hdraws : u.rngDraws = s.rngDraws) (w : Word) :
    u.latch w = s.latch w := by
  obtain ⟨h1, h2, h3, h4, h5, h6, h7, h8, h9, h10, h11, h12, h13, h14, h15, h16, h17, h18, h19, h20, h21⟩ := hops
  simp only [State.latch, State.forget, h1, h2, h3, h4, h5, h6, h7, h8, h9, h10, h11, h12, h13, h14, h15, h16, h17,
    h18, h19, h20, h21, hhmac, hrng, hfeed, hdraws]

theorem accept_congr {s u : State} (hlatch : ∀ w, u.latch w = s.latch w) (hcap : u.overCap = s.overCap) (w : Word) :
    u.accept w = s.accept w := by
  rw [State.accept, State.accept, hlatch w, hcap]

/-- Settles O5: accept is `latch` but for the time step, and `latch` depends on the operands and the outside alone. -/
theorem acceptLatchesAndClears : Obligations.AcceptLatchesAndClears := by
  intro s w hidle
  rw [writeReg_cmd_of_idle hidle]
  refine ⟨?_, fun u hu hops hhmac hrng hfeed hdraws => ?_⟩
  · have hdefined := outDefined_of_busy (accept_phase s w)
    obtain ⟨t, lo, hi, feed, draws, h⟩ := accept_eq_latch_with s w
    rw [h] at hdefined ⊢
    refine ⟨rfl, rfl, rfl, rfl, rfl, rfl, rfl, hdefined, fun i => rfl, ?_⟩
    simp only [List.forall_mem_cons]
    exact ⟨rfl, rfl, rfl, rfl, rfl, rfl, rfl, rfl, rfl, rfl, List.forall_mem_nil _⟩
  · rw [writeReg_cmd_of_idle hu]
    exact accept_congr (latch_congr hops hhmac hrng hfeed hdraws) hops.overCap w

/-! ## The time step (R95) -/

theorem accept_resolves {s : State} {w : Word} {tsel : Bool}
    (hw : decodeWord w = .ok (.compute tsel) ∨ decodeWord w = .ok (.verify tsel)) (hc : s.overCap = false) :
    s.accept w = (s.latch w).resolveStep tsel := by
  rcases hw with hw | hw <;> simp [State.accept, hw, hc]

/-- Without a step to resolve, accept is `latch`. -/
theorem accept_eq_latch {s : State} {w : Word}
    (h : s.overCap = true ∨ (∀ b, decodeWord w ≠ .ok (.compute b)) ∧ ∀ b, decodeWord w ≠ .ok (.verify b)) :
    s.accept w = s.latch w := by
  obtain hlatch | ⟨tsel, hc, hw, -⟩ := accept_cases s w
  · exact hlatch
  · rcases h with h | ⟨hcompute, hverify⟩
    · exact absurd h (by simp [hc])
    · exact absurd hw (not_or.2 ⟨hcompute tsel, hverify tsel⟩)

/-- Both halves of STEP_USED together are the step (R36). -/
theorem setStep_stepUsed (s : State) (t : TimeStep) : (s.setStep t).stepUsed = t := by
  rw [State.stepUsed, State.setStep_stepUsedHi, State.setStep_stepUsedLo,
    BitVec.extractLsb'_append_extractLsb'_eq_extractLsb' (show 32 = 0 + 32 from rfl)]
  exact BitVec.extractLsb'_eq_self

/-- The step that a CMD write selects (R95). -/
def State.selectedStep (s : State) (tsel : Bool) : TimeStep := if tsel then s.tstep else stepOfClock s.clockNext

theorem resolveStep_latch (s : State) (w : Word) (tsel : Bool) :
    ((s.latch w).resolveStep tsel).tBase = s.selectedStep tsel ∧
      ((s.latch w).resolveStep tsel).stepUsed = s.selectedStep tsel ∧
      ((s.latch w).resolveStep tsel).clockDraws = s.clockDraws + (if tsel then 0 else 1) ∧
      ((s.latch w).resolveStep tsel).clockFeed = if tsel then s.clockFeed else s.clockFeed.tail := by
  cases tsel <;> exact ⟨rfl, setStep_stepUsed _ _, rfl, rfl⟩

/-- Settles O6: the step is resolved in the latched state, for COMPUTE and VERIFY within capacity alone. -/
theorem acceptResolvesTimeStep : Obligations.AcceptResolvesTimeStep := by
  refine ⟨fun s i tsel hidle hi => ?_, fun s w hidle hcompute hverify => ?_⟩
  · rw [writeReg_cmd_of_idle hidle]
    refine ⟨fun hcap => ?_, fun hcap => ?_⟩
    · have hw : decodeWord (encode i) = .ok (.compute tsel) ∨ decodeWord (encode i) = .ok (.verify tsel) := by
        rcases hi with rfl | rfl <;> simp
      rw [accept_resolves hw ((overCap_eq_false_iff s).2 hcap)]
      obtain ⟨hbase, hused, hdraws, hfeed⟩ := resolveStep_latch s (encode i) tsel
      exact ⟨hbase, hused.trans hbase.symm, hdraws, hfeed⟩
    · rw [accept_eq_latch (.inl ((overCap_eq_true_iff s).2 hcap))]
      exact ⟨rfl, rfl, rfl⟩
  · rw [writeReg_cmd_of_idle hidle, accept_eq_latch (.inr ⟨hcompute, hverify⟩)]
    exact ⟨rfl, rfl, rfl⟩

/-! ## The core's turn (R129, R133) -/

theorem coreTurn_of_command {s : State} {i : Instr} (hrst : s.rst = false) (hbusy : s.phase = .busy)
    (hw : decodeWord s.latchedCmd = .ok i) : coreTurn s = exec i s := by
  simp [coreTurn, hrst, hbusy, hw]

theorem coreTurn_of_illegal {s : State} {r : WordReject} (hrst : s.rst = false) (hbusy : s.phase = .busy)
    (hw : decodeWord s.latchedCmd = .error r) : coreTurn s = .next (completeIllegal s) := by
  simp [coreTurn, hrst, hbusy, hw]

theorem step_of_empty_tape {s : State} (h : s.events = []) : step s = coreTurn s := by simp [step, h]

theorem dropEvent_eq {s : State} {e : Event} {rest : List Event} (h : s.events = e :: rest) :
    s.dropEvent = { s with events := rest } := by rw [State.dropEvent, h, List.tail_cons]

/-- Settles O4: the core's turn, from an empty tape or taken off the tape, runs the latched word. -/
theorem stepRunsAcceptedCommand : Obligations.StepRunsAcceptedCommand := by
  refine fun s i hrst hbusy hw => ⟨fun h => ?_, fun rest h => ?_⟩
  · rw [step_of_empty_tape h, coreTurn_of_command hrst hbusy hw]
  · rw [step_coreTurn s rest h, dropEvent_eq h]
    exact coreTurn_of_command hrst hbusy hw

/-! ## A CMD write and the core's turn -/

theorem run_succ {M : Host.Core} {s t : M.State} (h : M.step s = .next t) (n : Nat) : M.run (n + 1) s = M.run n t := by
  rw [Host.Core.run, h]

theorem run_one (M : Host.Core) (s : M.State) : M.run 1 s = M.step s := by
  rw [Host.Core.run]
  cases M.step s <;> rfl

/-- The core as the accepted word's body finds it: the write is answered, and the core's turn is off the tape. -/
def State.acceptedFromTape (s : State) (w : Word) (rest : List Event) : State :=
  { s.dropEvent.accept w with busRsp := some ⟨0, false⟩, events := rest }

theorem run_accepted {s : State} {w : Word} {rest : List Event} (hidle : s.phase = .idle) (hrst : s.rst = false)
    (he : s.events = writeEvent s.params .cmd w :: .coreTurn :: rest) :
    Host.Core.run core 2 s = coreTurn (s.acceptedFromTape w rest) := by
  have hwrite := step_writeEvent s .cmd w (.coreTurn :: rest) hrst he
  rw [writeReg_cmd_of_idle (s := s.dropEvent) hidle] at hwrite
  have hevents : ((s.dropEvent.accept w).respond 0 false).events = .coreTurn :: rest := by simp [he]
  refine ((run_succ (M := core) hwrite 1).trans (run_one core _)).trans ?_
  show step ((s.dropEvent.accept w).respond 0 false) = _
  rw [step_coreTurn _ rest hevents, dropEvent_eq hevents]
  rfl

/-- Settles O7: an illegal word is latched without a time step, and its body is `raise`. -/
theorem illegalWordCompletes : Obligations.IllegalWordCompletes := by
  intro s w r rest hidle hrst hw he
  have hlatch : s.dropEvent.accept w = s.dropEvent.latch w := accept_eq_latch (.inr (by simp [hw]))
  refine ⟨_, ?_, raise_completed (s.acceptedFromTape w rest) .illegalCommand, ?_⟩
  · rw [run_accepted hidle hrst he]
    exact coreTurn_of_illegal (by simp [State.acceptedFromTape, hrst]) (by simp [State.acceptedFromTape])
      (by simpa [State.acceptedFromTape] using hw)
  · rw [State.acceptedFromTape, hlatch]
    exact ⟨rfl, rfl, rfl, rfl, rfl, rfl, rfl, rfl, rfl, rfl⟩

/-! ## Reset (R147, R148) -/

theorem setRst_of_active {s : State} {level : Bool} (h : level = true ∨ s.rst = true) :
    s.setRst level = { s with rst := level }.resetCore := by
  rw [State.setRst, if_pos (by simpa using h)]

theorem setRst_of_inactive {s : State} {level : Bool} (hlevel : level = false) (hrst : s.rst = false) :
    s.setRst level = s := by
  rw [State.setRst, if_neg (by simp [hlevel, hrst])]

theorem step_rst {s : State} {level : Bool} {rest : List Event} (h : s.events = .rst level :: rest) :
    step s = .next ({ s with events := rest }.setRst level) := by
  rw [← dropEvent_eq h]
  simp [step, h, takeEvent]

/-- Without a successful completion no OUT_BUF byte is defined (R39). -/
theorem outDefined_of_outLen_eq_zero {s : State} (h : s.outLen = 0) (i : Nat) : s.outDefined i = false := by
  simp [State.outDefined, h]

/-- Settles O57: each register of the reset state is read off, the parameters and the outside are what they were. -/
theorem resetAbandonsCommand : Obligations.ResetAbandonsCommand := by
  refine fun s level rest h => ⟨fun hactive => ⟨_, step_rst h, ?_⟩, fun hlevel hrst => ?_⟩
  · rw [setRst_of_active (s := { s with events := rest }) hactive]
    refine ⟨rfl, rfl, rfl, rfl, ?_, rfl, rfl, rfl, rfl, rfl, rfl, rfl, rfl, rfl, fun i => rfl,
      outDefined_of_outLen_eq_zero rfl⟩
    simp only [List.forall_mem_cons]
    exact ⟨rfl, statusWord_eq_zero rfl rfl rfl rfl, ctrlWord_eq_zero rfl, rfl, rfl, rfl, rfl, rfl, rfl, rfl, rfl, rfl,
      List.forall_mem_nil _⟩
  · rw [step_rst h, setRst_of_inactive (s := { s with events := rest }) hlevel hrst]

end Sys2Proof.Machine
end

section
/-! SUPPORT. What GENSECRET, COMPUTE and VERIFY compute while their external part answers (spec/41_secret_generator.md, spec/42_totp_engine.md, spec/43_verifier.md). -/

namespace Sys2Proof

open Machine

theorem HmacAnswers.mono {s : State} {m n : Nat} (h : HmacAnswers s n) (hmn : m ≤ n) : HmacAnswers s m :=
  fun k hk => hmn.trans (h k hk)

theorem RngAnswers.mono {s : State} {m n : Nat} (h : RngAnswers s n) (hmn : m ≤ n) : RngAnswers s m :=
  fun k hk => hmn.trans (h k hk)

theorem HmacAnswers.ne_silent {s : State} {n : Nat} (h : HmacAnswers s n) (hn : 0 < n) : s.hmacLeft ≠ some 0 := by
  intro h0
  have := h 0 h0
  omega

/-- What is left after `n` answers is not silent when one more was to come. -/
theorem sub_ne_silent {left : Option Nat} {n : Nat} (h : ∀ k, left = some k → n + 1 ≤ k) :
    left.map (· - n) ≠ some 0 := by
  rw [Ne, Option.map_eq_some_iff]
  rintro ⟨k, hk, hsub⟩
  have := h k hk
  omega

namespace Machine

/-! ## GENSECRET (R92 to R94) -/

theorem maskSymbol_eq (b : Byte) : maskSymbol b = alphabet.getD (b.toNat % 32) 0 := by
  have hmask : (b &&& Config.genMask).toNat = b.toNat % 32 := by
    rw [BitVec.toNat_and]
    exact Nat.and_two_pow_sub_one_eq_mod b.toNat 5
  rw [maskSymbol, symbol, hmask]

/-- A fresh GENSECRET runs its loop from byte 0. -/
theorem execGensecret_fresh {s : State} (h16 : 16 ≤ s.genLen.toNat) (h128 : s.genLen.toNat ≤ 128)
    (hreq : s.rngReq = false) : execGensecret s = .next (genLoop s.genLen.toNat { s with genI := 0 }) := by
  rw [execGensecret_runs ((genLenOk_eq_true_iff s).2 ⟨h16, h128⟩), State.startGen, State.genStart, hreq]
  rfl

theorem outWritten_of_outBuf {s t : State} {r : List Byte} (h : t.outBuf = memSetFrom s.outBuf 0 r) : OutWritten s t r := by
  have hwritten := writeOut_written s r
  rwa [OutWritten, State.writeOut_outBuf, ← h] at hwritten

/-- Settles O22: the loop passes every byte, and ends. -/
theorem gensecretWritesMaskedSymbols : Obligations.GensecretWritesMaskedSymbols := by
  intro b s rnd h16 h128 hreq hlen hans hrnd
  obtain ⟨t, hloop, hreq', hsent, hidx, hbuf, -, -⟩ :=
    genLoop_bytes s.genLen.toNat { s with genI := 0 } rnd 0 hreq hlen hans hrnd
  have hend : genLoop s.genLen.toNat { s with genI := 0 } = t.finish .none false s.genLen.toNat := by
    rw [Nat.add_zero] at hloop
    rw [hloop, genLoop, hidx]
    congr 1
    exact Nat.zero_add _
  have hsymbols : (fun r : Byte => alphabet.getD (r.toNat % 32) 0) = maskSymbol := funext fun r => (maskSymbol_eq r).symm
  rw [hsymbols]
  exact ⟨_, (execGensecret_fresh h16 h128 hreq).trans (congrArg _ hend), finish_completed _ _ _ (by omega),
    outWritten_of_outBuf hbuf, hsent, hreq'⟩

/-- The bytes that the first answers of the RNG are. -/
theorem exists_rng_bytes {s : State} : ∀ j, (∀ k, k < j → ∃ x, s.rngNth k = .byte x) →
    ∃ rnd : List Byte, rnd.length = j ∧ ∀ k (h : k < rnd.length), s.rngNth k = .byte rnd[k]
  | 0, _ => ⟨[], rfl, fun k h => absurd h (Nat.not_lt_zero k)⟩
  | j + 1, hbytes => by
    obtain ⟨rnd, hlen, hrnd⟩ := exists_rng_bytes j fun k hk => hbytes k (by omega)
    obtain ⟨x, hx⟩ := hbytes j (by omega)
    refine ⟨rnd ++ [x], by simp [hlen], fun k hk => ?_⟩
    by_cases hkj : k < rnd.length
    · rw [hrnd k hkj, List.getElem_append_left hkj]
    · obtain rfl : k = j := by
        rw [List.length_append, List.length_singleton] at hk
        omega
      rw [hx, List.getElem_append_right (by omega)]
      simp

/-- Settles O23: the loop passes the bytes before the answer UNAVAILABLE, which ends it. -/
theorem gensecretStopsAtUnavailable : Obligations.GensecretStopsAtUnavailable := by
  intro b s j h16 h128 hreq hj hans hbytes hunavailable
  obtain ⟨rnd, hlen, hrnd⟩ := exists_rng_bytes j hbytes
  obtain ⟨m, hm⟩ : ∃ m, s.genLen.toNat = j + (m + 1) := ⟨s.genLen.toNat - j - 1, by omega⟩
  obtain ⟨t, hloop, hreq', hsent, -, -, hnth, hleft⟩ :=
    genLoop_bytes j { s with genI := 0 } rnd (m + 1) hreq hlen (hans.mono (Nat.le_succ j)) hrnd
  have hnext : t.rngNext = .unavailable := by
    rw [← rngNth_zero, hnth]
    exact hunavailable
  have hlive : t.rngLeft ≠ some 0 := hleft ▸ sub_ne_silent hans
  have hend : genLoop s.genLen.toNat { s with genI := 0 } = t.sendRng.rngAnswered.raise .noSecureRandom := by
    rw [hm, hloop, genLoop_succ, if_neg hlive, hnext]
  refine ⟨_, (execGensecret_fresh h16 h128 hreq).trans (congrArg _ hend), raise_completed _ _, ?_, rfl⟩
  show t.sendRng.rngSent = s.rngSent + (j + 1)
  rw [sendRng_of_free hreq']
  exact congrArg Nat.succ hsent

/-! ## COMPUTE (R99 to R102) -/

/-- COMPUTE with a key and an answer: the request, the code, the completion. -/
theorem computeWithKey_answered {s : State} (h : s.hmacLeft ≠ some 0) :
    computeWithKey s =
      ((s.sendHmac s.tBase).hmacAnswered.writeOut (totpCode s.params.hmac s.key s.tBase)).finish .none false 6 := by
  obtain ⟨hsilent, -⟩ | ⟨-, hcode⟩ := computeWithKey_cases s
  · exact absurd hsilent h
  · exact hcode

/-- Settles O26: the request is the one in flight, or a new one. -/
theorem computeWritesTotpCode : Obligations.ComputeWritesTotpCode := by
  intro b s k hcap hk hans
  have hexec := execCompute_decoded ((overCap_eq_false_iff s).2 hcap) hk
  rw [computeWithKey_answered (s := s.setKey k) (hans.ne_silent Nat.one_pos)] at hexec
  refine ⟨_, hexec, finish_completed _ _ _ (by decide), outWritten_of_outBuf (by simp), rfl, fun hreq => ?_, fun hreq => ?_⟩
  · rw [sendHmac_of_free (s := s.setKey k) hreq]
    rfl
  · rw [sendHmac_of_inFlight (s := s.setKey k) hreq]
    rfl

/-- A byte read of a defined OUT_BUF byte (R39, R50). -/
theorem windowByte_outWindow {s : State} {i : Nat} {b : Byte} (k : Nat) (hcap : i < s.params.outCap) (hwin : i < 0x1000)
    (hdef : s.outDefined i = true) (hget : memGet s.outBuf i = some b) : s.windowByte (0x2000 + i) k = b := by
  have hregion : regionOf (0x2000 + i) = .outWindow := regionOf_outWindow (by omega) (by omega)
  simp [State.windowByte, hregion, State.outByte, hcap, hdef, hget]

theorem naturallyAligned_one (off : Nat) : naturallyAligned off 1 = true := (naturallyAligned_iff off 1).2 (.inl rfl)

theorem busRead_outWindow_byte {s : State} {i : Nat} {b : Byte} (hcap : i < s.params.outCap) (hwin : i < 0x1000)
    (hdef : s.outDefined i = true) (hget : memGet s.outBuf i = some b) :
    (s.busRead (0x2000 + i) 1).busRsp = some ⟨b.setWidth 32, false⟩ := by
  have hregion : regionOf (0x2000 + i) = .outWindow := regionOf_outWindow (by omega) (by omega)
  have hread : readSupported (0x2000 + i) 1 = true := by
    rw [readSupported, hregion]
    exact naturallyAligned_one _
  have hbyte := windowByte_outWindow 0 hcap hwin hdef hget
  rw [busRead_lanes s _ 1 (by simp [hregion]) hread]
  simp [List.range_succ, hbyte, laneWord]

/-- A byte of a result that a completion without error left is defined. -/
theorem outDefined_of_completed {t : State} {r : Bool} {n i : Nat} (h : Completed t .none r n) (hi : i < n) :
    t.outDefined i = true := by
  obtain ⟨hphase, -, herr, -, hlen⟩ := h
  simp [State.outDefined, State.busy, hphase, herr, hlen, hi]

theorem six_le_outCap (p : Params) : 6 ≤ p.outCap := le_trans (by decide) (le_max_left 128 _)

/-- What the body of a host's COMPUTE finds: its secret as it was, the selected step in T_BASE and STEP_USED, a free
port. -/
theorem acceptedFromTape_compute {s : State} (tsel : Bool) (rest : List Event) (hc : s.overCap = false) :
    ∃ u, s.acceptedFromTape (encode (.compute tsel)) rest = u ∧ u.params = s.params ∧ u.inLen = s.inLen ∧
      u.text = s.text ∧ u.tBase = s.selectedStep tsel ∧ u.stepUsed = s.selectedStep tsel ∧ u.hmacReq = none ∧
      u.hmacSent = [] ∧ u.hmacLeft = s.hmacLeft ∧ u.events = rest := by
  have haccept := accept_resolves (s := s.dropEvent) (w := encode (.compute tsel)) (tsel := tsel) (by simp) hc
  obtain ⟨-, hused, -, -⟩ := resolveStep_latch s.dropEvent (encode (.compute tsel)) tsel
  refine ⟨_, rfl, ?_⟩
  rw [State.acceptedFromTape, haccept]
  cases tsel <;> exact ⟨rfl, rfl, rfl, rfl, hused, rfl, rfl, rfl, rfl⟩

/-- Settles O27: the body finds what accept resolved, O26 says what it writes and O9 what it leaves. -/
theorem hostCommandComputesTotp : Obligations.HostCommandComputesTotp := by
  intro s tsel k rest hidle hrst he hcap hk hans
  obtain ⟨u, hu, hparams, hlen, htext, hbase, hused, hreq, hsent, hleft, hevents⟩ :=
    acceptedFromTape_compute tsel rest ((overCap_eq_false_iff s).2 hcap)
  obtain ⟨t, hexec, hdone, hwritten, -, hnew, -⟩ := computeWritesTotpCode tsel u k (by rwa [hlen, hparams])
    (by rwa [hparams, htext]) (fun n hn => hans n (hleft ▸ hn))
  have hops := exec_sameOperands hexec
  have hturn : coreTurn u = .next t := hexec ▸ hu ▸ coreTurn_of_command (by simp [State.acceptedFromTape, hrst])
    (by simp [State.acceptedFromTape]) (by simp [State.acceptedFromTape])
  have hstep : t.stepUsed = s.selectedStep tsel := hops.stepUsed.trans hused
  rw [hparams, hbase, ← hstep] at hwritten
  rw [hsent, hbase, ← hstep] at hnew
  refine ⟨t, ((run_accepted hidle hrst he).trans (congrArg coreTurn hu)).trans hturn, hdone, hops.events.trans hevents, hstep,
    hnew hreq, fun i hi => ?_⟩
  have hi6 : i < 6 := by rwa [totpCode_length] at hi
  obtain ⟨hcode, -⟩ := hwritten
  exact busRead_outWindow_byte (hi6.trans_le (six_le_outCap _)) (by omega) (outDefined_of_completed hdone hi6) (hcode i hi)

end Machine

end Sys2Proof
end

section
/-! SUPPORT. The verifier: its comparison, its window of steps, and what it answers (spec/43_verifier.md R103 to R110, spec/60_exceptions.md R139); the keys of HMAC-SHA1 (spec/44_external_cores.md R115). -/

namespace Sys2Proof.Machine

/-! ## The comparison (R103) -/

/-- The fold over the pairs stays 0 exactly as long as every pair is one byte twice. -/
theorem foldl_or_xor_eq_zero_iff (acc : Byte) (l : List (Byte × Byte)) :
    l.foldl (fun acc p => acc ||| (p.1 ^^^ p.2)) acc = 0#8 ↔ acc = 0#8 ∧ ∀ p ∈ l, p.1 = p.2 := by
  induction l generalizing acc with
  | nil => simp
  | cons p l ih =>
    rw [List.foldl_cons, ih, BitVec.or_eq_zero_iff, BitVec.xor_eq_zero_iff, List.forall_mem_cons, and_assoc]

theorem forall_mem_zip_eq_iff {a b : List Byte} (h : a.length = b.length) : (∀ p ∈ List.zip a b, p.1 = p.2) ↔ a = b := by
  induction a generalizing b with
  | nil => simp [List.length_eq_zero_iff.1 h.symm]
  | cons x a ih =>
    obtain _ | ⟨y, b⟩ := b
    · simp at h
    · rw [List.zip_cons_cons, List.forall_mem_cons, ih (Nat.succ.inj h), List.cons.injEq]

theorem ctEqual_eq_true_iff (a b : List Byte) : ctEqual a b = true ↔ a = b := by
  unfold ctEqual
  split_ifs with hlen
  · exact iff_of_false (by simp) fun h => hlen (congrArg List.length h)
  · rw [beq_iff_eq, ← forall_mem_zip_eq_iff (not_not.1 hlen)]
    exact (foldl_or_xor_eq_zero_iff 0 _).trans (and_iff_right rfl)

theorem ctEqual_eq_false_iff (a b : List Byte) : ctEqual a b = false ↔ a ≠ b := by
  rw [← Bool.not_eq_true, Ne, ctEqual_eq_true_iff]

/-- Settles O28: sequences of one length are equal when their bytes are pairwise equal. -/
theorem constantTimeCompareIsEquality : Obligations.ConstantTimeCompareIsEquality := ctEqual_eq_true_iff

/-! ## The window (R107, R108) -/

/-- Settles O29: both sides are the sum of T_BASE and the offset modulo 2^64. -/
theorem windowStepWraps : Obligations.WindowStepWraps := by
  intro tBase d i hd hi
  rw [windowStep, BitVec.toNat_add, BitVec.toNat_ofInt]
  omega

/-- A fresh VERIFY that reaches its window runs it from offset `-d`. -/
theorem execVerify_fresh {s : State} {k : List Byte} (hcap : s.inLen.toNat ≤ s.params.inCap) (h6 : s.candLen = 6)
    (hk : base32Decode s.params.partialChunk s.text = some k) (hreq : s.hmacReq = none) :
    execVerify s = .next (verifyLoop (2 * s.disc + 1) (s.startWindow k)) := by
  rw [execVerify_runs ((overCap_eq_false_iff s).2 hcap) h6 hk, State.winStart, hreq]
  rfl

/-- A fresh window passes the offsets before its first match. -/
theorem verifyLoop_misses {s : State} {k : List Byte} {n : Nat} (m : Nat) (hreq : s.hmacReq = none)
    (hans : HmacAnswers s n) (hmiss : ∀ i, i < n → windowCode s k i ≠ s.cand) :
    ∃ t, verifyLoop (n + m) (s.startWindow k) = verifyLoop m t ∧ SameRunning s t ∧ t.key = k ∧ t.winI = n ∧
      t.hmacReq = none ∧ t.hmacLeft = s.hmacLeft.map (· - n) ∧
      t.hmacSent = ((List.range n).map fun i => HmacRequest.mk k (windowStep s.tBase s.disc i)).reverse ++ s.hmacSent := by
  have hstart := startWindow_sameRunning s k
  have hzero : (s.startWindow k).winI = 0 := by simp [State.winStart, hreq]
  obtain ⟨t, hloop, hrun, hkey, hwin, hreq', hleft, hsent⟩ :=
    verifyLoop_miss n (s.startWindow k) m hreq hans fun i hi => by
      rw [ctEqual_eq_false_iff, hstart.windowCode, hstart.cand, hzero, Nat.zero_add]
      exact hmiss i hi
  simp only [hstart.windowStep, hzero, Nat.zero_add] at hwin hsent
  exact ⟨t, hloop, hstart.trans hrun, hkey, hwin, hreq', hleft, hsent⟩

theorem windowAnswered_hmacSent {s : State} (hreq : s.hmacReq = none) :
    s.windowAnswered.hmacSent = ⟨s.key, windowStep s.tBase s.disc s.winI⟩ :: s.hmacSent := by
  rw [State.windowAnswered, sendHmac_of_free hreq]
  rfl

/-- Settles O32: the misses before offset `j`, then the turn that matches. -/
theorem verifyFirstMatchEndsWindow : Obligations.VerifyFirstMatchEndsWindow := by
  intro b s k j hcap h6 hk hreq hj hans hmatch hmiss
  obtain ⟨m, hm⟩ : ∃ m, 2 * s.disc + 1 = j + (m + 1) := ⟨2 * s.disc - j, by omega⟩
  obtain ⟨t, hloop, hrun, hkey, hwin, hreq', hleft, hsent⟩ :=
    verifyLoop_misses (m + 1) hreq (hans.mono (Nat.le_succ j)) hmiss
  have hlive : t.hmacLeft ≠ some 0 := hleft ▸ sub_ne_silent hans
  have htrue : ctEqual (windowCode t t.key t.winI) t.cand = true := by
    rw [ctEqual_eq_true_iff, hrun.windowCode, hrun.cand, hkey, hwin, hmatch]
  have hend : verifyLoop (2 * s.disc + 1) (s.startWindow k) = t.windowAnswered.finish .none true 0 := by
    rw [hm, hloop, verifyLoop_succ, if_neg hlive, if_pos htrue]
  refine ⟨_, (execVerify_fresh hcap h6 hk hreq).trans (congrArg _ hend), finish_completed _ _ _ (by decide), rfl, ?_⟩
  rw [State.finish_hmacSent, windowAnswered_hmacSent hreq', hrun.windowStep, hkey, hwin, hsent]
  simp [List.range_succ]

/-- Settles O33: the misses of the whole window, then its end. -/
theorem verifyNoMatchTriesWholeWindow : Obligations.VerifyNoMatchTriesWholeWindow := by
  intro b s k hcap h6 hk hreq hans hmiss
  obtain ⟨t, hloop, -, -, -, hreq', -, hsent⟩ :=
    verifyLoop_misses 0 hreq hans fun i hi => hmiss i (Nat.lt_succ_iff.1 hi)
  have hend : verifyLoop (2 * s.disc + 1) (s.startWindow k) = t.finish .none false 0 := hloop
  exact ⟨_, (execVerify_fresh hcap h6 hk hreq).trans (congrArg _ hend), finish_completed _ _ _ (by decide), hreq', hsent⟩

/-- The offset that takes T_BASE = t + k back to step `t` (R109). -/
theorem windowStep_back (t : TimeStep) {k : Int} {d i : Nat} (h : (i : Int) = d - k) :
    windowStep (t + BitVec.ofInt 64 k) d i = t := by
  rw [windowStep, BitVec.add_assoc, ← BitVec.ofInt_add, h]
  simp

/-- Settles O34: offset `-k` matches, so some offset is the first to match. -/
theorem verifyAcceptsCodesInWindow : Obligations.VerifyAcceptsCodesInWindow := by
  intro b s key t k hcap h6 hk hreq hans hlow hhigh hbase hcand
  obtain ⟨i, hi⟩ : ∃ i : Nat, (i : Int) = s.disc - k := ⟨(s.disc - k).toNat, by omega⟩
  have hmatch : ∃ i, windowCode s key i = s.cand := ⟨i, by rw [windowCode, hbase, windowStep_back t hi, hcand]⟩
  have hle : Nat.find hmatch ≤ i := Nat.find_min' hmatch (by rw [windowCode, hbase, windowStep_back t hi, hcand])
  obtain ⟨u, hexec, hdone, -, -⟩ := verifyFirstMatchEndsWindow b s key (Nat.find hmatch) hcap h6 hk hreq (by omega)
    (hans.mono (by omega)) (Nat.find_spec hmatch) fun j hj => Nat.find_min hmatch hj
  exact ⟨u, hexec, hdone⟩

/-! ## What VERIFY shows of a secret that does not decode (R139) -/

/-- A completion without error or match shows as DONE alone. -/
theorem statusWord_of_nonMatch {t : State} (h : Completed t .none false 0) : t.statusWord = 2 := by
  obtain ⟨hphase, hdone, herr, hresult, -⟩ := h
  simp [State.statusWord, State.busy, hphase, hdone, herr, hresult, errCode]

theorem outLen_of_nonMatch {t : State} (h : Completed t .none false 0) : t.outLen = 0 :=
  BitVec.eq_of_toNat_eq h.outLen

/-- Settles O35: both are non-matches without error, which show nothing of their reason. -/
theorem verifyMasksMalformedSecret : Obligations.VerifyMasksMalformedSecret := by
  intro b s u k hcap hcap' h6 h6' hused hirq hmalformed hk hreq hans hmiss
  obtain ⟨s', hs, hsdone, -⟩ := verifyDecodeFailureIsNonMatch b s hcap h6 hmalformed
  obtain ⟨u', hu, hudone, -, -⟩ := verifyNoMatchTriesWholeWindow b u k hcap' h6' hk hreq hans hmiss
  have hsops := exec_sameOperands hs
  have huops := exec_sameOperands hu
  have hsout := outLen_of_nonMatch hsdone
  have huout := outLen_of_nonMatch hudone
  refine ⟨s', u', hs, hu, ?_, statusWord_of_nonMatch hsdone, hsout.trans huout.symm, ?_, ?_, fun i => ?_⟩
  · rw [statusWord_of_nonMatch hsdone, statusWord_of_nonMatch hudone]
  · rw [hsops.stepUsed, huops.stepUsed, hused]
  · rw [State.irq, State.irq, hsdone.done, hudone.done, hsops.irqEn, huops.irqEn, hirq]
  · rw [outDefined_of_outLen_eq_zero hsout, outDefined_of_outLen_eq_zero huout]

/-! ## The key of HMAC-SHA1 (R115) -/

/-- A short key is zero-filled to 64 bytes anyway. -/
theorem hmacBlockKey_append_zeros {k : List Byte} {n : Nat} (h : k.length + n ≤ 64) :
    hmacBlockKey (k ++ List.replicate n 0) = hmacBlockKey k := by
  have hlen : (k ++ List.replicate n 0).length = k.length + n := by simp
  simp only [hmacBlockKey]
  rw [if_neg (by omega), if_neg (by omega), hlen, List.append_assoc, List.replicate_append_replicate]
  congr 2
  omega

/-- Settles O36: the digest depends on the key through K0 alone. -/
theorem trailingZerosKeepDigest : Obligations.TrailingZerosKeepDigest := by
  intro k m n h
  rw [hmacReference, hmacReference, hmacBlockKey_append_zeros h]

end Sys2Proof.Machine
end

section
/-! SUPPORT. A silent external part: a command waits for it unchanged, and its answer brings the command where it would have been (spec/44_external_cores.md R123, spec/70_reset_and_hazards.md R156). -/

namespace Sys2Proof.Machine

/-! ## Waiting (R123) -/

theorem computeWithKey_silent {s : State} (h : s.hmacLeft = some 0) : computeWithKey s = s.sendHmac s.tBase := by
  obtain ⟨-, hwait⟩ | ⟨hlive, -⟩ := computeWithKey_cases s
  · exact hwait
  · exact absurd h hlive

/-- STATUS shows PHASE, DONE, RESULT and ERR alone. -/
theorem statusWord_congr {s t : State} (hphase : t.phase = s.phase) (hdone : t.done = s.done)
    (hresult : t.result = s.result) (herr : t.err = s.err) : t.statusWord = s.statusWord := by
  rw [State.statusWord, State.statusWord, State.busy, State.busy, hphase, hdone, hresult, herr]

theorem execCompute_silent {s : State} {k : List Byte} (hc : s.overCap = false) (hk : s.decodedText = some k)
    (hsilent : s.hmacLeft = some 0) : execCompute s = .next ((s.setKey k).sendHmac s.tBase) := by
  rw [execCompute_decoded hc hk]
  exact congrArg _ (computeWithKey_silent (s := s.setKey k) hsilent)

theorem execVerify_silent {s : State} {k : List Byte} (hc : s.overCap = false) (h6 : s.candLen = 6)
    (hk : s.decodedText = some k) (hsilent : s.hmacLeft = some 0) (hwin : s.winStart < s.windowSize) :
    execVerify s = .next ((s.startWindow k).sendHmac (windowStep s.tBase s.disc s.winStart)) := by
  obtain ⟨m, hm⟩ : ∃ m, s.windowSize - s.winStart = m + 1 := ⟨s.windowSize - s.winStart - 1, by omega⟩
  rw [execVerify_runs hc h6 hk, hm, verifyLoop_succ, if_pos (by exact hsilent)]
  rfl

theorem execGensecret_silent {s : State} (hok : s.genLenOk = true) (hsilent : s.rngLeft = some 0)
    (hlt : s.genStart < s.genLen.toNat) : execGensecret s = .next s.startGen.sendRng := by
  obtain ⟨m, hm⟩ : ∃ m, s.genLen.toNat - s.genStart = m + 1 := ⟨s.genLen.toNat - s.genStart - 1, by omega⟩
  rw [execGensecret_runs hok, hm, genLoop_succ, if_pos (by exact hsilent)]

theorem winStart_of_inFlight {s : State} (h : s.hmacReq ≠ none) : s.winStart = s.winI :=
  if_pos (Option.isSome_iff_ne_none.2 h)

theorem winStart_of_free {s : State} (h : s.hmacReq = none) : s.winStart = 0 := by simp [State.winStart, h]

/-- The window of a command in wait stands where it stood. -/
theorem startWindow_of_inFlight {s : State} {k : List Byte} (h : s.hmacReq ≠ none) (hkey : s.key = k) :
    s.startWindow k = s := by
  subst hkey
  rw [State.startWindow, winStart_of_inFlight h]

theorem setKey_of_key_eq {s : State} {k : List Byte} (hkey : s.key = k) : s.setKey k = s := by
  subst hkey
  rfl

theorem genStart_of_inFlight {s : State} (h : s.rngReq = true) : s.genStart = s.genI := if_pos h

theorem genStart_of_free {s : State} (h : s.rngReq = false) : s.genStart = 0 := by simp [State.genStart, h]

theorem startGen_of_inFlight {s : State} (h : s.rngReq = true) : s.startGen = s := by
  rw [State.startGen, genStart_of_inFlight h]

theorem sendHmac_hmacReq {s : State} (h : s.hmacReq = none) (t : TimeStep) : (s.sendHmac t).hmacReq = some ⟨s.key, t⟩ := by
  rw [sendHmac_of_free h]

/-- STATUS does not show the ports. -/
theorem sendHmac_statusWord (s : State) (t : TimeStep) : (s.sendHmac t).statusWord = s.statusWord :=
  statusWord_congr (by simp) (by simp) (by simp) (by simp)

theorem sendRng_statusWord (s : State) : s.sendRng.statusWord = s.statusWord :=
  statusWord_congr (by simp) (by simp) (by simp) (by simp)

/-! A command in wait whose part stays silent does nothing on its turn. -/

theorem execCompute_waits_on {s : State} (hc : s.overCap = false) (hk : s.decodedText = some s.key)
    (hreq : s.hmacReq ≠ none) (hsilent : s.hmacLeft = some 0) : execCompute s = .next s := by
  rw [execCompute_silent hc hk hsilent, sendHmac_of_inFlight (s := s.setKey s.key) hreq]
  rfl

theorem execVerify_waits_on {s : State} (hc : s.overCap = false) (h6 : s.candLen = 6) (hk : s.decodedText = some s.key)
    (hreq : s.hmacReq ≠ none) (hwin : s.winI < s.windowSize) (hsilent : s.hmacLeft = some 0) :
    execVerify s = .next s := by
  have hstart := winStart_of_inFlight hreq
  rw [execVerify_silent hc h6 hk hsilent (hstart ▸ hwin), startWindow_of_inFlight hreq rfl, sendHmac_of_inFlight hreq]

theorem execGensecret_waits_on {s : State} (hok : s.genLenOk = true) (hreq : s.rngReq = true)
    (hlt : s.genI < s.genLen.toNat) (hsilent : s.rngLeft = some 0) : execGensecret s = .next s := by
  have hstart := genStart_of_inFlight hreq
  rw [execGensecret_silent hok hsilent (hstart ▸ hlt), startGen_of_inFlight hreq, sendRng_of_inFlight hreq]

/-- Settles O37: the turn sends the request and waits; the next one finds it in flight. -/
theorem silentHmacStaysBusy : Obligations.SilentHmacStaysBusy := by
  refine ⟨fun b s k hbusy hcap hk hreq hsilent => ?_, fun b s k hbusy hcap h6 hk hreq hsilent => ?_,
    fun b s hbusy h16 h128 hreq hsilent => ?_⟩
  · have hc := (overCap_eq_false_iff s).2 hcap
    have hops := ((setKey_sameRunning s k).trans (sendHmac_sameRunning _ s.tBase)).toSameOperands
    have hflight := sendHmac_hmacReq (s := s.setKey k) hreq s.tBase
    refine ⟨_, execCompute_silent hc hk hsilent, by simpa using hbusy, hflight, sendHmac_statusWord .., by simp, ?_⟩
    exact execCompute_waits_on (hops.overCap.trans hc) (by rw [hops.decodedText, State.sendHmac_key]; exact hk)
      (by simp [hflight]) (by simpa using hsilent)
  · have hc := (overCap_eq_false_iff s).2 hcap
    have hstart := winStart_of_free hreq
    have hexec := execVerify_silent hc h6 hk hsilent (by rw [hstart]; exact Nat.succ_pos _)
    rw [hstart] at hexec
    have hops := ((startWindow_sameRunning s k).trans
      (sendHmac_sameRunning _ (windowStep s.tBase s.disc 0))).toSameOperands
    have hflight := sendHmac_hmacReq (s := s.startWindow k) hreq (windowStep s.tBase s.disc 0)
    refine ⟨_, hexec, by simpa using hbusy, hflight, sendHmac_statusWord .., by simp, ?_⟩
    exact execVerify_waits_on (hops.overCap.trans hc) (hops.candLen.trans h6)
      (by rw [hops.decodedText, State.sendHmac_key]; exact hk) (by simp [hflight])
      (by rw [State.windowSize, hops.disc, State.sendHmac_winI, State.startWindow_winI, hstart]; exact Nat.succ_pos _)
      (by simpa using hsilent)
  · have hok := (genLenOk_eq_true_iff s).2 ⟨h16, h128⟩
    have hstart := genStart_of_free hreq
    have hsend := sendRng_of_free (s := s.startGen) hreq
    refine ⟨_, execGensecret_silent hok hsilent (by omega), by simpa using hbusy, by rw [hsend], by rw [hsend]; rfl,
      sendRng_statusWord .., by simp, ?_⟩
    exact execGensecret_waits_on (by rw [hsend]; exact hok) (by rw [hsend])
      (by rw [hsend]; show s.genStart < s.genLen.toNat; omega) (by simpa using hsilent)

/-! ## Resuming (R123) -/

/-- A turn of the window finds its request in flight, or sends it: the answered state is the same. -/
theorem windowAnswered_sendHmac (s : State) :
    State.windowAnswered { s.sendHmac (windowStep s.tBase s.disc s.winI) with hmacLeft := none } =
      State.windowAnswered { s with hmacLeft := none } := by
  obtain ⟨-, hsend⟩ | ⟨hfree, hsend⟩ := sendHmac_cases s (windowStep s.tBase s.disc s.winI)
  · rw [hsend]
  · rw [hsend, State.windowAnswered, State.windowAnswered, sendHmac_of_free (s := { s with hmacLeft := none }) hfree]
    rfl

theorem windowAnswered_unlimited (s : State) :
    State.windowAnswered { s with hmacLeft := none } = { s.windowAnswered with hmacLeft := none } := by
  rw [State.windowAnswered, State.windowAnswered]
  obtain ⟨hreq, hsend⟩ | ⟨hfree, hsend⟩ := sendHmac_cases s (windowStep s.tBase s.disc s.winI)
  · rw [hsend, sendHmac_of_inFlight (s := { s with hmacLeft := none }) hreq]
    rfl
  · rw [hsend, sendHmac_of_free (s := { s with hmacLeft := none }) hfree]
    rfl

/-- One turn of a window whose HMAC-SHA1 core answers. -/
theorem verifyLoop_succ_unlimited (n : Nat) (s : State) :
    verifyLoop (n + 1) { s with hmacLeft := none } =
      if ctEqual (windowCode s s.key s.winI) s.cand then
        (State.windowAnswered { s with hmacLeft := none }).finish .none true 0
      else verifyLoop n (State.windowAnswered { s with hmacLeft := none }).nextOffset := by
  rw [verifyLoop_succ, if_neg (by simp)]
  rfl

/-- A window that waits, resumed with answers, ends where it would have ended with answers from the start. -/
theorem verifyLoop_resume (n : Nat) (s : State) (hbusy : (verifyLoop n s).phase = .busy) :
    (verifyLoop n s).hmacReq ≠ none ∧ (verifyLoop n s).key = s.key ∧
      ∃ m, (verifyLoop n s).winI + m = s.winI + n ∧
        verifyLoop m { verifyLoop n s with hmacLeft := none } = verifyLoop n { s with hmacLeft := none } := by
  induction n generalizing s with
  | zero => cases hbusy
  | succ n ih =>
    rw [verifyLoop_succ_unlimited]
    rw [verifyLoop_succ] at hbusy ⊢
    split at hbusy
    · next hsilent =>
      have hrun := sendHmac_sameRunning s (windowStep s.tBase s.disc s.winI)
      rw [if_pos hsilent]
      refine ⟨sendHmac_hmacReq_ne_none s _, by simp, n + 1, by simp, ?_⟩
      rw [verifyLoop_succ_unlimited, windowAnswered_sendHmac, hrun.windowCode, hrun.cand, State.sendHmac_key,
        State.sendHmac_winI]
    · next hlive =>
      split at hbusy
      · cases hbusy
      · next hmiss =>
        rw [if_neg hlive, if_neg hmiss, if_neg hmiss, windowAnswered_unlimited]
        obtain ⟨hreq, hkey, m, hm, hloop⟩ := ih s.windowAnswered.nextOffset hbusy
        have hwin : s.windowAnswered.nextOffset.winI = s.winI + 1 := by simp [State.windowAnswered]
        exact ⟨hreq, by rw [hkey]; simp [State.windowAnswered], m, by omega, hloop⟩

theorem execVerify_resume {s t : State} (hreq : s.hmacReq = none) (h : execVerify s = .next t) (hbusy : t.phase = .busy) :
    execVerify { t with hmacLeft := none } = execVerify { s with hmacLeft := none } := by
  obtain ⟨k, hc, h6, hk, rfl⟩ | ⟨-, e, rfl⟩ := execVerify_cases h
  · have hstart : s.winStart = 0 := by simp [State.winStart, hreq]
    obtain ⟨hflight, hkey, m, hm, hloop⟩ := verifyLoop_resume _ _ hbusy
    obtain ⟨hops, -⟩ := (verifyLoop_endsOrWaits (s.windowSize - s.winStart) (s.startWindow k)).after
      (startWindow_sameRunning s k) rfl
    generalize verifyLoop (s.windowSize - s.winStart) (s.startWindow k) = t at *
    have hwindow : State.windowSize { t with hmacLeft := none } - State.winStart { t with hmacLeft := none } = m := by
      have hsize : State.windowSize { t with hmacLeft := none } = s.windowSize := congrArg (2 * · + 1) hops.disc
      have hwin : State.winStart { t with hmacLeft := none } = t.winI := winStart_of_inFlight hflight
      rw [hsize, hwin]
      rw [State.startWindow_winI, hstart] at hm
      omega
    rw [execVerify_runs (k := k) (by exact hops.overCap.trans hc) (by exact hops.candLen.trans h6)
      (by exact hops.decodedText.trans hk), execVerify_runs (s := { s with hmacLeft := none }) hc h6 hk, hwindow,
      startWindow_of_inFlight (by exact hflight) (by exact hkey), hloop]
    rfl
  · cases hbusy

/-- The end of COMPUTE finds its request in flight, or sends it: the code is the same. -/
theorem computeWithKey_sendHmac (s : State) :
    computeWithKey { s.sendHmac s.tBase with hmacLeft := none } = computeWithKey { s with hmacLeft := none } := by
  rw [computeWithKey_answered (by simp), computeWithKey_answered (by simp)]
  obtain ⟨-, hsend⟩ | ⟨hfree, hsend⟩ := sendHmac_cases s s.tBase
  · rw [hsend]
  · rw [hsend, sendHmac_of_free (s := { s with hmacLeft := none }) hfree]
    rfl

theorem execCompute_resume {s t : State} (h : execCompute s = .next t) (hbusy : t.phase = .busy) :
    execCompute { t with hmacLeft := none } = execCompute { s with hmacLeft := none } := by
  obtain ⟨k, hc, hk, rfl⟩ | ⟨-, e, rfl⟩ := execCompute_cases h
  · obtain ⟨-, hwait⟩ | ⟨-, hcode⟩ := computeWithKey_cases (s.setKey k)
    · have hops := ((setKey_sameRunning s k).trans (sendHmac_sameRunning (s.setKey k) s.tBase)).toSameOperands
      rw [hwait, execCompute_decoded (k := k) (s := { s with hmacLeft := none }) hc hk,
        execCompute_decoded (k := k) (by exact hops.overCap.trans hc) (by exact hops.decodedText.trans hk)]
      rw [setKey_of_key_eq (by simp), computeWithKey_sendHmac]
      rfl
    · rw [hcode] at hbusy
      cases hbusy
  · cases hbusy

/-- Settles O38: a command still BUSY waits, and its resumption is the unbroken run. -/
theorem hmacSilenceIsTransparent : Obligations.HmacSilenceIsTransparent := by
  intro b i s n hi hbusy hreq hleft
  obtain ⟨t, h⟩ := exec_total i s
  refine ⟨t, h, fun hwait => ?_⟩
  rcases hi with rfl | rfl
  · exact execCompute_resume h hwait
  · exact execVerify_resume hreq h hwait

/-! The same for GENSECRET and the RNG. -/

/-- A turn of the loop finds its request in flight, or sends it: the answered state is the same. -/
theorem rngAnswered_sendRng (s : State) :
    (State.sendRng { s.sendRng with rngLeft := none }).rngAnswered =
      (State.sendRng { s with rngLeft := none }).rngAnswered := by
  obtain ⟨-, hsend⟩ | ⟨hfree, hsend⟩ := sendRng_cases s
  · rw [hsend]
  · rw [hsend, sendRng_of_free (s := { s with rngLeft := none }) hfree]
    rfl

theorem rngAnswered_unlimited (s : State) :
    (State.sendRng { s with rngLeft := none }).rngAnswered = { s.sendRng.rngAnswered with rngLeft := none } := by
  obtain ⟨hreq, hsend⟩ | ⟨hfree, hsend⟩ := sendRng_cases s
  · rw [hsend, sendRng_of_inFlight (s := { s with rngLeft := none }) hreq]
    rfl
  · rw [hsend, sendRng_of_free (s := { s with rngLeft := none }) hfree]
    rfl

theorem sendRng_rngNext (s : State) : s.sendRng.rngNext = s.rngNext := by
  rw [State.rngNext, State.sendRng_rngFeed, State.sendRng_rngDraws, State.rngNext]

/-- One turn of the loop of a GENSECRET whose RNG answers. -/
theorem genLoop_succ_unlimited (n : Nat) (s : State) :
    genLoop (n + 1) { s with rngLeft := none } =
      match s.rngNext with
      | .unavailable => (State.sendRng { s with rngLeft := none }).rngAnswered.raise .noSecureRandom
      | .byte b => genLoop n ((State.sendRng { s with rngLeft := none }).rngAnswered.putSymbol b) := by
  rw [genLoop_succ, if_neg (by simp)]
  rfl

/-- A loop that waits, resumed with answers, ends where it would have ended with answers from the start. -/
theorem genLoop_resume (n : Nat) (s : State) (hbusy : (genLoop n s).phase = .busy) :
    (genLoop n s).rngReq = true ∧
      ∃ m, (genLoop n s).genI + m = s.genI + n ∧
        genLoop m { genLoop n s with rngLeft := none } = genLoop n { s with rngLeft := none } := by
  induction n generalizing s with
  | zero => cases hbusy
  | succ n ih =>
    rw [genLoop_succ_unlimited]
    rw [genLoop_succ] at hbusy ⊢
    split at hbusy
    · next hsilent =>
      rw [if_pos hsilent]
      refine ⟨?_, n + 1, by simp, ?_⟩
      · obtain ⟨hreq, hsend⟩ | ⟨-, hsend⟩ := sendRng_cases s <;> rw [hsend]
        exact hreq
      · rw [genLoop_succ_unlimited, rngAnswered_sendRng, sendRng_rngNext]
    · next hlive =>
      rw [if_neg hlive]
      cases hnext : s.rngNext with
      | unavailable =>
        rw [hnext] at hbusy
        cases hbusy
      | byte b =>
        rw [hnext] at hbusy
        obtain ⟨hreq, m, hm, hloop⟩ := ih (s.sendRng.rngAnswered.putSymbol b) hbusy
        rw [rngAnswered_unlimited]
        have hidx : (s.sendRng.rngAnswered.putSymbol b).genI = s.genI + 1 := by simp
        exact ⟨hreq, m, hm.trans (by omega), hloop⟩

theorem execGensecret_resume {s t : State} (hreq : s.rngReq = false) (h : execGensecret s = .next t)
    (hbusy : t.phase = .busy) : execGensecret { t with rngLeft := none } = execGensecret { s with rngLeft := none } := by
  obtain ⟨hok, rfl⟩ | ⟨-, e, rfl⟩ := execGensecret_cases h
  · have hstart := genStart_of_free hreq
    obtain ⟨hflight, m, hm, hloop⟩ := genLoop_resume _ _ hbusy
    obtain ⟨hops, -⟩ := (genLoop_endsOrWaits (s.genLen.toNat - s.genStart) s.startGen).after (startGen_sameRunning s) rfl
    generalize genLoop (s.genLen.toNat - s.genStart) s.startGen = t at *
    have hok' : State.genLenOk { t with rngLeft := none } = true := by
      rw [genLenOk_eq_true_iff] at hok ⊢
      rwa [hops.genLen]
    have hrest : t.genLen.toNat - State.genStart { t with rngLeft := none } = m := by
      have hidx : State.genStart { t with rngLeft := none } = t.genI := genStart_of_inFlight hflight
      rw [hidx, hops.genLen]
      rw [State.startGen_genI, hstart] at hm
      omega
    rw [execGensecret_runs hok', execGensecret_runs (s := { s with rngLeft := none }) hok, hrest,
      startGen_of_inFlight (by exact hflight), hloop]
    rfl
  · cases hbusy

/-- Settles O39: a GENSECRET still BUSY waits, and its resumption is the unbroken run. -/
theorem rngSilenceIsTransparent : Obligations.RngSilenceIsTransparent := by
  intro b s n hbusy hreq hleft
  obtain ⟨t, h⟩ := exec_total (.gensecret b) s
  exact ⟨t, h, execGensecret_resume hreq h⟩

/-! ## Completion (R156) -/

theorem verifyLoop_completes {n : Nat} {s : State} (hleft : s.hmacLeft = none) :
    ∃ u r, verifyLoop n s = State.finish u .none r 0 := by
  obtain ⟨u, -, h⟩ | ⟨m, u, hnone, hsilent, -⟩ | ⟨m, u, -, h⟩ :=
    verifyLoop_rule (P := fun _ u => u.hmacLeft = none) (n := n) (s := s)
      (fun n u hu => by simp [State.windowAnswered, hu]) hleft
  · exact ⟨u, false, h⟩
  · simp [hnone] at hsilent
  · exact ⟨_, true, h⟩

theorem genLoop_completes {n : Nat} {s : State} (hleft : s.rngLeft = none) :
    ∃ u e k, genLoop n s = State.finish u e false k := by
  obtain ⟨u, -, h⟩ | ⟨m, u, hnone, hsilent, -⟩ | ⟨m, u, -, h⟩ :=
    genLoop_rule (P := fun _ u => u.rngLeft = none) (n := n) (s := s) (fun n u b hu => by simp [hu]) hleft
  · exact ⟨u, _, _, h⟩
  · simp [hnone] at hsilent
  · exact ⟨_, _, _, h⟩

theorem exec_completes {i : Instr} {s t : State} (hhmac : s.hmacLeft = none) (hrng : s.rngLeft = none)
    (h : exec i s = .next t) : ∃ u e r n, t = State.finish u e r n := by
  cases i with
  | decode b =>
    obtain ⟨r, -, -, rfl⟩ | ⟨e, rfl⟩ := execDecode_cases h
    · exact ⟨_, _, _, _, rfl⟩
    · exact ⟨_, _, _, _, rfl⟩
  | encode b =>
    obtain ⟨-, rfl⟩ | ⟨e, rfl⟩ := execEncode_cases h
    · exact ⟨_, _, _, _, rfl⟩
    · exact ⟨_, _, _, _, rfl⟩
  | gensecret b =>
    obtain ⟨-, rfl⟩ | ⟨-, e, rfl⟩ := execGensecret_cases h
    · obtain ⟨u, e, n, hend⟩ := genLoop_completes (n := s.genLen.toNat - s.genStart) (s := s.startGen) hrng
      exact ⟨u, e, false, n, hend⟩
    · exact ⟨_, _, _, _, rfl⟩
  | compute b =>
    obtain ⟨k, -, -, rfl⟩ | ⟨-, e, rfl⟩ := execCompute_cases h
    · exact ⟨_, _, _, _, computeWithKey_answered (by simp [hhmac])⟩
    · exact ⟨_, _, _, _, rfl⟩
  | verify b =>
    obtain ⟨k, -, -, -, rfl⟩ | ⟨-, e, rfl⟩ := execVerify_cases h
    · obtain ⟨u, r, hend⟩ := verifyLoop_completes (n := s.windowSize - s.winStart) (s := s.startWindow k) hhmac
      exact ⟨u, .none, r, 0, hend⟩
    · exact ⟨_, _, _, _, rfl⟩

/-- Settles O40: with both parts answering every body ends in `finish`, and an illegal word does in any case. -/
theorem answeredCommandCompletes : Obligations.AnsweredCommandCompletes := by
  intro s hbusy hrst hempty hhmac hrng
  rw [step_of_empty_tape hempty]
  cases hw : decodeWord s.latchedCmd with
  | error r => exact ⟨_, coreTurn_of_illegal hrst hbusy hw, rfl, rfl⟩
  | ok i =>
    obtain ⟨t, h⟩ := exec_total i s
    obtain ⟨u, e, r, n, rfl⟩ := exec_completes hhmac hrng h
    exact ⟨_, (coreTurn_of_command hrst hbusy hw).trans h, rfl, rfl⟩

end Sys2Proof.Machine
end

section
/-! SUPPORT. The host bus: which accesses are supported, and what a read answers and a write changes (spec/20_memory.md R47 to R57, spec/10_state.md R20 to R41). -/

namespace Sys2Proof.Machine

/-! ## Supported shapes (R48 to R52) -/

theorem readSupported_registers_iff {off : Nat} (n : Nat) (h : off < 0x1000) :
    readSupported off n = true ↔ n = 4 ∧ off % 4 = 0 := by
  simp [readSupported, regionOf_registers h]

theorem writeSupported_registers_iff {off : Nat} (n : Nat) (h : off < 0x1000) :
    writeSupported off n = true ↔ n = 4 ∧ off % 4 = 0 := by
  simp [writeSupported, regionOf_registers h]

theorem regionOf_ne_registers {off : Nat} (h : 0x1000 ≤ off) : regionOf off ≠ .registers := by
  rw [regionOf, if_neg (Nat.not_lt.2 h)]
  split_ifs <;> simp

/-- Outside the register region a read is held to natural alignment alone. -/
theorem readSupported_window {off : Nat} (n : Nat) (h : 0x1000 ≤ off) : readSupported off n = naturallyAligned off n := by
  have hregion := regionOf_ne_registers h
  unfold readSupported
  cases hr : regionOf off <;> simp_all

theorem writeSupported_inWindow {off : Nat} (n : Nat) (h : 0x1000 ≤ off) (h' : off < 0x2000) :
    writeSupported off n = naturallyAligned off n := by
  simp [writeSupported, regionOf_inWindow h h']

/-- A supported access is of at most 4 bytes, and does not cross the end of its region. -/
theorem naturallyAligned_lane {off n m k : Nat} (h : naturallyAligned off n = true) (hoff : off < 0x1000 * m) (hk : k < n) :
    k < 4 ∧ off + k < 0x1000 * m := by
  rcases (naturallyAligned_iff off n).1 h with rfl | ⟨rfl, halign⟩ | ⟨rfl, halign⟩ <;> omega

/-! ## Answers that change nothing else -/

theorem busRead_unsupported {s : State} {off n : Nat} (h : readSupported off n = false) :
    s.busRead off n = { s with unsupported := true, busRsp := some ⟨0, true⟩ } := by
  simp [State.busRead, h, State.unsupportedAccess, State.respond]

theorem busWrite_unsupported {s : State} {off n : Nat} {v : Word} (h : writeSupported off n = false) :
    s.busWrite off n v = { s with unsupported := true, busRsp := some ⟨0, true⟩ } := by
  simp [State.busWrite, h, State.unsupportedAccess, State.respond]

/-- Settles O41: an unsupported access goes to its record and its answer alone. -/
theorem unsupportedAccessHasNoEffect : Obligations.UnsupportedAccessHasNoEffect :=
  fun _ _ _ _ => ⟨busRead_unsupported, busWrite_unsupported⟩

theorem busRead_supported {s : State} {off n : Nat} (h : readSupported off n = true) :
    s.busRead off n = (s.dropOutDraws off).respond (s.readData off n) false := by
  simp [State.busRead, h]

theorem busWrite_supported {s : State} {off n : Nat} {v : Word} (h : writeSupported off n = true) :
    s.busWrite off n v = (s.writeEffect off n v).respond 0 false := by
  simp [State.busWrite, h]

theorem dropOutDraws_of_not_outWindow {s : State} {off : Nat} (h : regionOf off ≠ .outWindow) : s.dropOutDraws off = s := by
  rw [State.dropOutDraws, if_neg h]

/-- A read moves nothing but its answer, the record of unsupported accesses and the count of draws. -/
theorem busRead_eq (s : State) (off n : Nat) :
    ∃ rsp bad draws, s.busRead off n = { s with busRsp := rsp, unsupported := bad, outDraws := draws } := by
  cases h : readSupported off n with
  | false => exact ⟨_, _, _, busRead_unsupported h⟩
  | true =>
    rw [busRead_supported h, State.dropOutDraws]
    split <;> exact ⟨_, _, _, rfl⟩

/-- Settles O50: the three fields a read moves are no register, no byte, no hidden register and no port. -/
theorem readsHaveNoSideEffect : Obligations.ReadsHaveNoSideEffect := by
  intro s off n
  obtain ⟨rsp, bad, draws, h⟩ := busRead_eq s off n
  rw [h]
  exact ⟨fun r => by cases r <;> rfl, fun i => rfl, fun i => ⟨rfl, rfl⟩, rfl, rfl, rfl, rfl, rfl, by constructor <;> rfl,
    by constructor <;> rfl, rfl⟩

/-! ## Bytes of the buffer windows (R49 to R53) -/

theorem windowByte_inWindow (s : State) {i : Nat} (k : Nat) (hi : i < 0x1000) :
    s.windowByte (0x1000 + i) k = if i < s.params.inCap then s.inByte i else 0 := by
  simp [State.windowByte, regionOf_inWindow (off := 0x1000 + i) (by omega) (by omega)]

theorem windowByte_outWindow_past {s : State} {i : Nat} (k : Nat) (hi : i < 0x1000) (hcap : s.params.outCap ≤ i) :
    s.windowByte (0x2000 + i) k = 0 := by
  simp [State.windowByte, regionOf_outWindow (off := 0x2000 + i) (by omega) (by omega), Nat.not_lt.2 hcap]

theorem windowByte_reserved (s : State) {off : Nat} (k : Nat) (h : 0x3000 ≤ off) : s.windowByte off k = 0 := by
  simp [State.windowByte, regionOf_reserved h]

/-- Outside the register region the lanes of a read are the window's bytes. -/
theorem readData_window (s : State) {off : Nat} (n : Nat) (h : 0x1000 ≤ off) :
    s.readData off n = laneWord ((List.range n).map fun k => s.windowByte (off + k) k) := by
  have hregion := regionOf_ne_registers h
  unfold State.readData
  cases hr : regionOf off <;> simp_all

theorem busRead_window_busRsp {s : State} {off n : Nat} (h : 0x1000 ≤ off) (hs : readSupported off n = true) :
    (s.busRead off n).busRsp = some ⟨laneWord ((List.range n).map fun k => s.windowByte (off + k) k), false⟩ := by
  rw [busRead_supported hs, State.respond_busRsp, readData_window s n h]

theorem laneWord_map_lane (f : Nat → Byte) {n k : Nat} (hn : k < n) (h4 : k < 4) :
    (laneWord ((List.range n).map f)).extractLsb' (8 * k) 8 = f k := by
  rw [laneWord_lane _ k h4]
  simp [hn]

/-- A supported write to the IN_BUF window gives each byte it touches its lane (R51). -/
theorem inByte_busWrite {s : State} {i n : Nat} (v : Word) (hi : i < 0x1000) (hs : writeSupported (0x1000 + i) n = true)
    (hidle : s.phase = .idle) (a : Nat) :
    (s.busWrite (0x1000 + i) n v).inByte a =
      if i ≤ a ∧ a < i + n ∧ a < s.params.inCap then v.extractLsb' (8 * (a - i)) 8 else s.inByte a := by
  rw [busWrite_supported hs, respond_inByte, State.writeEffect, regionOf_inWindow (by omega) (by omega)]
  simp [State.busy, hidle, inByte_writeInLanes, laneByte_eq]

/-- Settles O42: natural alignment keeps an access inside its window, so each lane is a byte of the window. -/
theorem supportedAccessShapes : Obligations.SupportedAccessShapes := by
  refine ⟨fun off n h => ⟨readSupported_registers_iff n h, writeSupported_registers_iff n h⟩, fun off n h h' => ⟨?_, ?_⟩,
    fun off n h h' => ?_, fun s i n v hi hs hidle => inByte_busWrite v hi hs hidle,
    fun s i n hi hs => ⟨_, busRead_window_busRsp (by omega) hs, ?_⟩⟩
  · rw [readSupported_window n h, naturallyAligned_iff]
  · rw [writeSupported_inWindow n h h', naturallyAligned_iff]
  · rw [readSupported_window n (by omega), naturallyAligned_iff]
  · intro k hk
    rw [readSupported_window n (by omega)] at hs
    obtain ⟨h4, hend⟩ := naturallyAligned_lane (m := 2) hs (by omega) hk
    rw [laneWord_map_lane _ hk h4, Nat.add_assoc, windowByte_inWindow s k (by omega)]

/-! ## Reserved offsets (R47, R53) -/

theorem regAt_reserved {off : Nat} (h : 0x3C ≤ off) : regAt off = none := by
  rw [regAt, List.find?_eq_none]
  intro r _
  have hlt : regOffset r < 0x3C := by cases r <;> decide
  simp only [beq_iff_eq]
  omega

theorem laneWord_replicate_zero (n : Nat) : laneWord (List.replicate n 0) = 0 := by
  induction n with
  | zero => rfl
  | succ n ih => rw [List.replicate_succ, laneWord, ih]; rfl

/-- A read of bytes that are all 0 reads 0. -/
theorem readData_zeros {s : State} {off n : Nat} (h : 0x1000 ≤ off) (hz : ∀ k, k < n → s.windowByte (off + k) k = 0) :
    s.readData off n = 0 := by
  have hlanes : (List.range n).map (fun k => s.windowByte (off + k) k) = List.replicate n 0 :=
    List.eq_replicate_iff.2 ⟨by simp, fun b hb => by
      obtain ⟨k, hk, rfl⟩ := List.mem_map.1 hb
      exact hz k (List.mem_range.1 hk)⟩
  rw [readData_window s n h, hlanes, laneWord_replicate_zero]

theorem readData_reservedRegister (s : State) {off : Nat} (n : Nat) (h : 0x3C ≤ off) (h' : off < 0x1000) :
    s.readData off n = 0 := by
  rw [State.readData, regionOf_registers h', regAt_reserved h]
  rfl

theorem readData_inWindow_past {s : State} {off n : Nat} (h : 0x1000 + s.params.inCap ≤ off) (h' : off < 0x2000)
    (hs : readSupported off n = true) : s.readData off n = 0 := by
  rw [readSupported_window n (by omega)] at hs
  refine readData_zeros (by omega) fun k hk => ?_
  obtain ⟨-, hend⟩ := naturallyAligned_lane (m := 2) hs h' hk
  rw [show off + k = 0x1000 + (off + k - 0x1000) by omega, windowByte_inWindow s k (by omega), if_neg (by omega)]

theorem readData_outWindow_past {s : State} {off n : Nat} (h : 0x2000 + s.params.outCap ≤ off) (h' : off < 0x3000)
    (hs : readSupported off n = true) : s.readData off n = 0 := by
  rw [readSupported_window n (by omega)] at hs
  refine readData_zeros (by omega) fun k hk => ?_
  obtain ⟨-, hend⟩ := naturallyAligned_lane (m := 3) hs h' hk
  rw [show off + k = 0x2000 + (off + k - 0x2000) by omega, windowByte_outWindow_past k (by omega) (by omega)]

theorem readData_reserved (s : State) {off : Nat} (n : Nat) (h : 0x3000 ≤ off) : s.readData off n = 0 :=
  readData_zeros (by omega) fun k _ => windowByte_reserved s k (by omega)

theorem writeEffect_reservedRegister (s : State) {off : Nat} (n : Nat) (v : Word) (h : 0x3C ≤ off) (h' : off < 0x1000) :
    s.writeEffect off n v = s := by
  rw [State.writeEffect, regionOf_registers h', regAt_reserved h]

theorem writeEffect_inWindow_past {s : State} {off : Nat} (n : Nat) (v : Word) (h : 0x1000 + s.params.inCap ≤ off)
    (h' : off < 0x2000) : s.writeEffect off n v = s := by
  rw [State.writeEffect, regionOf_inWindow (by omega) h']
  simp only [writeInLanes_past s _ v n (by omega : s.params.inCap ≤ off - 0x1000), ite_self]

theorem writeEffect_outWindow (s : State) {off : Nat} (n : Nat) (v : Word) (h : 0x2000 ≤ off) (h' : off < 0x3000) :
    s.writeEffect off n v = s := by
  rw [State.writeEffect, regionOf_outWindow h h']

theorem writeEffect_reserved (s : State) {off : Nat} (n : Nat) (v : Word) (h : 0x3000 ≤ off) : s.writeEffect off n v = s := by
  rw [State.writeEffect, regionOf_reserved h]

/-- A supported write without an effect is answered and leaves the rest. -/
theorem busWrite_of_no_effect {s : State} {off n : Nat} {v : Word} (hs : writeSupported off n = true)
    (h : s.writeEffect off n v = s) : s.busWrite off n v = { s with busRsp := some ⟨0, false⟩ } := by
  rw [busWrite_supported hs, h, State.respond]

theorem busRead_zero {s : State} {off n : Nat} (hregion : regionOf off ≠ .outWindow) (hs : readSupported off n = true)
    (h : s.readData off n = 0) : s.busRead off n = { s with busRsp := some ⟨0, false⟩ } := by
  rw [busRead_supported hs, dropOutDraws_of_not_outWindow hregion, h, State.respond]

/-- Settles O43: the four reserved ranges, each with its region's reason. -/
theorem reservedOffsetsReadZero : Obligations.ReservedOffsetsReadZero := by
  refine fun s off n v => ⟨?_, fun ⟨hcap, hend⟩ => ⟨fun hs => ?_, fun hs => ?_⟩⟩
  · rintro (⟨hlow, hend⟩ | ⟨hlow, hend⟩ | ⟨hcap, hend⟩)
    · exact ⟨fun hs => busRead_zero (by simp [regionOf_registers hend]) hs (readData_reservedRegister s n hlow hend),
        fun hs => busWrite_of_no_effect hs (writeEffect_reservedRegister s n v hlow hend)⟩
    · exact ⟨fun hs => busRead_zero (by simp [regionOf_reserved hlow]) hs (readData_reserved s n hlow),
        fun hs => busWrite_of_no_effect hs (writeEffect_reserved s n v hlow)⟩
    · have hregion := regionOf_inWindow (off := off) (by omega) hend
      exact ⟨fun hs => busRead_zero (by simp [hregion]) hs (readData_inWindow_past hcap hend hs),
        fun hs => busWrite_of_no_effect hs (writeEffect_inWindow_past n v hcap hend)⟩
  · have hregion := regionOf_outWindow (off := off) (by omega) hend
    refine ⟨s.outDraws + 4, ?_⟩
    rw [busRead_supported hs, readData_outWindow_past hcap hend hs, State.dropOutDraws, if_pos hregion, State.respond]
  · exact busWrite_of_no_effect hs (writeEffect_outWindow s n v (by omega) hend)

/-! ## Registers (R20 to R36, R57) -/

theorem readSupported_regOffset (r : Reg) : readSupported (regOffset r) 4 = true := by cases r <;> decide

theorem regionOf_regOffset (r : Reg) : regionOf (regOffset r) = .registers := by cases r <;> decide

/-- A supported register read on the bus is the register's own. -/
theorem busRead_reg (s : State) (r : Reg) :
    s.busRead (regOffset r) 4 = { s with busRsp := some ⟨s.readReg r, false⟩ } := by
  rw [busRead_supported (readSupported_regOffset r), dropOutDraws_of_not_outWindow (by simp [regionOf_regOffset]),
    State.readData, regionOf_regOffset, regAt_regOffset]
  rfl

/-- The registers that a write changes only while the core is IDLE, but for CMD (R57). -/
def operandRegs : List Reg := [.inLen, .genLen, .discrepancy, .candLen, .cand0, .cand1, .tstepLo, .tstepHi]

theorem writeReg_operand_of_idle {s : State} (hidle : s.phase = .idle) {r : Reg} (hr : r ∈ operandRegs) (v : Word) :
    s.writeReg r v = s.writeOperand r v := by
  cases r <;> simp [operandRegs] at hr <;> simp [State.writeReg, State.busy, hidle]

theorem writeReg_of_busy {s : State} (hbusy : s.phase = .busy) {r : Reg} (hr : r = .cmd ∨ r ∈ operandRegs) (v : Word) :
    s.writeReg r v = s := by
  cases r <;> simp [operandRegs] at hr <;> simp [State.writeReg, State.busy, hbusy]

/-- What a register write can do: nothing, accept (R132), clear DONE (R26), set IRQ_EN (R27), or write one operand. -/
theorem writeReg_cases (s : State) (r : Reg) (v : Word) :
    s.writeReg r v = s ∨ (r = .cmd ∧ s.phase = .idle ∧ s.writeReg r v = s.accept v) ∨
      (r = .status ∧ s.writeReg r v = s.clearDone) ∨ (r = .ctrl ∧ s.writeReg r v = { s with irqEn := v.getLsbD 0 }) ∨
      (s.phase = .idle ∧ s.writeReg r v = s.writeOperand r v) := by
  cases r with
  | cmd =>
    cases hphase : s.phase with
    | idle => exact .inr (.inl ⟨rfl, rfl, writeReg_cmd_of_idle hphase v⟩)
    | busy => exact .inl (writeReg_of_busy hphase (.inl rfl) v)
  | status =>
    by_cases h : v.getLsbD 1 = true ∧ s.done = true
    · exact .inr (.inr (.inl ⟨rfl, writeReg_status_clears h.1 h.2⟩))
    · exact .inl (writeReg_status_keeps h)
  | ctrl => exact .inr (.inr (.inr (.inl ⟨rfl, rfl⟩)))
  | outLen | stepUsedLo | stepUsedHi | caps => exact .inl rfl
  | inLen | genLen | discrepancy | candLen | cand0 | cand1 | tstepLo | tstepHi =>
    cases hphase : s.phase with
    | idle => exact .inr (.inr (.inr (.inr ⟨rfl, writeReg_operand_of_idle hphase (by decide) v⟩)))
    | busy => exact .inl (writeReg_of_busy hphase (.inr (by decide)) v)

/-- An operand write moves at most the operands. -/
theorem writeOperand_eq (s : State) (r : Reg) (v : Word) :
    ∃ len gen disc clen c0 c1 lo hi, s.writeOperand r v = { s with
      inLen := len, genLen := gen, discrepancy := disc, candLen := clen, cand0 := c0, cand1 := c1
      tstepLo := lo, tstepHi := hi } := by
  cases r <;> exact ⟨_, _, _, _, _, _, _, _, rfl⟩

/-- A write to a register other than CMD and STATUS moves at most the operands and IRQ_EN. -/
theorem writeReg_eq (s : State) {r : Reg} (hcmd : r ≠ .cmd) (hstatus : r ≠ .status) (v : Word) :
    ∃ irq len gen disc clen c0 c1 lo hi, s.writeReg r v = { s with
      irqEn := irq, inLen := len, genLen := gen, discrepancy := disc, candLen := clen, cand0 := c0, cand1 := c1
      tstepLo := lo, tstepHi := hi } := by
  obtain h | ⟨h, -⟩ | ⟨h, -⟩ | ⟨-, h⟩ | ⟨-, h⟩ := writeReg_cases s r v
  · exact ⟨_, _, _, _, _, _, _, _, _, h⟩
  · exact absurd h hcmd
  · exact absurd h hstatus
  · exact ⟨_, _, _, _, _, _, _, _, _, h⟩
  · obtain ⟨len, gen, disc, clen, c0, c1, lo, hi, heq⟩ := writeOperand_eq s r v
    exact ⟨_, _, _, _, _, _, _, _, _, h.trans heq⟩

/-- Each operand register is a field of its own: the one written is excluded, any other reads another field. -/
theorem writeOperand_readReg_of_ne (s : State) {r r' : Reg} (h : r' ≠ r) (v : Word) :
    (s.writeOperand r v).readReg r' = s.readReg r' := by
  cases r <;> cases r' <;> first | rfl | exact absurd rfl h

/-- A write to a register other than CMD and STATUS is not seen in another register. -/
theorem writeReg_readReg_of_ne (s : State) {r r' : Reg} (hcmd : r ≠ .cmd) (hstatus : r ≠ .status) (h : r' ≠ r) (v : Word) :
    (s.writeReg r v).readReg r' = s.readReg r' := by
  obtain heq | ⟨hr, -⟩ | ⟨hr, -⟩ | ⟨hr, heq⟩ | ⟨-, heq⟩ := writeReg_cases s r v
  · rw [heq]
  · exact absurd hr hcmd
  · exact absurd hr hstatus
  · rw [heq]
    subst hr
    cases r' <;> first | rfl | exact absurd rfl h
  · rw [heq, writeOperand_readReg_of_ne s h]

/-! ## Words and their parts -/

theorem setWidth_byte_eq_and (v : Word) : (v.setWidth 8).setWidth 32 = v &&& 0xFF := by
  refine BitVec.eq_of_toNat_eq ?_
  have hmask : (v &&& 0xFF).toNat = v.toNat % 2 ^ 8 := Nat.and_two_pow_sub_one_eq_mod v.toNat 8
  rw [hmask, BitVec.toNat_setWidth, BitVec.toNat_setWidth]
  omega

theorem setWidth_half_eq_and (v : Word) : (v.setWidth 16).setWidth 32 = v &&& 0xFFFF := by
  refine BitVec.eq_of_toNat_eq ?_
  have hmask : (v &&& 0xFFFF).toNat = v.toNat % 2 ^ 16 := Nat.and_two_pow_sub_one_eq_mod v.toNat 16
  rw [hmask, BitVec.toNat_setWidth, BitVec.toNat_setWidth]
  omega

theorem ofBool_bit_eq_and (v : Word) : (0 : BitVec 31) ++ BitVec.ofBool (v.getLsbD 0) = v &&& 1 := by
  refine BitVec.eq_of_getLsbD_eq fun i hi => ?_
  rw [BitVec.getLsbD_append, BitVec.getLsbD_and]
  cases i with
  | zero => simp
  | succ i => simp

theorem toNat_append_word (hi lo : Word) : (hi ++ lo).toNat = hi.toNat * 2 ^ 32 + lo.toNat := by
  rw [BitVec.toNat_append, ← Nat.shiftLeft_add_eq_or_of_lt lo.isLt, Nat.shiftLeft_eq]

theorem extractLsb'_setWidth_cand1 (c : BitVec 16) {i : Nat} (h : i + 8 ≤ 16) :
    (c.setWidth 32).extractLsb' i 8 = c.extractLsb' i 8 := by
  refine BitVec.eq_of_getLsbD_eq fun j hj => ?_
  simp [hj]
  intros
  omega

/-- Settles O44: each register is a field of its own, and a write moves at most that field. -/
theorem registersReadBack : Obligations.RegistersReadBack := by
  refine ⟨⟨rfl, fun s r v => ⟨busWrite_reg s r v, busRead_reg s r⟩⟩, fun s v hidle => ?_, fun s v => ofBool_bit_eq_and v,
    fun s v r hr => ?_, fun s v r r' hcmd hstatus hne => ?_, fun s => ⟨?_, ?_, ?_, ?_⟩⟩
  · have hoperand := fun (r : Reg) (hr : r ∈ operandRegs) => writeReg_operand_of_idle hidle hr v
    refine ⟨?_, ?_, ?_, ?_, ?_, ?_, ?_, ?_⟩ <;> rw [hoperand _ (by decide)]
    case refine_3 => exact setWidth_byte_eq_and v
    case refine_6 => exact setWidth_half_eq_and v
    all_goals rfl
  · simp only [List.mem_cons, List.not_mem_nil, or_false] at hr
    rcases hr with rfl | rfl | rfl | rfl <;> exact ⟨rfl, rfl⟩
  · obtain ⟨irq, len, gen, disc, clen, c0, c1, lo, hi, heq⟩ := writeReg_eq s hcmd hstatus v
    refine ⟨writeReg_readReg_of_ne s hcmd hstatus hne v, ?_⟩
    rw [heq]
    exact ⟨fun a => rfl, fun a => rfl, rfl⟩
  · rw [State.cand, State.readReg, State.readReg, extractLsb'_setWidth_cand1 _ (by decide),
      extractLsb'_setWidth_cand1 _ (by decide)]
  · exact toNat_append_word s.tstepHi s.tstepLo
  · exact toNat_append_word s.stepUsedHi s.stepUsedLo
  · rw [State.disc, State.readReg, BitVec.toNat_setWidth]
    have := s.discrepancy.isLt
    omega

/-- Settles O47: each of the offsets is CMD's or an operand's, and a BUSY core ignores them all. -/
theorem busyWritesAreIgnored : Obligations.BusyWritesAreIgnored := by
  rintro s off n v hbusy hs (hreg | ⟨hlow, hend⟩)
  · obtain ⟨r, hr, rfl⟩ : ∃ r ∈ Reg.cmd :: operandRegs, regOffset r = off := List.mem_map.1 hreg
    have hlt : regOffset r < 0x1000 := by cases r <;> decide
    obtain ⟨rfl, -⟩ := (writeSupported_registers_iff n hlt).1 hs
    rw [busWrite_reg, writeReg_of_busy hbusy (List.mem_cons.1 hr), State.respond]
  · refine busWrite_of_no_effect hs ?_
    simp [State.writeEffect, regionOf_inWindow hlow hend, State.busy, hbusy]

/-! ## Lanes (R51) -/

theorem word_eq_of_lanes {v w : Word} (h : ∀ k, k < 4 → v.extractLsb' (8 * k) 8 = w.extractLsb' (8 * k) 8) : v = w := by
  have h0 := h 0 (by decide)
  have h1 := h 1 (by decide)
  have h2 := h 2 (by decide)
  have h3 := h 3 (by decide)
  rw [← wordOfBytes_extractLsb' v, ← wordOfBytes_extractLsb' w, h0, h1, h2, h3]

/-- The upper lanes of a word, read on their own. -/
theorem laneWord_of_word (v : Word) (i n : Nat) (h : i + n = 4) :
    laneWord ((List.range n).map fun k => v.extractLsb' (8 * (i + k)) 8) = v >>> (8 * i) := by
  refine word_eq_of_lanes fun k hk => ?_
  rw [laneWord_lane _ k hk]
  refine BitVec.eq_of_getLsbD_eq fun j hj => ?_
  by_cases hkn : k < n
  · simp [hkn, hj, Nat.mul_add, Nat.add_assoc]
  · simp [hkn, hj]
    exact BitVec.getLsbD_of_ge _ _ (by omega)

theorem laneWord_eq_wordOfBytes (l : List Byte) :
    laneWord l = wordOfBytes (l.getD 0 0) (l.getD 1 0) (l.getD 2 0) (l.getD 3 0) := by
  rw [← wordOfBytes_extractLsb' (laneWord l)]
  have h0 := laneWord_lane l 0 (by decide)
  have h1 := laneWord_lane l 1 (by decide)
  have h2 := laneWord_lane l 2 (by decide)
  have h3 := laneWord_lane l 3 (by decide)
  rw [h0, h1, h2, h3]

theorem laneWord_four (b0 b1 b2 b3 : Byte) : laneWord [b0, b1, b2, b3] = b3 ++ b2 ++ b1 ++ b0 := by
  rw [laneWord_eq_wordOfBytes]
  rfl

theorem laneWord_one (b : Byte) : laneWord [b] = b.setWidth 32 := by simp [laneWord]

theorem laneWord_two (b0 b1 : Byte) : laneWord [b0, b1] = (b1 ++ b0).setWidth 32 := by
  refine BitVec.eq_of_getLsbD_eq fun i hi => ?_
  rw [laneWord_getLsbD _ i hi, BitVec.getLsbD_setWidth, BitVec.getLsbD_append]
  by_cases h8 : i < 8
  · simp [h8, hi, Nat.div_eq_of_lt h8, Nat.mod_eq_of_lt h8]
  · by_cases h16 : i < 16
    · have hdiv : i / 8 = 1 := by omega
      have hmod : i % 8 = i - 8 := by omega
      simp [h8, hi, hdiv, hmod]
    · have hpast : [b0, b1].length ≤ i / 8 := by simp; omega
      simp only [List.getD_eq_default _ _ hpast, h8]
      simp [BitVec.getLsbD_of_ge b1 (i - 8) (by omega)]

/-- What a read of the IN_BUF window finds after a 32-bit write, from lane `j` on. -/
theorem busRead_busWrite_lanes {s : State} {i j n : Nat} (v : Word) (hidle : s.phase = .idle) (halign : i % 4 = 0)
    (hcap : i + 4 ≤ s.params.inCap) (hwf : s.params.wellFormed = true) (hj : j + n = 4)
    (hn : naturallyAligned (0x1000 + i + j) n = true) :
    ((s.busWrite (0x1000 + i) 4 v).busRead (0x1000 + i + j) n).busRsp = some ⟨v >>> (8 * j), false⟩ := by
  have hin := Params.inCap_le_of_wellFormed hwf
  have hs : writeSupported (0x1000 + i) 4 = true := by
    rw [writeSupported_inWindow 4 (by omega) (by omega), naturallyAligned_iff]
    omega
  have hparams : (s.busWrite (0x1000 + i) 4 v).params = s.params := by
    simp [busWrite_supported hs, State.writeEffect, regionOf_inWindow (off := 0x1000 + i) (by omega) (by omega), State.busy,
      hidle]
  rw [busRead_inBuf _ _ n (by omega) (by rw [hparams]; omega) (by rw [hparams]; exact hin) hn, ← laneWord_of_word v j n hj]
  refine congrArg (fun w => some (BusResponse.mk (laneWord w) false)) (List.map_congr_left fun k hk => ?_)
  rw [List.mem_range] at hk
  rw [inByte_busWrite v (by omega) hs hidle, if_pos (by omega)]
  congr 2
  omega

/-- What a read of the OUT_BUF window finds in lane `k`, where the byte is defined or past the buffer (R39, R53). -/
theorem outWindow_lane {s : State} {i k : Nat} (hi : i + k < 0x1000) :
    (s.params.outCap ≤ i + k → s.windowByte (0x2000 + i + k) k = 0) ∧
      ∀ b, i + k < s.params.outCap → s.phase = .idle → s.err = .none → i + k < s.outLen.toNat →
        memGet s.outBuf (i + k) = some b → s.windowByte (0x2000 + i + k) k = b := by
  rw [Nat.add_assoc]
  refine ⟨windowByte_outWindow_past k hi, fun b hcap hidle herr hlen hget => windowByte_outWindow k hcap hi ?_ hget⟩
  simp [State.outDefined, State.busy, hidle, herr, hlen]

/-- A read of defined OUT_BUF bytes that lie in a row, from the `j`-th on. -/
theorem busRead_outWindow_lanes {s : State} {i j n : Nat} {bs : List Byte} (hidle : s.phase = .idle) (herr : s.err = .none)
    (hlen : i + bs.length ≤ s.outLen.toNat) (hcap : i + bs.length ≤ s.params.outCap) (hwin : i + bs.length ≤ 0x1000)
    (hbs : ∀ k (h : k < bs.length), memGet s.outBuf (i + k) = some bs[k]) (hjn : j + n ≤ bs.length)
    (hn : naturallyAligned (0x2000 + i + j) n = true) :
    (s.busRead (0x2000 + i + j) n).busRsp = some ⟨laneWord ((bs.drop j).take n), false⟩ := by
  rw [Nat.add_assoc] at hn ⊢
  rw [busRead_window_busRsp (by omega) (by rwa [readSupported_window n (by omega)])]
  refine congrArg (fun l => some (BusResponse.mk (laneWord l) false)) (List.ext_getElem (by simp; omega) fun k hk hk' => ?_)
  rw [List.length_map, List.length_range] at hk
  obtain ⟨-, hbyte⟩ := outWindow_lane (s := s) (i := i + j) (k := k) (by omega)
  simp only [List.getElem_map, List.getElem_range, List.getElem_take, List.getElem_drop]
  exact hbyte _ (by omega) hidle herr (by omega) (by rw [Nat.add_assoc]; exact hbs _ (by omega))

/-- Settles O48: a word is its four lanes, on the way in and on the way out. -/
theorem inBufLanesAreLittleEndian : Obligations.InBufLanesAreLittleEndian := by
  refine ⟨fun s i v hidle halign hcap hwf => ?_, fun s i b0 b1 b2 b3 hidle herr halign hlen hcap hwf h0 h1 h2 h3 => ?_,
    fun s i n hi hs => ⟨_, busRead_window_busRsp (by omega) hs, fun k hk => ?_⟩⟩
  · have hin := Params.inCap_le_of_wellFormed hwf
    have hs : writeSupported (0x1000 + i) 4 = true := by
      rw [writeSupported_inWindow 4 (by omega) (by omega), naturallyAligned_iff]
      omega
    have hbyte := inByte_busWrite v (by omega) hs hidle
    have hlanes := fun (j n : Nat) (hj : j + n = 4) (hn : naturallyAligned (0x1000 + i + j) n = true) =>
      busRead_busWrite_lanes v hidle halign hcap hwf hj hn
    refine ⟨?_, ?_, ?_, ?_, hlanes 0 4 rfl ?_, hlanes 2 2 rfl ?_, hlanes 3 1 rfl (naturallyAligned_one _)⟩
    · rw [hbyte, if_pos (by omega), Nat.sub_self]
    · rw [hbyte, if_pos (by omega), Nat.add_sub_cancel_left]
    · rw [hbyte, if_pos (by omega), Nat.add_sub_cancel_left]
    · rw [hbyte, if_pos (by omega), Nat.add_sub_cancel_left]
    · rw [naturallyAligned_iff]; omega
    · rw [naturallyAligned_iff]; omega
  · have hout := Params.outCap_le_of_wellFormed hwf
    have hbs : ∀ k (h : k < [b0, b1, b2, b3].length), memGet s.outBuf (i + k) = some [b0, b1, b2, b3][k] := by
      rintro (_ | _ | _ | _ | k) hk
      · exact h0
      · exact h1
      · exact h2
      · exact h3
      · exact absurd hk (by simp)
    have hlanes := fun (j n : Nat) (hjn : j + n ≤ 4) (hn : naturallyAligned (0x2000 + i + j) n = true) =>
      busRead_outWindow_lanes (bs := [b0, b1, b2, b3]) hidle herr hlen hcap
        (by rw [List.length_cons, List.length_cons, List.length_cons, List.length_singleton]; omega) hbs hjn hn
    have hword := hlanes 0 4 (by decide) ((naturallyAligned_iff _ _).2 (by omega))
    have hlow := hlanes 0 2 (by decide) ((naturallyAligned_iff _ _).2 (by omega))
    have hhigh := hlanes 2 2 (by decide) ((naturallyAligned_iff _ _).2 (by omega))
    have hone := hlanes 1 1 (by decide) (naturallyAligned_one _)
    exact ⟨laneWord_four b0 b1 b2 b3 ▸ hword, laneWord_two b0 b1 ▸ hlow, laneWord_two b2 b3 ▸ hhigh,
      laneWord_one b1 ▸ hone⟩
  · rw [readSupported_window n (by omega)] at hs
    obtain ⟨h4, hend⟩ := naturallyAligned_lane (m := 3) hs (by omega) hk
    rw [laneWord_map_lane _ hk h4]
    exact outWindow_lane (by omega)

/-! ## Writes to the buffer windows (R49, R50) -/

/-- A supported write to the IN_BUF window moves IN_BUF and the answer alone. -/
theorem busWrite_inWindow_eq {s : State} {off n : Nat} (v : Word) (h : 0x1000 ≤ off) (h' : off < 0x2000)
    (hs : writeSupported off n = true) :
    ∃ buf, s.busWrite off n v = { s with inBuf := buf, busRsp := some ⟨0, false⟩ } := by
  rw [busWrite_supported hs, State.writeEffect, regionOf_inWindow h h']
  dsimp only
  split
  · exact ⟨_, rfl⟩
  · rw [writeInLanes_eq]
    exact ⟨_, rfl⟩

/-- Bytes outside a write's own are as before, in either phase. -/
theorem inByte_busWrite_outside {s : State} {off n a : Nat} (v : Word) (h : 0x1000 ≤ off) (h' : off < 0x2000)
    (hs : writeSupported off n = true) (ha : a < off - 0x1000 ∨ off - 0x1000 + n ≤ a) :
    (s.busWrite off n v).inByte a = s.inByte a := by
  rw [busWrite_supported hs, respond_inByte, State.writeEffect, regionOf_inWindow h h']
  dsimp only
  split
  · rfl
  · rw [inByte_writeInLanes, if_neg (by omega)]

theorem writeSupported_outWindow {off n : Nat} (h : 0x2000 ≤ off) (h' : off < 0x3000) (hn : n < 8) :
    writeSupported off n = true := by
  simp [writeSupported, regionOf_outWindow h h', hn]

/-- Settles O49: the write's lanes are the only bytes that move; a write to the OUT_BUF window has no effect. -/
theorem inBufWriteFrame : Obligations.InBufWriteFrame := by
  refine ⟨fun s off n v h h' hs => ⟨fun a => inByte_busWrite_outside v h h' hs, ?_⟩, fun s off n v h h' hn =>
    busWrite_of_no_effect (writeSupported_outWindow h h' hn) (writeEffect_outWindow s n v h h')⟩
  obtain ⟨buf, heq⟩ := busWrite_inWindow_eq (s := s) v h h' hs
  rw [heq]
  exact ⟨fun r => by cases r <;> rfl, fun a => rfl, rfl⟩

/-! ## The hidden registers are not on the bus (R41, R140) -/

section

variable {s t : State} (h : SameVisible s t)

include h

theorem readReg_of_sameVisible (r : Reg) : s.readReg r = t.readReg r := by
  obtain ⟨hphase, hdone, hresult, herr, hirq, h1, h2, h3, h4, h5, h6, h7, h8, h9, h10, h11, -, -, hparams, -, -⟩ := h
  have hstatus := statusWord_congr hphase hdone hresult herr
  cases r <;> simp only [State.readReg, State.ctrlWord, *]

theorem inByte_of_sameVisible (i : Nat) : s.inByte i = t.inByte i := by
  rw [State.inByte, State.inByte, h.inBuf, h.resets]

theorem outDefined_of_sameVisible (i : Nat) : s.outDefined i = t.outDefined i := by
  rw [State.outDefined, State.outDefined, State.busy, State.busy, h.phase, h.err, h.outLen]

/-- An undefined byte is a draw, and both states draw the same. -/
theorem outByte_of_sameVisible (i n : Nat) : s.outByte i n = t.outByte i n := by
  rw [State.outByte, State.outByte, ← outDefined_of_sameVisible h i]
  split
  · next hdef => rw [h.outDefinedBytes i hdef]
  · rfl

theorem windowByte_of_sameVisible (off k : Nat) : s.windowByte off k = t.windowByte off k := by
  simp only [State.windowByte, h.params, h.outDraws, inByte_of_sameVisible h, outByte_of_sameVisible h]

theorem readData_of_sameVisible (off n : Nat) : s.readData off n = t.readData off n := by
  simp only [State.readData, windowByte_of_sameVisible h, funext (readReg_of_sameVisible h)]

end

/-- Settles O51: every register and every window byte is a function of what the two states share. -/
theorem hiddenStateIsInvisible : Obligations.HiddenStateIsInvisible := by
  refine fun s t h => ⟨?_, fun off n _ => readData_of_sameVisible h off n⟩
  rw [State.irq, State.irq, h.done, h.irqEn]

end Sys2Proof.Machine
end

section
/-! SUPPORT. The host's lines and calls: what the assembler refuses and what each call expands to (spec/30_encoding.md R76), and what the `writes` shorthand leaves in IN_BUF (R75). -/

namespace Sys2Proof.Machine

/-! ## Refusals -/

/-- The assembler has no expansion for this form. -/
def AsmRefused {α : Type} (x : Except AsmReject α) : Prop := ∃ r, x = .error r

theorem AsmRefused.bind {α β : Type} {x : Except AsmReject α} (h : AsmRefused x) (f : α → Except AsmReject β) :
    AsmRefused (x >>= f) := by
  obtain ⟨r, rfl⟩ := h
  exact ⟨r, rfl⟩

/-- A later check refuses whatever the earlier ones say. -/
theorem refused_bind {α β : Type} (x : Except AsmReject α) {f : α → Except AsmReject β} (h : ∀ a, AsmRefused (f a)) :
    AsmRefused (x >>= f) := by
  cases x with
  | error r => exact ⟨r, rfl⟩
  | ok a => exact h a

theorem checkString_ok {p : Params} {s : List Byte} (h : s.length ≤ p.inCap) : checkString p s = .ok () := if_pos h

theorem checkString_refused {p : Params} {s : List Byte} (h : p.inCap < s.length) : AsmRefused (checkString p s) :=
  ⟨_, if_neg (by omega)⟩

theorem checkLength_ok {l : Int} (h0 : 0 ≤ l) (h : l < 2 ^ 32) : checkLength l = .ok (BitVec.ofInt 32 l) := if_pos ⟨h0, h⟩

theorem checkLength_refused {l : Int} (h : l < 0 ∨ 2 ^ 32 ≤ l) : AsmRefused (checkLength l) := ⟨_, if_neg (by omega)⟩

theorem checkDiscrepancy_ok {d : Int} (h0 : 0 ≤ d) (h : d ≤ 255) : checkDiscrepancy d = .ok (BitVec.ofInt 32 d) :=
  if_pos ⟨h0, h⟩

theorem checkDiscrepancy_refused {d : Int} (h : d < 0 ∨ 255 < d) : AsmRefused (checkDiscrepancy d) := ⟨_, if_neg (by omega)⟩

theorem checkCandidate_ok {c : List Byte} (h : c.length < 2 ^ 32) : checkCandidate c = .ok () := if_pos h

theorem checkStep_ok {t : Int} (h0 : 0 ≤ t) (h : t < 2 ^ 64) : checkStep t = .ok (BitVec.ofInt 64 t) := if_pos ⟨h0, h⟩

theorem checkStep_refused {t : Int} (h : t < 0 ∨ 2 ^ 64 ≤ t) : AsmRefused (checkStep t) := ⟨_, if_neg (by omega)⟩

theorem stepLines_refused {t : Int} (h : t < 0 ∨ 2 ^ 64 ≤ t) : AsmRefused (stepLines (some t)) := by
  obtain ⟨r, hr⟩ := checkStep_refused h
  exact ⟨r, by rw [stepLines, hr]; rfl⟩

/-! ## Words of an expansion -/

theorem extractLsb'_ofInt_low {t : Int} (h0 : 0 ≤ t) : (BitVec.ofInt 64 t).extractLsb' 0 32 = BitVec.ofInt 32 t := by
  lift t to ℕ using h0
  refine BitVec.eq_of_toNat_eq ?_
  simp

theorem extractLsb'_ofInt_high {t : Int} (h0 : 0 ≤ t) (h : t < 2 ^ 64) :
    (BitVec.ofInt 64 t).extractLsb' 32 32 = BitVec.ofInt 32 (t / 2 ^ 32) := by
  lift t to ℕ using h0
  refine BitVec.eq_of_toNat_eq ?_
  have hdiv : ((t : Int) / 2 ^ 32) = ((t / 2 ^ 32 : Nat) : Int) := by simp
  rw [hdiv, BitVec.ofInt_natCast, BitVec.ofInt_natCast, BitVec.extractLsb'_toNat, BitVec.toNat_ofNat, BitVec.toNat_ofNat,
    Nat.shiftRight_eq_div_pow]
  omega

/-- The two TSTEP writes of a step in range. -/
theorem stepLines_some {t : Int} (h0 : 0 ≤ t) (h : t < 2 ^ 64) :
    stepLines (some t) =
      .ok ([.write .tstepLo (BitVec.ofInt 32 t), .write .tstepHi (BitVec.ofInt 32 (t / 2 ^ 32))], true) := by
  rw [stepLines, checkStep_ok h0 h, ← extractLsb'_ofInt_low h0, ← extractLsb'_ofInt_high h0 h]
  rfl

theorem getD_slice (c : List Byte) (i n k : Nat) : (slice c i (i + n)).getD k 0 = if k < n then c.getD (i + k) 0 else 0 := by
  simp only [slice, List.getD_eq_getElem?_getD, Nat.add_sub_cancel_left]
  split_ifs with hk
  · simp [hk]
  · simp [hk]

theorem wordOfBytes_half (b0 b1 : Byte) : wordOfBytes b0 b1 0 0 = (0 : BitVec 16) ++ b1 ++ b0 := by
  have hzero : (0 : Byte) ++ (0 : Byte) = (0 : BitVec 16) := by decide
  rw [wordOfBytes, hzero]

/-- The candidate's bytes past its end are 0 (R76). -/
theorem candidateLines_eq (c : List Byte) :
    candidateLines c = [.write .candLen (BitVec.ofNat 32 c.length),
      .write .cand0 (c.getD 3 0 ++ c.getD 2 0 ++ c.getD 1 0 ++ c.getD 0 0),
      .write .cand1 ((0 : BitVec 16) ++ c.getD 5 0 ++ c.getD 4 0)] := by
  have hlow := fun k => getD_slice c 0 4 k
  have hhigh := fun k => getD_slice c 4 2 k
  rw [candidateLines, laneWord_eq_wordOfBytes (slice c 0 4), laneWord_eq_wordOfBytes (slice c 4 6)]
  rw [hlow 0, hlow 1, hlow 2, hlow 3, hhigh 0, hhigh 1, hhigh 2, hhigh 3]
  exact congrArg _ (congrArg _ (congrArg (fun w => [HostLine.write .cand1 w]) (wordOfBytes_half _ _)))

/-! ## Expansions -/

theorem assemble_computeCode {p : Params} {s : List Byte} {t : Option Int} {ls : List HostLine} {tsel : Bool} (k : Nat)
    (hs : s.length ≤ p.inCap) (ht : stepLines t = .ok (ls, tsel)) :
    assemble p k (.computeCode s t) = .ok (writesIn s ++ ls ++ [.cmd (.compute tsel), .wait k]) := by
  rw [assemble, checkString_ok hs, ht]
  rfl

theorem assemble_verifyCode {p : Params} {s c : List Byte} {d : Int} {t : Option Int} {ls : List HostLine} {tsel : Bool}
    (k : Nat) (hs : s.length ≤ p.inCap) (hc : c.length < 2 ^ 32) (h0 : 0 ≤ d) (hd : d ≤ 255)
    (ht : stepLines t = .ok (ls, tsel)) :
    assemble p k (.verifyCode s c (some d) t) =
      .ok (writesIn s ++ candidateLines c ++ [.write .discrepancy (BitVec.ofInt 32 d)] ++ ls ++
        [.cmd (.verify tsel), .wait k]) := by
  rw [assemble, checkString_ok hs, checkCandidate_ok hc, Option.getD_some, checkDiscrepancy_ok h0 hd, ht]
  rfl

/-- Settles O54: some check refuses each form out of range; in range every check passes and the lines are R76's. -/
theorem assemblerRefusesUnencodable : Obligations.AssemblerRefusesUnencodable := by
  refine fun p k s c => ⟨⟨fun d t hd => ?_, fun l hl => ?_, fun t ht => ⟨?_, fun d => ?_⟩, fun hs => ⟨?_, ?_, fun t => ?_,
    fun d t => ?_⟩⟩, ⟨rfl, fun l h0 hl => ?_⟩, fun hs => ⟨?_, ?_, ?_, fun t h0 ht => ?_, fun hc => ⟨fun t => rfl,
    fun d h0 hd => ⟨?_, fun t ht0 ht => ?_⟩⟩⟩⟩
  · exact refused_bind _ fun _ => refused_bind _ fun _ => (checkDiscrepancy_refused hd).bind _
  · exact (checkLength_refused hl).bind _
  · exact refused_bind _ fun _ => (stepLines_refused ht).bind _
  · exact refused_bind _ fun _ => refused_bind _ fun _ => refused_bind _ fun _ => (stepLines_refused ht).bind _
  · exact (checkString_refused hs).bind _
  · exact (checkString_refused hs).bind _
  · exact (checkString_refused hs).bind _
  · exact (checkString_refused hs).bind _
  · rw [assemble, Option.getD_some, checkLength_ok h0 hl]; rfl
  · rw [assemble, checkString_ok hs]; rfl
  · rw [assemble, checkString_ok hs]
    exact congrArg Except.ok (List.append_assoc ..)
  · rw [assemble_computeCode k hs rfl, List.append_nil]
  · rw [assemble_computeCode k hs (stepLines_some h0 ht), List.append_assoc]
    rfl
  · rw [assemble_verifyCode k hs hc h0 hd rfl, candidateLines_eq]
    simp only [List.append_assoc, List.cons_append, List.nil_append]
  · rw [assemble_verifyCode k hs hc h0 hd (stepLines_some ht0 ht), candidateLines_eq]
    simp only [List.append_assoc, List.cons_append, List.nil_append]

/-! ## The `writes` shorthand (R75) -/

theorem run_add {M : Host.Core} {s t : M.State} {m : Nat} (h : M.run m s = .next t) (n : Nat) :
    M.run (m + n) s = M.run n t := by
  induction m generalizing s with
  | zero =>
    obtain rfl : s = t := Host.Outcome.next.inj h
    rw [Nat.zero_add]
  | succ m ih =>
    rw [Nat.add_right_comm]
    cases hs : M.step s with
    | next u =>
      rw [run_succ hs] at h ⊢
      exact ih h
    | fault r => rw [Host.Core.run, hs] at h; cases h
    | refused r => rw [Host.Core.run, hs] at h; cases h

theorem windowOffset_in (p : Params) {off : Nat} (h : off < 0x4000) : windowOffset p (p.pBase + off) = some off := by
  rw [windowOffset, if_pos (by omega)]
  congr 1
  omega

/-- A word of the shorthand at the head of the tape, one step. -/
theorem step_writew {s : State} {i : Nat} {v : Word} {rest : List Event} (hrst : s.rst = false) (hi : i < 0x1000)
    (he : s.events = (HostLine.writew i v).event s.params :: rest) :
    step s = .next ({ s with events := rest }.busWrite (0x1000 + i) 4 v) := by
  have hoff : windowOffset s.params (s.params.pBase + 0x1000 + i) = some (0x1000 + i) := by
    rw [Nat.add_assoc]
    exact windowOffset_in s.params (by omega)
  rw [← dropEvent_eq he]
  simp [step, he, HostLine.event, takeEvent, hrst, hostAccess, hoff]

/-- The first `n` bytes of IN_BUF are the string's, and the core is ready for the next access of the host's. -/
structure Filled (p : Params) (str : List Byte) (n : Nat) (s : State) : Prop where
  phase : s.phase = .idle
  rst : s.rst = false
  params : s.params = p
  bytes : ∀ j, j < n → j < str.length → s.inByte j = str.getD j 0

/-- Byte `l` of the `k`-th word of a string (R75). -/
theorem wordOfString_lane (str : List Byte) (k : Nat) {l : Nat} (hl : l < 4) :
    (wordOfString str k).extractLsb' (8 * l) 8 = str.getD (4 * k + l) 0 := by
  rw [wordOfString, laneWord_lane _ l hl, getD_slice, if_pos hl]

theorem Filled.writew {p : Params} {str : List Byte} {k : Nat} {s : State} (h : Filled p str (4 * k) s)
    (hwf : p.wellFormed = true) (hlen : str.length ≤ p.inCap) (hk : 4 * k < str.length) :
    Filled p str (4 * (k + 1)) (s.busWrite (0x1000 + 4 * k) 4 (wordOfString str k)) ∧
      (s.busWrite (0x1000 + 4 * k) 4 (wordOfString str k)).events = s.events := by
  obtain ⟨hidle, hrst, hparams, hbytes⟩ := h
  have hcap := Params.inCap_le_of_wellFormed hwf
  have hs : writeSupported (0x1000 + 4 * k) 4 = true := by
    rw [writeSupported_inWindow 4 (by omega) (by omega), naturallyAligned_iff]
    omega
  obtain ⟨buf, heq⟩ := busWrite_inWindow_eq (s := s) (wordOfString str k) (by omega) (by omega) hs
  refine ⟨⟨by rw [heq]; exact hidle, by rw [heq]; exact hrst, by rw [heq]; exact hparams, fun j hj hjlen => ?_⟩,
    by rw [heq]⟩
  rw [inByte_busWrite _ (by omega) hs hidle, hparams]
  split_ifs with hin
  · rw [wordOfString_lane str k (by omega)]
    congr 1
    omega
  · exact hbytes j (by omega) hjlen

/-- The words from the `k`-th on, one step each. -/
theorem run_words {p : Params} {str : List Byte} (hwf : p.wellFormed = true) (hlen : str.length ≤ p.inCap) (m : Nat) {k : Nat}
    {s : State} {rest : List Event} (h : Filled p str (4 * k) s) (hm : 4 * (k + m) < str.length + 4)
    (he : s.events = ((List.range' k m).map fun k => (HostLine.writew (4 * k) (wordOfString str k)).event p) ++ rest) :
    ∃ t, Host.Core.run core m s = .next t ∧ Filled p str (4 * (k + m)) t ∧ t.events = rest := by
  induction m generalizing k s with
  | zero => exact ⟨s, rfl, h, he⟩
  | succ m ih =>
    have hcap := Params.inCap_le_of_wellFormed hwf
    rw [List.range'_succ, List.map_cons, List.cons_append] at he
    have hstep := step_writew h.rst (i := 4 * k) (by omega) (by rw [h.params]; exact he)
    have htail : Filled p str (4 * k) { s with events := s.events.tail } := ⟨h.phase, h.rst, h.params, h.bytes⟩
    rw [he, List.tail_cons] at htail
    obtain ⟨hnext, hevents⟩ := htail.writew hwf hlen (by omega)
    obtain ⟨t, hrun, hfilled, hrest⟩ := ih hnext (by omega) hevents
    refine ⟨t, (run_succ (M := core) hstep m).trans hrun, ?_, hrest⟩
    rwa [show k + (m + 1) = k + 1 + m by omega]

/-- A string that fills IN_BUF from index 0, with its length in IN_LEN, is the text. -/
theorem text_eq_of_bytes {s : State} {str : List Byte} (hlen : s.inLen.toNat = str.length)
    (hbytes : ∀ j, j < str.length → s.inByte j = str.getD j 0) : s.text = str := by
  refine List.ext_getElem (by rw [text_length, hlen]) fun j _ hj => ?_
  simp [State.text, hbytes j hj, hj]

theorem writesIn_length (str : List Byte) : (writesIn str).length = ceilDiv str.length 4 + 1 := by simp [writesIn]

theorem writesIn_events (p : Params) (str : List Byte) :
    programEvents p (writesIn str) =
      ((List.range' 0 (ceilDiv str.length 4)).map fun k => (HostLine.writew (4 * k) (wordOfString str k)).event p) ++
        [writeEvent p .inLen (BitVec.ofNat 32 str.length)] := by
  simp [programEvents, writesIn, writeEvent, List.range_eq_range']

/-- Settles O53: a word a step, each adding four bytes to those in place, then IN_LEN. -/
theorem writesShorthandFillsInBuf : Obligations.WritesShorthandFillsInBuf := by
  intro s str hidle hrst hwf hlen he
  have hcap := Params.inCap_le_of_wellFormed hwf
  have hstart : Filled s.params str (4 * 0) s := ⟨hidle, hrst, rfl, fun j hj => absurd hj (Nat.not_lt_zero j)⟩
  have hceil : str.length ≤ 4 * ceilDiv str.length 4 ∧ 4 * ceilDiv str.length 4 < str.length + 4 := by
    rw [ceilDiv]
    omega
  obtain ⟨t, hrun, hfilled, hevents⟩ := run_words hwf hlen (ceilDiv str.length 4) hstart (by omega)
    (he.trans (writesIn_events s.params str))
  have hstep := step_writeEvent t .inLen (BitVec.ofNat 32 str.length) [] hfilled.rst (by rw [hfilled.params]; exact hevents)
  rw [writeReg_operand_of_idle (s := t.dropEvent) hfilled.phase (by decide)] at hstep
  have hwhole := (run_add hrun 1).trans ((run_one core t).trans hstep)
  rw [← writesIn_length] at hwhole
  refine ⟨_, hwhole, text_eq_of_bytes ?_ ?_, ?_, ?_⟩
  · show (BitVec.ofNat 32 str.length).toNat = str.length
    rw [BitVec.toNat_ofNat, Nat.mod_eq_of_lt (by omega)]
  · exact fun j hj => hfilled.bytes j (by omega) hj
  · exact hfilled.phase
  · show t.events.tail = []
    rw [hevents, List.tail_cons]

end Sys2Proof.Machine
end

section
/-! SUPPORT. What one step can do (spec/20_memory.md R56, R60, spec/70_reset_and_hazards.md R145 to R148), read off once: every claim about steps is then a claim about six moves. -/

namespace Sys2Proof.Machine

/-- `s`, with what a step may move outside the core taken from `o`: the answer on the bus, the record of unsupported accesses,
the tape, the limits of both external parts and the count of OUT_BUF draws. -/
def State.withOutside (s o : State) : State :=
  { s with
    busRsp := o.busRsp, unsupported := o.unsupported, events := o.events, hmacLeft := o.hmacLeft, rngLeft := o.rngLeft
    outDraws := o.outDraws }

/-- What event `e` can make of the core, the outside apart. -/
inductive Moves (e : Event) (s : State) : State → Prop
  | stay : Moves e s s
  | regWrite (r : Reg) (v : Word) : (∃ a n w, e = .access (.write a n w)) → s.rst = false → Moves e s (s.writeReg r v)
  | bufWrite (i n : Nat) (v : Word) : (∃ a n w, e = .access (.write a n w)) → s.phase = .idle →
      Moves e s (s.writeInLanes i v n)
  | command (i : Instr) (t : State) : s.rst = false → s.phase = .busy → decodeWord s.latchedCmd = .ok i →
      exec i s = .next t → Moves e s t
  | illegal (r : WordReject) : s.rst = false → s.phase = .busy → decodeWord s.latchedCmd = .error r →
      Moves e s (completeIllegal s)
  | reset (level : Bool) : e = .rst level → Moves e s { s with rst := level }.resetCore

/-- `t` is what event `e` makes of `s`. -/
def MovesTo (e : Event) (s t : State) : Prop := ∃ v, Moves e s v ∧ t = v.withOutside t

theorem MovesTo.stay {e : Event} {s t : State} (h : t = s.withOutside t) : MovesTo e s t := ⟨s, .stay, h⟩

theorem busRead_movesTo (e : Event) (s : State) (off n : Nat) : MovesTo e s (s.busRead off n) := by
  obtain ⟨rsp, bad, draws, h⟩ := busRead_eq s off n
  rw [h]
  exact .stay rfl

theorem busWrite_movesTo {e : Event} {s : State} (he : ∃ a n w, e = .access (.write a n w)) (hrst : s.rst = false)
    (off n : Nat) (v : Word) : MovesTo e s (s.busWrite off n v) := by
  cases hs : writeSupported off n with
  | false =>
    rw [busWrite_unsupported hs]
    exact .stay rfl
  | true =>
    rw [busWrite_supported hs, State.writeEffect]
    cases regionOf off with
    | registers =>
      cases regAt off with
      | none => exact .stay rfl
      | some r => exact ⟨_, .regWrite r v he hrst, rfl⟩
    | inWindow =>
      cases hphase : s.phase with
      | idle =>
        rw [State.busy, hphase]
        exact ⟨_, .bufWrite (off - 0x1000) n v he hphase, rfl⟩
      | busy =>
        rw [State.busy, hphase]
        exact .stay rfl
    | outWindow => exact .stay rfl
    | reserved => exact .stay rfl

theorem hostAccess_movesTo {a : Access} {s t : State} (hrst : s.rst = false) (h : hostAccess a s = .next t) :
    MovesTo (.access a) s t := by
  cases a with
  | read addr n =>
    cases hoff : windowOffset s.params addr with
    | none => simp [hostAccess, hoff] at h
    | some off =>
      obtain rfl : s.busRead off n = t := by simpa [hostAccess, hoff] using h
      exact busRead_movesTo _ s off n
  | write addr n v =>
    cases hoff : windowOffset s.params addr with
    | none => simp [hostAccess, hoff] at h
    | some off =>
      obtain rfl : s.busWrite off n v = t := by simpa [hostAccess, hoff] using h
      exact busWrite_movesTo ⟨_, _, _, rfl⟩ hrst off n v

theorem poll_movesTo (s : State) (polls : Nat) : MovesTo (.wait polls) s (s.poll polls) := by
  obtain ⟨rsp, bad, draws, h⟩ := busRead_eq s (regOffset .status) 4
  unfold State.poll
  rw [h]
  dsimp only
  split_ifs
  · exact .stay rfl
  · exact .stay rfl
  · cases polls <;> exact .stay rfl

theorem coreTurn_movesTo {s t : State} (h : coreTurn s = .next t) : MovesTo .coreTurn s t := by
  cases hrst : s.rst with
  | true =>
    obtain rfl : s = t := by simpa [coreTurn, hrst] using h
    exact .stay rfl
  | false =>
    cases hphase : s.phase with
    | idle =>
      obtain rfl : s = t := by simpa [coreTurn, hrst, hphase] using h
      exact .stay rfl
    | busy =>
      cases hw : decodeWord s.latchedCmd with
      | ok i => exact ⟨t, .command i t hrst hphase hw (coreTurn_of_command hrst hphase hw ▸ h), rfl⟩
      | error r =>
        rw [coreTurn_of_illegal hrst hphase hw] at h
        obtain rfl := Host.Outcome.next.inj h
        exact ⟨_, .illegal r hrst hphase hw, rfl⟩

theorem setRst_movesTo (s : State) (level : Bool) : MovesTo (.rst level) s (s.setRst level) := by
  by_cases h : level = true ∨ s.rst = true
  · rw [setRst_of_active h]
    exact ⟨_, .reset level rfl, rfl⟩
  · obtain ⟨hlevel, hrst⟩ := not_or.1 h
    rw [setRst_of_inactive (Bool.eq_false_of_not_eq_true hlevel) (Bool.eq_false_of_not_eq_true hrst)]
    exact .stay rfl

theorem takeEvent_movesTo {e : Event} {s t : State} (h : takeEvent e s = .next t) : MovesTo e s t := by
  cases e with
  | access a =>
    cases hrst : s.rst with
    | true =>
      obtain rfl : { s with busRsp := none } = t := by simpa [takeEvent, hrst] using h
      exact .stay rfl
    | false => exact hostAccess_movesTo hrst (by simpa [takeEvent, hrst] using h)
  | wait polls =>
    obtain rfl := Host.Outcome.next.inj h
    exact poll_movesTo s polls
  | coreTurn => exact coreTurn_movesTo h
  | rst level =>
    obtain rfl := Host.Outcome.next.inj h
    exact setRst_movesTo s level
  | hmacAnswers | rngAnswers | strayResponse =>
    obtain rfl := Host.Outcome.next.inj h
    exact .stay rfl

/-- The event of a step: the tape's next, or with an empty tape the core's turn (log entry 2). -/
def State.nextEvent (s : State) : Event := s.events.head?.getD .coreTurn

theorem step_movesTo {s t : State} (h : step s = .next t) : MovesTo s.nextEvent s.dropEvent t := by
  refine takeEvent_movesTo (h ▸ ?_)
  cases he : s.events with
  | nil =>
    have hdrop : s.dropEvent = s := by rw [State.dropEvent, he, List.tail_nil, ← he]
    rw [State.nextEvent, he, hdrop, step_of_empty_tape he]
    rfl
  | cons e rest => simp [State.nextEvent, step, he]

/-- What every move keeps, whatever the outside does, every step keeps. -/
theorem step_keeps {P : State → Prop} (houtside : ∀ s o, P s → P (s.withOutside o))
    (hmove : ∀ e s t, P s → Moves e s t → P t) {s t : State} (hs : P s) (h : step s = .next t) : P t := by
  obtain ⟨v, hmoves, ht⟩ := step_movesTo h
  rw [ht]
  exact houtside v t (hmove _ _ _ (houtside s s.dropEvent hs) hmoves)

/-! ## What only the host or a reset changes (R23, R147) -/

@[simp] theorem accept_params (s : State) (w : Word) : (s.accept w).params = s.params := by
  obtain ⟨t, lo, hi, feed, draws, h⟩ := accept_eq_latch_with s w
  rw [h]; rfl

@[simp] theorem writeReg_params (s : State) (r : Reg) (v : Word) : (s.writeReg r v).params = s.params := by
  obtain h | ⟨-, -, h⟩ | ⟨-, h⟩ | ⟨-, h⟩ | ⟨-, h⟩ := writeReg_cases s r v <;> rw [h]
  · exact accept_params s v
  · rfl
  · obtain ⟨len, gen, disc, clen, c0, c1, lo, hi, heq⟩ := writeOperand_eq s r v
    rw [heq]

/-- A move that is neither a host write nor a reset keeps every operand. -/
theorem Moves.sameOperands {e : Event} {s t : State} (h : Moves e s t) (hwrite : ∀ a n w, e ≠ .access (.write a n w))
    (hrst : ∀ level, e ≠ .rst level) : SameOperands s t := by
  cases h with
  | stay => exact .refl s
  | regWrite r v he => obtain ⟨a, n, w, rfl⟩ := he; exact absurd rfl (hwrite a n w)
  | bufWrite i n v he => obtain ⟨a, n, w, rfl⟩ := he; exact absurd rfl (hwrite a n w)
  | command i t _ _ _ hexec => exact exec_sameOperands hexec
  | illegal r => exact finish_sameOperands ..
  | reset level he => exact absurd he (hrst level)

theorem Moves.params {e : Event} {s t : State} (h : Moves e s t) : t.params = s.params := by
  cases h with
  | stay => rfl
  | regWrite r v => exact writeReg_params s r v
  | bufWrite i n v => exact writeInLanes_params s i v n
  | command i t _ _ _ hexec => exact (exec_sameOperands hexec).params
  | illegal r => rfl
  | reset level => rfl

theorem inByte_of_sameOperands {s t : State} (h : SameOperands s t) (i : Nat) : t.inByte i = s.inByte i := by
  rw [State.inByte, State.inByte, h.inBuf, h.resets]

theorem nextEvent_ne {s : State} {e : Event} (hturn : e ≠ .coreTurn) (h : s.events.head? ≠ some e) : s.nextEvent ≠ e := by
  unfold State.nextEvent
  cases hhead : s.events.head? with
  | none => exact Ne.symm hturn
  | some e' => exact fun he => h (hhead.trans (congrArg some he))

/-- Settles O52: the moves of the host's reads, of the core and of the outside keep the operands. -/
theorem onlyHostOrResetChangesOperands : Obligations.OnlyHostOrResetChangesOperands := by
  intro s t h
  obtain ⟨v, hmoves, ht⟩ := step_movesTo h
  rw [ht]
  refine ⟨hmoves.params, fun hwrite hrst => ?_⟩
  have hops := hmoves.sameOperands (fun a n w => nextEvent_ne (by simp) (hwrite a n w))
    (fun level => nextEvent_ne (by simp) (hrst level))
  exact ⟨hops.irqEn, hops.inLen, hops.genLen, hops.discrepancy, hops.candLen, hops.cand0, hops.cand1, hops.tstepLo,
    hops.tstepHi, hops.inBuf, fun i => inByte_of_sameOperands hops i⟩

end Sys2Proof.Machine
end

section
/-! SUPPORT. The invariant of the host-visible state and of the hidden registers: it holds at reset, and every move keeps it (spec/10_state.md sections 3 to 5, spec/60_exceptions.md R133, R134). -/

namespace Sys2Proof

open Machine

theorem Machine.not_idle_of_busy {s : State} (h : s.phase = .busy) : s.phase ≠ .idle := by simp [h]

/-! ## What the invariant depends on -/

/-- The invariant speaks of these fields alone. -/
theorem Inv.congr {s t : State} (h : Inv s) (heq : t = { t with
    phase := s.phase, done := s.done, result := s.result, err := s.err, outLen := s.outLen, inBuf := s.inBuf
    outBuf := s.outBuf, latchedCmd := s.latchedCmd, tBase := s.tBase, key := s.key, winI := s.winI, genI := s.genI
    rst := s.rst, params := s.params }) : Inv t := by
  rw [heq]
  exact { h with idleForgets := fun hidle => { h.idleForgets hidle with } }

theorem Params.le_outCap (p : Params) : 128 ≤ p.outCap := le_max_left _ _

theorem Params.encoded_le_outCap (p : Params) : 8 * ((p.inCap + 4) / 5) ≤ p.outCap := le_max_right _ _

/-- Five bytes a chunk of eight symbols are fewer than eight symbols a group of five bytes. -/
theorem Params.keyCap_le_outCap (p : Params) : p.keyCap ≤ p.outCap := by
  have h128 := p.le_outCap
  have henc := p.encoded_le_outCap
  unfold Params.keyCap
  omega

/-- A decoded secret fits P_KEY_CAP. -/
theorem decodedText_length_le_keyCap {s : State} {k : List Byte} (hc : s.overCap = false) (hk : s.decodedText = some k) :
    k.length ≤ s.params.keyCap := by
  have hlen := decodedText_length_le hk
  have hcap := (overCap_eq_false_iff s).1 hc
  unfold Params.keyCap
  omega

/-! ## Completion and reset -/

theorem Inv.finish {s : State} (h : Inv s) (hrst : s.rst = false) {e : Err} {r : Bool} {n : Nat} (hcap : n ≤ s.params.outCap)
    (herr : e ≠ .none → r = false ∧ n = 0) (hresult : r = true → n = 0) : Inv (s.finish e r n) where
  params := h.params
  inWf := h.inWf
  inBound := h.inBound
  outWf := h.outWf
  outBound := h.outBound
  outLenCap := by
    rw [State.finish_outLen, BitVec.toNat_ofNat]
    exact (Nat.mod_le _ _).trans hcap
  busyFlags := fun hbusy => by cases hbusy
  errClean := fun he => ⟨(herr he).1, by rw [State.finish_outLen, (herr he).2]; rfl⟩
  resultClean := fun hr => by rw [State.finish_outLen, hresult hr]; rfl
  keyCap := Nat.zero_le _
  winBound := Nat.zero_le _
  genBound := Nat.zero_le _
  rstIdle := fun hhigh => by rw [State.finish_rst, hrst] at hhigh; cases hhigh
  idleForgets := fun _ => finish_forgotten s e r n

theorem Inv.raise {s : State} (h : Inv s) (hrst : s.rst = false) (e : Err) : Inv (s.raise e) :=
  h.finish hrst (Nat.zero_le _) (fun _ => ⟨rfl, rfl⟩) (fun _ => rfl)

theorem Inv.reset {s : State} (h : s.params.wellFormed = true) : Inv s.resetCore where
  params := h
  inWf := List.Pairwise.nil
  inBound := fun c hc => by cases hc
  outWf := List.Pairwise.nil
  outBound := fun c hc => by cases hc
  outLenCap := Nat.zero_le _
  busyFlags := fun hbusy => by cases hbusy
  errClean := fun he => absurd rfl he
  resultClean := fun _ => rfl
  keyCap := Nat.zero_le _
  winBound := Nat.zero_le _
  genBound := Nat.zero_le _
  rstIdle := fun _ => ⟨rfl, rfl⟩
  idleForgets := fun _ => by constructor <;> rfl

/-! ## The host's moves -/

theorem Inv.clearDone {s : State} (h : Inv s) : Inv s.clearDone :=
  { h with
    busyFlags := fun hbusy => ⟨rfl, (h.busyFlags hbusy).2⟩
    rstIdle := fun hrst => ⟨(h.rstIdle hrst).1, rfl⟩
    idleForgets := fun hidle => { h.idleForgets hidle with } }

theorem Inv.accept {s : State} (h : Inv s) (hrst : s.rst = false) (w : Word) : Inv (s.accept w) := by
  obtain ⟨t, lo, hi, feed, draws, heq⟩ := accept_eq_latch_with s w
  rw [heq]
  exact {
    params := h.params
    inWf := h.inWf
    inBound := h.inBound
    outWf := List.Pairwise.nil
    outBound := fun c hc => by cases hc
    outLenCap := Nat.zero_le _
    busyFlags := fun _ => ⟨rfl, rfl, rfl, rfl⟩
    errClean := fun he => absurd rfl he
    resultClean := fun _ => rfl
    keyCap := Nat.zero_le _
    winBound := Nat.zero_le _
    genBound := Nat.zero_le _
    rstIdle := fun hhigh => absurd (hrst.symm.trans hhigh) Bool.false_ne_true
    idleForgets := fun hidle => by cases hidle }

theorem Inv.writeReg {s : State} (h : Inv s) (hrst : s.rst = false) (r : Reg) (v : Word) : Inv (s.writeReg r v) := by
  obtain heq | ⟨-, -, heq⟩ | ⟨-, heq⟩ | ⟨-, heq⟩ | ⟨-, heq⟩ := writeReg_cases s r v <;> rw [heq]
  · exact h
  · exact h.accept hrst v
  · exact h.clearDone
  · exact h.congr rfl
  · obtain ⟨len, gen, disc, clen, c0, c1, lo, hi, hop⟩ := writeOperand_eq s r v
    rw [hop]
    exact h.congr rfl

theorem Inv.writeInLanes {s : State} (h : Inv s) (i : Nat) (v : Word) (n : Nat) : Inv (s.writeInLanes i v n) := by
  obtain ⟨hwf, hbound⟩ := writeInLanes_wf h.inWf h.inBound i v n
  rw [writeInLanes_eq]
  exact { h with
    inWf := hwf
    inBound := hbound
    idleForgets := fun hidle => { h.idleForgets hidle with } }

/-! ## A running command -/

/-- The invariant in the middle of a body: the core is BUSY. -/
structure InvRunning (s : State) : Prop where
  inv : Inv s
  busy : s.phase = .busy

theorem InvRunning.rst {s : State} (h : InvRunning s) : s.rst = false := by
  refine Bool.eq_false_of_not_eq_true fun hrst => ?_
  obtain ⟨hidle, -⟩ := h.inv.rstIdle hrst
  exact not_idle_of_busy h.busy hidle

/-- A body may move KEY, WIN_I, its index and OUT_BUF within their bounds, and all that the invariant does not speak of. -/
theorem InvRunning.update {s t : State} (h : InvRunning s) (heq : t = { t with
    phase := s.phase, done := s.done, result := s.result, err := s.err, outLen := s.outLen, inBuf := s.inBuf
    rst := s.rst, params := s.params }) (hwf : Memory.wf t.outBuf) (hbound : ∀ c ∈ t.outBuf, c.1 < s.params.outCap)
    (hkey : t.key.length ≤ s.params.keyCap) (hwin : t.winI ≤ 2 * 255 + 1) (hgen : t.genI ≤ Config.genMax) :
    InvRunning t := by
  have hbusy := h.busy
  have hinv := h.inv
  rw [heq]
  exact ⟨{ hinv with
    outWf := hwf
    outBound := hbound
    keyCap := hkey
    winBound := hwin
    genBound := hgen
    idleForgets := fun hidle => absurd hidle (not_idle_of_busy hbusy) }, hbusy⟩

section

variable {s : State} (h : InvRunning s)

include h

/-- What moves neither KEY, WIN_I, the index nor OUT_BUF stays within every bound. -/
theorem InvRunning.congr {t : State} (heq : t = { t with
    phase := s.phase, done := s.done, result := s.result, err := s.err, outLen := s.outLen, inBuf := s.inBuf
    outBuf := s.outBuf, key := s.key, winI := s.winI, genI := s.genI, rst := s.rst, params := s.params }) :
    InvRunning t := by
  rw [heq]
  exact h.update rfl h.inv.outWf h.inv.outBound h.inv.keyCap h.inv.winBound h.inv.genBound

theorem InvRunning.setKey {k : List Byte} (hk : k.length ≤ s.params.keyCap) : InvRunning (s.setKey k) :=
  h.update rfl h.inv.outWf h.inv.outBound hk h.inv.winBound h.inv.genBound

theorem InvRunning.startWindow {k : List Byte} (hk : k.length ≤ s.params.keyCap) : InvRunning (s.startWindow k) := by
  refine h.update rfl h.inv.outWf h.inv.outBound hk ?_ h.inv.genBound
  have hwin := h.inv.winBound
  rw [State.startWindow_winI, State.winStart]
  split <;> omega

theorem InvRunning.startGen : InvRunning s.startGen := by
  refine h.update rfl h.inv.outWf h.inv.outBound h.inv.keyCap h.inv.winBound ?_
  rw [State.startGen_genI, State.genStart]
  split
  · exact h.inv.genBound
  · exact Nat.zero_le _

theorem InvRunning.writeOut {r : List Byte} (hr : r.length ≤ s.params.outCap) : InvRunning (s.writeOut r) :=
  h.update rfl (memSetFrom_wf h.inv.outWf 0 r) (memSetFrom_bound h.inv.outBound (by omega)) h.inv.keyCap h.inv.winBound
    h.inv.genBound

theorem InvRunning.sendHmac (t : TimeStep) : InvRunning (s.sendHmac t) := by
  obtain ⟨-, heq⟩ | ⟨-, heq⟩ := sendHmac_cases s t <;> rw [heq]
  · exact h
  · exact h.congr rfl

theorem InvRunning.hmacAnswered : InvRunning s.hmacAnswered := h.congr rfl

theorem InvRunning.nextOffset (hwin : s.winI + 1 ≤ 2 * 255 + 1) : InvRunning s.nextOffset :=
  h.update rfl h.inv.outWf h.inv.outBound h.inv.keyCap hwin h.inv.genBound

theorem InvRunning.sendRng : InvRunning s.sendRng := by
  obtain ⟨-, heq⟩ | ⟨-, heq⟩ := sendRng_cases s <;> rw [heq]
  · exact h
  · exact h.congr rfl

theorem InvRunning.rngAnswered : InvRunning s.rngAnswered := h.congr rfl

theorem InvRunning.putSymbol (hgen : s.genI + 1 ≤ Config.genMax) (b : Byte) : InvRunning (s.putSymbol b) :=
  h.update rfl (memSet_wf h.inv.outWf _ _) (memSet_bound h.inv.outBound (hgen.trans s.params.le_outCap) _) h.inv.keyCap
    h.inv.winBound hgen

theorem InvRunning.finish {e : Err} {r : Bool} {n : Nat} (hcap : n ≤ s.params.outCap)
    (herr : e ≠ .none → r = false ∧ n = 0) (hresult : r = true → n = 0) : Inv (s.finish e r n) :=
  h.inv.finish h.rst hcap herr hresult

/-- A completion without error and without a match. -/
theorem InvRunning.finish_ok {n : Nat} (hcap : n ≤ s.params.outCap) : Inv (s.finish .none false n) :=
  h.finish hcap (fun he => absurd rfl he) (fun hr => absurd hr Bool.false_ne_true)

theorem InvRunning.raise (e : Err) : Inv (s.raise e) := h.inv.raise h.rst e

/-! ## The bodies -/

theorem InvRunning.computeWithKey : Inv (computeWithKey s) := by
  obtain ⟨-, heq⟩ | ⟨-, heq⟩ := computeWithKey_cases s <;> rw [heq]
  · exact (h.sendHmac _).inv
  · have hcap : 6 ≤ s.params.outCap := six_le_outCap s.params
    have hrun := (h.sendHmac s.tBase).hmacAnswered.writeOut (r := totpCode s.params.hmac s.key s.tBase)
      (by rw [totpCode_length]; simpa using hcap)
    exact hrun.finish_ok (by simpa using hcap)

/-- The window's index and the offsets left stay within the window. -/
theorem InvRunning.verifyLoop {n : Nat} (hn : s.winI + n ≤ 2 * 255 + 1) : Inv (verifyLoop n s) := by
  obtain ⟨u, ⟨hu, -⟩, heq⟩ | ⟨m, u, ⟨hu, -⟩, -, heq⟩ | ⟨m, u, ⟨hu, -⟩, heq⟩ :=
    verifyLoop_rule (P := fun n u => InvRunning u ∧ u.winI + n ≤ 2 * 255 + 1)
      (fun n u ⟨hu, hm⟩ => by
        have hanswered : InvRunning u.windowAnswered := (hu.sendHmac _).hmacAnswered
        have hwin : u.windowAnswered.winI = u.winI := by simp [State.windowAnswered]
        exact ⟨hanswered.nextOffset (by omega), by rw [State.nextOffset_winI]; omega⟩)
      ⟨h, hn⟩ <;> rw [heq]
  · exact hu.finish_ok (Nat.zero_le _)
  · exact (hu.sendHmac _).inv
  · exact (hu.sendHmac _).hmacAnswered.finish (Nat.zero_le _) (fun he => absurd rfl he) (fun _ => rfl)

/-- The index and the bytes left stay within the longest secret. -/
theorem InvRunning.genLoop {n : Nat} (hn : s.genI + n ≤ Config.genMax) : Inv (genLoop n s) := by
  obtain ⟨u, ⟨hu, -⟩, heq⟩ | ⟨m, u, ⟨hu, -⟩, -, heq⟩ | ⟨m, u, ⟨hu, -⟩, heq⟩ :=
    genLoop_rule (P := fun n u => InvRunning u ∧ u.genI + n ≤ Config.genMax)
      (fun n u b ⟨hu, hm⟩ => by
        have hidx : u.sendRng.rngAnswered.genI = u.genI := by simp
        exact ⟨hu.sendRng.rngAnswered.putSymbol (by omega) b, by rw [State.putSymbol_genI]; omega⟩)
      ⟨h, hn⟩ <;> rw [heq]
  · exact hu.finish_ok (hu.inv.genBound.trans u.params.le_outCap)
  · exact hu.sendRng.inv
  · exact hu.sendRng.rngAnswered.raise _

theorem InvRunning.exec {i : Instr} {t : State} (hexec : exec i s = .next t) : Inv t := by
  cases i with
  | decode b =>
    obtain ⟨r, hc, hr, rfl⟩ | ⟨e, rfl⟩ := execDecode_cases hexec
    · have hcap := (decodedText_length_le_keyCap hc hr).trans s.params.keyCap_le_outCap
      exact (h.writeOut hcap).finish_ok hcap
    · exact h.raise e
  | encode b =>
    obtain ⟨hc, rfl⟩ | ⟨e, rfl⟩ := execEncode_cases hexec
    · have hcap : (base32Encode s.text).length ≤ s.params.outCap := by
        have hlen := (overCap_eq_false_iff s).1 hc
        have henc := s.params.encoded_le_outCap
        rw [encoded_length]
        omega
      exact (h.writeOut hcap).finish_ok hcap
    · exact h.raise e
  | gensecret b =>
    obtain ⟨hok, rfl⟩ | ⟨-, e, rfl⟩ := execGensecret_cases hexec
    · obtain ⟨-, h128⟩ := (genLenOk_eq_true_iff s).1 hok
      have hstart := h.startGen.inv.genBound
      refine h.startGen.genLoop ?_
      rw [State.startGen_genI] at hstart ⊢
      unfold Config.genMax at hstart ⊢
      omega
    · exact h.raise e
  | compute b =>
    obtain ⟨k, hc, hk, rfl⟩ | ⟨-, e, rfl⟩ := execCompute_cases hexec
    · exact (h.setKey (decodedText_length_le_keyCap hc hk)).computeWithKey
    · exact h.raise e
  | verify b =>
    obtain ⟨k, hc, -, hk, rfl⟩ | ⟨-, e, rfl⟩ := execVerify_cases hexec
    · have hrun := h.startWindow (decodedText_length_le_keyCap hc hk)
      have hwin := hrun.inv.winBound
      have hdisc : s.disc ≤ 255 := Nat.le_of_lt_succ s.discrepancy.isLt
      refine hrun.verifyLoop ?_
      rw [State.startWindow_winI] at hwin ⊢
      unfold State.windowSize
      omega
    · exact h.raise e

end

/-! ## Every step -/

theorem Inv.moves {e : Event} {s t : State} (h : Inv s) (hmove : Moves e s t) : Inv t := by
  cases hmove with
  | stay => exact h
  | regWrite r v _ hrst => exact h.writeReg hrst r v
  | bufWrite i n v _ _ => exact h.writeInLanes i v n
  | command i t _ hbusy _ hexec => exact InvRunning.exec ⟨h, hbusy⟩ hexec
  | illegal r hrst _ _ => exact h.raise hrst .illegalCommand
  | reset level _ => exact Inv.reset h.params

/-- Settles O59: each move keeps the invariant, a command's body through the states in its middle. -/
theorem stepKeepsInv : Obligations.StepKeepsInv :=
  fun _ _ hinv hstep => step_keeps (fun _ _ h => h.congr rfl) (fun _ _ _ h hmove => h.moves hmove) hinv hstep

end Sys2Proof
end

section
/-! SUPPORT. The invariant of the two ports: who may have a request in flight, and how many requests a command has sent (spec/44_external_cores.md sections 1 and 2, spec/70_reset_and_hazards.md R156). -/

namespace Sys2Proof

open Machine

/-! ## What the invariant depends on -/

/-- The invariant speaks of these fields alone. -/
theorem PortInv.congr {s t : State} (h : PortInv s) (heq : t = { t with
    phase := s.phase, hmacReq := s.hmacReq, rngReq := s.rngReq, latchedCmd := s.latchedCmd, inLen := s.inLen
    params := s.params, inBuf := s.inBuf, resets := s.resets, key := s.key, tBase := s.tBase, hmacSent := s.hmacSent
    candLen := s.candLen, discrepancy := s.discrepancy, winI := s.winI, genLen := s.genLen, rngSent := s.rngSent
    genI := s.genI }) : PortInv t := by
  rw [heq]
  exact { h with }

/-- With both ports free only the counts of requests matter. -/
theorem PortInv.of_free {t : State} (hhmac : t.hmacReq = none) (hrng : t.rngReq = false)
    (hfresh : t.phase = .busy → t.hmacSent = [] ∧ t.rngSent = 0) (hhmacBound : t.hmacSent.length ≤ 2 * 255 + 1)
    (hrngBound : t.rngSent ≤ 128) : PortInv t where
  idlePorts := fun _ => ⟨hhmac, hrng⟩
  onePort := .inl hhmac
  hmacUser := fun hreq => absurd hhmac hreq
  hmacReady := fun hreq => absurd hhmac hreq
  computeWaits := fun hreq => absurd hhmac hreq
  verifyWaits := fun hreq => absurd hhmac hreq
  rngUser := fun hreq => absurd (hrng.symm.trans hreq) Bool.false_ne_true
  rngWaits := fun hreq => absurd (hrng.symm.trans hreq) Bool.false_ne_true
  freshHmac := fun hbusy _ => (hfresh hbusy).1
  freshRng := fun hbusy _ => (hfresh hbusy).2
  hmacBound := hhmacBound
  rngBound := hrngBound

/-- A completion with both ports free. -/
theorem PortInv.of_finish {u : State} (hhmac : u.hmacReq = none) (hrng : u.rngReq = false)
    (hhmacBound : u.hmacSent.length ≤ 2 * 255 + 1) (hrngBound : u.rngSent ≤ 128) (e : Err) (r : Bool) (n : Nat) :
    PortInv (u.finish e r n) :=
  .of_free hhmac hrng (fun hbusy => by cases hbusy) hhmacBound hrngBound

/-! ## The host's moves and reset -/

/-- An IDLE core whose ports and counts are left alone. -/
theorem PortInv.of_idle {s t : State} (h : PortInv s) (hidle : s.phase = .idle) (hphase : t.phase = s.phase)
    (hhmac : t.hmacReq = s.hmacReq) (hrng : t.rngReq = s.rngReq) (hhmacSent : t.hmacSent = s.hmacSent)
    (hrngSent : t.rngSent = s.rngSent) : PortInv t := by
  obtain ⟨hhmacFree, hrngFree⟩ := h.idlePorts hidle
  exact .of_free (hhmac.trans hhmacFree) (hrng.trans hrngFree)
    (fun hbusy => absurd (hphase.trans hidle) (not_idle_of_busy hbusy)) (hhmacSent ▸ h.hmacBound)
    (hrngSent ▸ h.rngBound)

theorem PortInv.accept (s : State) (w : Word) : PortInv (s.accept w) := by
  obtain ⟨t, lo, hi, feed, draws, heq⟩ := accept_eq_latch_with s w
  rw [heq]
  exact .of_free rfl rfl (fun _ => ⟨rfl, rfl⟩) (Nat.zero_le _) (Nat.zero_le _)

theorem PortInv.writeReg {s : State} (h : PortInv s) (r : Reg) (v : Word) : PortInv (s.writeReg r v) := by
  obtain heq | ⟨-, -, heq⟩ | ⟨-, heq⟩ | ⟨-, heq⟩ | ⟨hidle, heq⟩ := writeReg_cases s r v <;> rw [heq]
  · exact h
  · exact PortInv.accept s v
  · exact h.congr rfl
  · exact h.congr rfl
  · obtain ⟨len, gen, disc, clen, c0, c1, lo, hi, hop⟩ := writeOperand_eq s r v
    rw [hop]
    exact h.of_idle hidle rfl rfl rfl rfl rfl

theorem PortInv.writeInLanes {s : State} (h : PortInv s) (hidle : s.phase = .idle) (i : Nat) (v : Word) (n : Nat) :
    PortInv (s.writeInLanes i v n) := by
  rw [writeInLanes_eq]
  exact h.of_idle hidle rfl rfl rfl rfl rfl

theorem PortInv.reset (s : State) : PortInv s.resetCore :=
  .of_free rfl rfl (fun hbusy => by cases hbusy) (Nat.zero_le _) (Nat.zero_le _)

/-! ## Whose request is in flight -/

section

variable {s : State} (h : PortInv s)

include h

theorem PortInv.hmac_free (hcompute : ∀ b, decodeWord s.latchedCmd ≠ .ok (.compute b))
    (hverify : ∀ b, decodeWord s.latchedCmd ≠ .ok (.verify b)) : s.hmacReq = none := by
  by_contra hreq
  obtain ⟨b, hb⟩ | ⟨b, hb⟩ := h.hmacUser hreq
  · exact hcompute b hb
  · exact hverify b hb

theorem PortInv.rng_free (hgen : ∀ b, decodeWord s.latchedCmd ≠ .ok (.gensecret b)) : s.rngReq = false := by
  refine Bool.eq_false_of_not_eq_true fun hreq => ?_
  obtain ⟨b, hb⟩ := h.rngUser hreq
  exact hgen b hb

/-- A completion of a command that used no port. -/
theorem PortInv.finish (hhmac : s.hmacReq = none) (hrng : s.rngReq = false) (e : Err) (r : Bool) (n : Nat) :
    PortInv (s.finish e r n) :=
  .of_finish hhmac hrng h.hmacBound h.rngBound e r n

theorem PortInv.finish_without_ports (hcompute : ∀ b, decodeWord s.latchedCmd ≠ .ok (.compute b))
    (hverify : ∀ b, decodeWord s.latchedCmd ≠ .ok (.verify b)) (hgen : ∀ b, decodeWord s.latchedCmd ≠ .ok (.gensecret b))
    (e : Err) (r : Bool) (n : Nat) : PortInv (s.finish e r n) :=
  h.finish (h.hmac_free hcompute hverify) (h.rng_free hgen) e r n

end

/-! ## COMPUTE (R99) -/

/-- A command in wait for a digest has sent no RNG request, and its request is for the decoded secret. -/
theorem PortInv.of_hmacWait {t : State} (hbusy : t.phase = .busy) (hreq : t.hmacReq ≠ none) (hrng : t.rngReq = false)
    (hrngSent : t.rngSent = 0) (hcap : t.overCap = false) (hkey : t.decodedText = some t.key)
    (huser : (∃ b, decodeWord t.latchedCmd = .ok (.compute b)) ∨ ∃ b, decodeWord t.latchedCmd = .ok (.verify b))
    (hcompute : ∀ b, decodeWord t.latchedCmd = .ok (.compute b) →
      t.hmacReq = some ⟨t.key, t.tBase⟩ ∧ t.hmacSent = [⟨t.key, t.tBase⟩])
    (hverify : ∀ b, decodeWord t.latchedCmd = .ok (.verify b) →
      t.candLen = 6 ∧ t.hmacReq = some ⟨t.key, windowStep t.tBase t.disc t.winI⟩ ∧
        t.hmacSent.length = t.winI + 1 ∧ t.winI < t.windowSize)
    (hbound : t.hmacSent.length ≤ 2 * 255 + 1) : PortInv t where
  idlePorts := fun hidle => absurd hidle (not_idle_of_busy hbusy)
  onePort := .inr hrng
  hmacUser := fun _ => huser
  hmacReady := fun _ => ⟨hcap, hkey⟩
  computeWaits := fun _ => hcompute
  verifyWaits := fun _ => hverify
  rngUser := fun h => absurd (hrng.symm.trans h) Bool.false_ne_true
  rngWaits := fun h => absurd (hrng.symm.trans h) Bool.false_ne_true
  freshHmac := fun _ h => absurd h hreq
  freshRng := fun _ _ => hrngSent
  hmacBound := hbound
  rngBound := hrngSent ▸ Nat.zero_le _

section

variable {s t : State} {b : Bool} {k : List Byte} (h : PortInv s) (hbusy : s.phase = .busy)

include h hbusy

/-- COMPUTE's one request is the one in flight, or the one it sends now. -/
theorem PortInv.compute_request (hw : decodeWord s.latchedCmd = .ok (.compute b)) (hk : s.decodedText = some k) :
    ((s.setKey k).sendHmac s.tBase).hmacReq = some ⟨k, s.tBase⟩ ∧
      ((s.setKey k).sendHmac s.tBase).hmacSent = [⟨k, s.tBase⟩] := by
  by_cases hreq : s.hmacReq = none
  · rw [sendHmac_of_free (s := s.setKey k) hreq]
    exact ⟨rfl, congrArg (List.cons _) (h.freshHmac hbusy hreq)⟩
  · obtain ⟨-, hkey⟩ := h.hmacReady hreq
    obtain rfl : k = s.key := Option.some.inj (hk.symm.trans hkey)
    rw [sendHmac_of_inFlight (s := s.setKey s.key) hreq]
    exact h.computeWaits hreq b hw

theorem PortInv.execCompute (hw : decodeWord s.latchedCmd = .ok (.compute b)) (hexec : execCompute s = .next t) :
    PortInv t := by
  have hrng : s.rngReq = false := h.rng_free (by simp [hw])
  have hrngSent := h.freshRng hbusy hrng
  obtain ⟨k, hc, hk, rfl⟩ | ⟨hbad, e, rfl⟩ := execCompute_cases hexec
  · obtain ⟨hreq, hsent⟩ := h.compute_request hbusy hw hk
    obtain ⟨-, heq⟩ | ⟨-, heq⟩ := computeWithKey_cases (s.setKey k) <;> rw [heq]
    · have hops := ((setKey_sameRunning s k).trans (sendHmac_sameRunning (s.setKey k) s.tBase)).toSameOperands
      refine .of_hmacWait (by simpa using hbusy) (by simp [hreq]) (by simpa using hrng) (by simpa using hrngSent)
        (hops.overCap.trans hc) ?_ (.inl ⟨b, by simpa using hw⟩) (fun _ _ => ?_) (fun b' hb' => ?_) (by simp [hsent])
      · rw [State.sendHmac_key]
        exact hops.decodedText.trans hk
      · rw [State.sendHmac_key, State.sendHmac_tBase]
        exact ⟨hreq, hsent⟩
      · simp [hw] at hb'
    · refine .of_finish rfl (by simpa using hrng) ?_ (by simp [hrngSent]) ..
      show ((s.setKey k).sendHmac s.tBase).hmacSent.length ≤ _
      simp [hsent]
  · refine h.finish ?_ hrng e false 0
    by_contra hreq
    obtain ⟨hc, hk⟩ := h.hmacReady hreq
    simp [hc, hk] at hbad

end

/-! ## VERIFY (R107, R108) -/

/-- VERIFY of secret `k`, accepted in `s`, at an offset of its window with `n` offsets left: it has sent, or is about to send,
the request of this offset, and has sent one for each offset before it. -/
structure WindowTurn (s : State) (k : List Byte) (n : Nat) (u : State) : Prop where
  running : SameRunning s u
  rng : SameRng s u
  phase : u.phase = s.phase
  key : u.key = k
  left : u.winI + n = s.windowSize
  request : (u.sendHmac (windowStep u.tBase u.disc u.winI)).hmacReq = some ⟨u.key, windowStep u.tBase u.disc u.winI⟩
  sent : (u.sendHmac (windowStep u.tBase u.disc u.winI)).hmacSent.length = u.winI + 1
  inFlight : u.hmacReq ≠ none → 0 < n

theorem WindowTurn.next {s u : State} {k : List Byte} {n : Nat} (h : WindowTurn s k (n + 1) u) :
    WindowTurn s k n u.windowAnswered.nextOffset := by
  have hrun := (windowAnswered_sameRunning u).trans (nextOffset_sameRunning _)
  have hfree : u.windowAnswered.nextOffset.hmacReq = none := rfl
  have hwin : u.windowAnswered.nextOffset.winI = u.winI + 1 := by simp [State.windowAnswered]
  have hkey : u.windowAnswered.nextOffset.key = u.key := by simp [State.windowAnswered]
  have hleft := h.left
  exact {
    running := h.running.trans hrun
    rng := h.rng.trans ((sendHmac_sameRng u _).trans ((hmacAnswered_sameRng _).trans (by constructor <;> rfl)))
    phase := by simp [State.windowAnswered, h.phase]
    key := hkey.trans h.key
    left := by rw [hwin]; omega
    request := sendHmac_hmacReq hfree _
    sent := by
      rw [sendHmac_of_free hfree, hwin]
      exact congrArg Nat.succ h.sent
    inFlight := fun hreq => absurd hfree hreq }

theorem windowSize_le (s : State) : s.windowSize ≤ 2 * 255 + 1 := by
  have hdisc : s.disc ≤ 255 := Nat.le_of_lt_succ s.discrepancy.isLt
  unfold State.windowSize
  omega

/-- The window waits at one of its offsets. -/
theorem WindowTurn.wait_portInv {s u : State} {b : Bool} {k : List Byte} {n : Nat} (hu : WindowTurn s k (n + 1) u)
    (hbusy : s.phase = .busy) (hw : decodeWord s.latchedCmd = .ok (.verify b)) (hrng : s.rngReq = false)
    (hrngSent : s.rngSent = 0) (hc : s.overCap = false) (h6 : s.candLen = 6) (hk : s.decodedText = some k) :
    PortInv (u.sendHmac (windowStep u.tBase u.disc u.winI)) := by
  have hsend := sendHmac_sameRunning u (windowStep u.tBase u.disc u.winI)
  have hrun := hu.running.trans hsend
  have hrng' := hu.rng.trans (sendHmac_sameRng u (windowStep u.tBase u.disc u.winI))
  have hleft := hu.left
  have hsize : (u.sendHmac (windowStep u.tBase u.disc u.winI)).windowSize = s.windowSize :=
    congrArg (2 * · + 1) hrun.toSameOperands.disc
  have hmax := windowSize_le s
  refine .of_hmacWait ?_ (by rw [hu.request]; simp) (hrng'.rngReq.trans hrng) (hrng'.rngSent.trans hrngSent)
    (hrun.toSameOperands.overCap.trans hc) ?_ (.inr ⟨b, by rw [hrun.latchedCmd, hw]⟩) (fun b' hb' => ?_)
    (fun _ _ => ⟨hrun.candLen.trans h6, ?_, ?_, ?_⟩) ?_
  · rw [State.sendHmac_phase, hu.phase, hbusy]
  · rw [hrun.toSameOperands.decodedText, State.sendHmac_key, hu.key, hk]
  · rw [hrun.latchedCmd, hw] at hb'
    cases hb'
  · rw [hu.request, hsend.windowStep, State.sendHmac_key, State.sendHmac_winI]
  · rw [hu.sent, State.sendHmac_winI]
  · rw [hsize, State.sendHmac_winI]
    omega
  · rw [hu.sent]
    omega

section

variable {s t : State} {b : Bool} {k : List Byte} (h : PortInv s) (hbusy : s.phase = .busy)
  (hw : decodeWord s.latchedCmd = .ok (.verify b))

include h hbusy hw

theorem PortInv.windowTurn_start (hk : s.decodedText = some k) :
    WindowTurn s k (s.windowSize - s.winStart) (s.startWindow k) := by
  have hrun := startWindow_sameRunning s k
  by_cases hreq : s.hmacReq = none
  · have hstart := winStart_of_free hreq
    have hwin : (s.startWindow k).winI = 0 := by rw [State.startWindow_winI, hstart]
    exact {
      running := hrun
      rng := by constructor <;> rfl
      phase := rfl
      key := rfl
      left := by rw [hwin, hstart, Nat.sub_zero, Nat.zero_add]
      request := sendHmac_hmacReq (s := s.startWindow k) hreq _
      sent := by
        rw [sendHmac_of_free (s := s.startWindow k) hreq, hwin]
        exact congrArg (fun l => l.length + 1) (h.freshHmac hbusy hreq)
      inFlight := fun hne => absurd hreq hne }
  · obtain ⟨-, hkey⟩ := h.hmacReady hreq
    obtain rfl : k = s.key := Option.some.inj (hk.symm.trans hkey)
    obtain ⟨-, hflight, hsent, hlt⟩ := h.verifyWaits hreq b hw
    rw [startWindow_of_inFlight hreq rfl, winStart_of_inFlight hreq]
    exact {
      running := .refl s
      rng := .refl s
      phase := rfl
      key := rfl
      left := by omega
      request := by rw [sendHmac_of_inFlight hreq, hflight]
      sent := by rw [sendHmac_of_inFlight hreq, hsent]
      inFlight := fun _ => by omega }

theorem PortInv.execVerify (hexec : execVerify s = .next t) : PortInv t := by
  have hrng : s.rngReq = false := h.rng_free (by simp [hw])
  have hrngSent := h.freshRng hbusy hrng
  have hsize := windowSize_le s
  obtain ⟨k, hc, h6, hk, rfl⟩ | ⟨hbad, e, rfl⟩ := execVerify_cases hexec
  · obtain ⟨u, hu, heq⟩ | ⟨m, u, hu, -, heq⟩ | ⟨m, u, hu, heq⟩ :=
      verifyLoop_rule (P := WindowTurn s k) (fun _ _ hu => hu.next) (h.windowTurn_start hbusy hw hk) <;> rw [heq]
    · have hfree : u.hmacReq = none := by
        by_contra hreq
        exact absurd (hu.inFlight hreq) (Nat.lt_irrefl 0)
      have hsent := hu.sent
      have hleft := hu.left
      rw [sendHmac_of_free hfree, List.length_cons] at hsent
      exact .of_finish hfree (hu.rng.rngReq.trans hrng) (by omega) (by rw [hu.rng.rngSent, hrngSent]; decide) ..
    · exact hu.wait_portInv hbusy hw hrng hrngSent hc h6 hk
    · have hsent : u.windowAnswered.hmacSent.length = u.winI + 1 := hu.sent
      have hleft := hu.left
      have hrngAnswered : SameRng s u.windowAnswered := hu.rng.trans ((sendHmac_sameRng u _).trans (hmacAnswered_sameRng _))
      exact .of_finish rfl (hrngAnswered.rngReq.trans hrng) (by omega) (by rw [hrngAnswered.rngSent, hrngSent]; decide) ..
  · refine h.finish ?_ hrng e false 0
    by_contra hreq
    obtain ⟨hc, hk⟩ := h.hmacReady hreq
    obtain ⟨h6, -⟩ := h.verifyWaits hreq b hw
    simp [hc, h6, hk] at hbad

end

/-! ## GENSECRET (R92) -/

/-- GENSECRET, accepted in `s`, at a byte with `n` bytes left: it has sent, or is about to send, the request of this byte, and
has sent one for each byte before it. -/
structure GenTurn (s : State) (n : Nat) (u : State) : Prop where
  running : SameRunning s u
  hmac : SameHmac s u
  phase : u.phase = s.phase
  left : u.genI + n = s.genLen.toNat
  sent : u.sendRng.rngSent = u.genI + 1
  inFlight : u.rngReq = true → 0 < n

theorem GenTurn.next {s u : State} {n : Nat} (h : GenTurn s (n + 1) u) (b : Byte) :
    GenTurn s n (u.sendRng.rngAnswered.putSymbol b) := by
  have hput : SameRunning u.sendRng.rngAnswered (u.sendRng.rngAnswered.putSymbol b) := ⟨by constructor <;> rfl, rfl, rfl⟩
  have hrun := ((sendRng_sameRunning u).trans (rngAnswered_sameRunning _)).trans hput
  have hidx : (u.sendRng.rngAnswered.putSymbol b).genI = u.genI + 1 := by simp
  have hfree : (u.sendRng.rngAnswered.putSymbol b).rngReq = false := rfl
  have hleft := h.left
  exact {
    running := h.running.trans hrun
    hmac := h.hmac.trans ((sendRng_sameHmac u).trans ((rngAnswered_sameHmac _).trans (by constructor <;> rfl)))
    phase := by simp [h.phase]
    left := by rw [hidx]; omega
    sent := by
      rw [sendRng_of_free hfree, hidx]
      exact congrArg Nat.succ h.sent
    inFlight := fun hreq => absurd (hfree.symm.trans hreq) Bool.false_ne_true }

theorem sendRng_rngReq (s : State) : s.sendRng.rngReq = true := by
  obtain ⟨hreq, h⟩ | ⟨-, h⟩ := sendRng_cases s <;> rw [h]
  exact hreq

/-- The loop waits at one of its bytes. -/
theorem GenTurn.wait_portInv {s u : State} {b : Bool} {n : Nat} (hu : GenTurn s (n + 1) u) (hbusy : s.phase = .busy)
    (hw : decodeWord s.latchedCmd = .ok (.gensecret b)) (hhmac : s.hmacReq = none) (hhmacSent : s.hmacSent = [])
    (hok : s.genLenOk = true) : PortInv u.sendRng := by
  have hrun := hu.running.trans (sendRng_sameRunning u)
  have hhmac' := hu.hmac.trans (sendRng_sameHmac u)
  have hleft := hu.left
  obtain ⟨-, h128⟩ := (genLenOk_eq_true_iff s).1 hok
  exact {
    idlePorts := fun hidle => by simp [hu.phase, hbusy] at hidle
    onePort := .inl (hhmac'.hmacReq.trans hhmac)
    hmacUser := fun hreq => absurd (hhmac'.hmacReq.trans hhmac) hreq
    hmacReady := fun hreq => absurd (hhmac'.hmacReq.trans hhmac) hreq
    computeWaits := fun hreq => absurd (hhmac'.hmacReq.trans hhmac) hreq
    verifyWaits := fun hreq => absurd (hhmac'.hmacReq.trans hhmac) hreq
    rngUser := fun _ => ⟨b, by rw [hrun.latchedCmd, hw]⟩
    rngWaits := fun _ => ⟨by rw [State.genLenOk, hrun.genLen]; exact hok, by rw [hu.sent, State.sendRng_genI], by
      rw [hrun.genLen, State.sendRng_genI]; omega⟩
    freshHmac := fun _ _ => hhmac'.hmacSent.trans hhmacSent
    freshRng := fun _ hreq => absurd ((sendRng_rngReq u).symm.trans hreq) (by decide)
    hmacBound := by rw [hhmac'.hmacSent, hhmacSent]; exact Nat.zero_le _
    rngBound := by rw [hu.sent]; omega }

section

variable {s t : State} {b : Bool} (h : PortInv s) (hbusy : s.phase = .busy)
  (hw : decodeWord s.latchedCmd = .ok (.gensecret b))

include h hbusy

theorem PortInv.genTurn_start (hok : s.genLenOk = true) : GenTurn s (s.genLen.toNat - s.genStart) s.startGen := by
  obtain ⟨h16, -⟩ := (genLenOk_eq_true_iff s).1 hok
  cases hreq : s.rngReq with
  | false =>
    have hstart := genStart_of_free hreq
    have hidx : s.startGen.genI = 0 := by rw [State.startGen_genI, hstart]
    exact {
      running := startGen_sameRunning s
      hmac := startGen_sameHmac s
      phase := rfl
      left := by rw [hidx, hstart, Nat.sub_zero, Nat.zero_add]
      sent := by
        rw [sendRng_of_free (s := s.startGen) hreq, hidx]
        exact congrArg Nat.succ (h.freshRng hbusy hreq)
      inFlight := fun _ => by omega }
  | true =>
    obtain ⟨-, hsent, hlt⟩ := h.rngWaits hreq
    rw [startGen_of_inFlight hreq, genStart_of_inFlight hreq]
    exact {
      running := .refl s
      hmac := .refl s
      phase := rfl
      left := by omega
      sent := by rw [sendRng_of_inFlight hreq, hsent]
      inFlight := fun _ => by omega }

include hw

theorem PortInv.execGensecret (hexec : execGensecret s = .next t) : PortInv t := by
  have hhmac : s.hmacReq = none := h.hmac_free (by simp [hw]) (by simp [hw])
  have hhmacSent := h.freshHmac hbusy hhmac
  obtain ⟨hok, rfl⟩ | ⟨hbad, e, rfl⟩ := execGensecret_cases hexec
  · obtain ⟨-, h128⟩ := (genLenOk_eq_true_iff s).1 hok
    obtain ⟨u, hu, heq⟩ | ⟨m, u, hu, -, heq⟩ | ⟨m, u, hu, heq⟩ :=
      genLoop_rule (P := GenTurn s) (fun _ _ b hu => hu.next b) (h.genTurn_start hbusy hok) <;> rw [heq]
    · have hfree : u.rngReq = false :=
        Bool.eq_false_of_not_eq_true fun hreq => absurd (hu.inFlight hreq) (Nat.lt_irrefl 0)
      have hsent := hu.sent
      have hleft := hu.left
      rw [sendRng_of_free hfree] at hsent
      have hcount : u.rngSent = u.genI := Nat.succ.inj hsent
      exact .of_finish (hu.hmac.hmacReq.trans hhmac) hfree (by rw [hu.hmac.hmacSent, hhmacSent]; exact Nat.zero_le _)
        (by omega) ..
    · exact hu.wait_portInv hbusy hw hhmac hhmacSent hok
    · have hanswered : SameHmac s u.sendRng.rngAnswered :=
        hu.hmac.trans ((sendRng_sameHmac u).trans (rngAnswered_sameHmac _))
      have hsent : u.sendRng.rngAnswered.rngSent = u.genI + 1 := hu.sent
      have hleft := hu.left
      exact .of_finish (hanswered.hmacReq.trans hhmac) rfl (by rw [hanswered.hmacSent, hhmacSent]; exact Nat.zero_le _)
        (by omega) ..
  · refine h.finish hhmac (Bool.eq_false_of_not_eq_true fun hreq => ?_) e false 0
    obtain ⟨hok, -, -⟩ := h.rngWaits hreq
    exact absurd (hbad.symm.trans hok) Bool.false_ne_true

end

/-! ## Every step -/

theorem PortInv.exec {i : Instr} {s t : State} (h : PortInv s) (hbusy : s.phase = .busy)
    (hw : decodeWord s.latchedCmd = .ok i) (hexec : exec i s = .next t) : PortInv t := by
  cases i with
  | decode b =>
    have hfinish := h.finish_without_ports (by simp [hw]) (by simp [hw]) (by simp [hw])
    obtain ⟨r, -, -, rfl⟩ | ⟨e, rfl⟩ := execDecode_cases hexec
    · exact (hfinish .none false r.length).congr rfl
    · exact hfinish e false 0
  | encode b =>
    have hfinish := h.finish_without_ports (by simp [hw]) (by simp [hw]) (by simp [hw])
    obtain ⟨-, rfl⟩ | ⟨e, rfl⟩ := execEncode_cases hexec
    · exact (hfinish .none false (base32Encode s.text).length).congr rfl
    · exact hfinish e false 0
  | gensecret b => exact h.execGensecret hbusy hw hexec
  | compute b => exact h.execCompute hbusy hw hexec
  | verify b => exact h.execVerify hbusy hw hexec

theorem PortInv.moves {e : Event} {s t : State} (h : PortInv s) (hmove : Moves e s t) : PortInv t := by
  cases hmove with
  | stay => exact h
  | regWrite r v _ _ => exact h.writeReg r v
  | bufWrite i n v _ hidle => exact h.writeInLanes hidle i v n
  | command i t _ hbusy hw hexec => exact h.exec hbusy hw hexec
  | illegal r _ _ hw => exact h.finish_without_ports (by simp [hw]) (by simp [hw]) (by simp [hw]) .illegalCommand false 0
  | reset level _ => exact PortInv.reset _

/-- Settles O60: each move keeps the invariant, the two loops by the count of requests at each of their turns. -/
theorem stepKeepsPortInv : Obligations.StepKeepsPortInv :=
  fun _ _ hinv hstep => step_keeps (fun _ _ h => h.congr rfl) (fun _ _ _ h hmove => h.moves hmove) hinv hstep

/-- Settles O58: the reset state has nothing of a command and both ports free. -/
theorem invariantsHoldAtReset : Obligations.InvariantsHoldAtReset := by
  have hwf : State.reset.params.wellFormed = true := by decide
  exact ⟨(Inv.reset hwf).congr rfl,
    .of_free rfl rfl (fun hbusy => by cases hbusy) (Nat.zero_le _) (Nat.zero_le _)⟩

end Sys2Proof
end
